-- ==== Sys2Proof/Word.lean ====
section
/-! DEFINITION. The plain data types of HUFCODEC: bytes, bit strings in stream order, indices of slots and tree
nodes, the number format of weights, a node of the tree arena, and the engine's hidden working registers.
Only types and their plainest conversions stand here; every rule that computes is under Machine/. -/

namespace Sys2Proof

/-- A byte, 8 bits, bit 0 the least significant (00_scope.md section 5). -/
abbrev Byte := BitVec 8

/-- A bit string in STREAM order: the head of the list is the earliest bit (00_scope.md section 5). -/
abbrev Bits := List Bool

/-- A stored weight: the number that its bits, or whatever code its format WFMT gives it, spell (R97). The width is the
format's and has no bound here (DESIGN CHOICE, log entry 3). -/
abbrev Weight := Nat

/-- The index of one of the builder's 256 slots (R26); also an index into FREQ and CODE (R22, R25). -/
abbrev SlotIdx := Fin 256

/-- The index of one of the 511 nodes of the tree arena (R23). The spec gives the field 9 bits; index 511 names
no node, so it is no value of this type. -/
abbrev NodeIdx := Fin 511

/-- The slot, FREQ entry or CODE entry that belongs to a symbol: index = symbol (R22, R25, R81). -/
def symIdx (s : Byte) : SlotIdx := ⟨s.toNat, s.isLt⟩

/-- The arena index of the leaf of a symbol: index = symbol (R89). -/
def leafIdx (s : Byte) : NodeIdx := ⟨s.toNat, by have := s.isLt; omega⟩

/-- An IEEE 754 binary format, of any width: the widths of its exponent and fraction fields. Its sums are rounded to nearest,
ties to even (R97). -/
structure BinFmt where
  expBits  : Nat
  fracBits : Nat
deriving DecidableEq, Repr, Inhabited

/-- IEEE 754 binary64 (R97). -/
def BinFmt.binary64 : BinFmt := { expBits := 11, fracBits := 52 }

/-- The number format of weights, WFMT (R2, R97), a parameter that may be any number format with its sum and its order
(D3, U14; DESIGN CHOICE, log entry 3). -/
inductive WFmt where
  /-- An IEEE 754 binary format. -/
  | binary (B : BinFmt)
  /-- Any other number format: number k of an arbitrary list of formats, of whose sums, order and finite numbers nothing is
  known but that the order is one (Machine/Weight.lean). -/
  | other (k : Nat)
deriving DecidableEq, Repr, Inhabited

/-- The default of WFMT (R97, D3). -/
def WFmt.binary64 : WFmt := .binary .binary64

/-- The order in which slots are scanned (SCAN_ORDER, R2): the spec permits ascending index only (D4;
DEDUCED, log entry 14). -/
inductive ScanOrder where
  | ascending
deriving DecidableEq, Repr, Inhabited

/-- Which of the two selected slots receives the merged node (MERGE_SLOT, R87). -/
inductive MergeSlot where
  | k1
  | k2
deriving DecidableEq, Repr, Inhabited

/-- An entry of the tree arena (R23). KIND is the constructor; a field that is not valid for the entry's KIND does
not exist here, so it can be neither read nor relied on (U4). -/
inductive NodeEntry where
  /-- KIND = 0: a leaf with SYM and W. -/
  | leaf (sym : Byte) (w : Weight)
  /-- KIND = 1: an internal node with C0, C1 and W. -/
  | internal (c0 c1 : NodeIdx) (w : Weight)
deriving DecidableEq, Repr, Inhabited

/-- The field W of an entry, valid for both kinds (R23). -/
def NodeEntry.weight : NodeEntry → Weight
  | .leaf _ w => w
  | .internal _ _ w => w

/-- The field KIND of an entry, as "is it a leaf" (R23). -/
def NodeEntry.isLeaf : NodeEntry → Bool
  | .leaf _ _ => true
  | .internal _ _ _ => false

/-- The tree arena NODE[0..510] (R23). -/
abbrev Arena := Vector NodeEntry 511

/-- The symbol code table CODE[0..255]: each entry a bit string in stream order (R25). -/
abbrev CodeTable := Vector Bits 256

/-- The builder's working slots SLOT[0..255]; `none` is EMPTY (R26). -/
abbrev Slots := Vector (Option NodeIdx) 256

/-- The engine's hidden working registers of R26 and R27, PHASE apart. The host can neither read nor write one of
them, and between commands their values are unspecified (U10; DEDUCED, log entry 1). -/
structure Work where
  /-- SLOT (R26). -/
  slot : Slots
  /-- MCNT: merges done, 0..255 (R27). -/
  mcnt : Nat
  /-- K1: the slot of the lowest weight in the current merge (R27, R83). -/
  k1   : SlotIdx
  /-- K2: the slot of the second lowest weight in the current merge (R27, R84). -/
  k2   : SlotIdx
  /-- IPOS: the next input index (R27). -/
  ipos : Nat
  /-- OPOS: the next output index (R27). -/
  opos : Nat
  /-- NP: the current node of the decoder's walk (R27). -/
  np   : NodeIdx
  /-- ACC: the byte being packed or unpacked (R27). -/
  acc  : Byte
  /-- NACC: how many bits of ACC are used, 0..7 (R27). -/
  nacc : Nat
  /-- LCNT: bits produced so far (R27). -/
  lcnt : Nat
deriving DecidableEq, Repr, Inhabited

end Sys2Proof
end

