-- ==== Sys2Proof/Machine/Weight.lean ====
section
/-! DEFINITION. The arithmetic of weights (R97): the two operations of the builder, `wadd` (the sum) and `wlt` (strict
less-than), and the numbers that a configuration admits (R3), for every number format.

In an IEEE 754 binary format values are counted exactly in quanta: one quantum is the least positive number of the format,
and every finite number of the format is a whole number of quanta. In any other format the operations are free values. -/

namespace Sys2Proof

/-! IEEE 754 binary formats. -/

/-- The stored pattern without its sign bit. -/
def BinFmt.magnitude (F : BinFmt) (w : Weight) : Nat := w % 2 ^ (F.expBits + F.fracBits)

/-- The sign bit of a stored pattern. -/
def BinFmt.sign (F : BinFmt) (w : Weight) : Bool := w.testBit (F.expBits + F.fracBits)

/-- The magnitude pattern of infinity: exponent all ones, fraction zero. -/
def BinFmt.infMagnitude (F : BinFmt) : Nat := (2 ^ F.expBits - 1) * 2 ^ F.fracBits

/-- The pattern is a finite number: neither NaN nor infinity (R3). -/
def BinFmt.finite (F : BinFmt) (w : Weight) : Bool := F.magnitude w < F.infMagnitude

/-- The absolute value of a pattern in quanta. Subnormal numbers (exponent 0) are kept as they are (R97). -/
def BinFmt.quanta (F : BinFmt) (w : Weight) : Nat :=
  let e := F.magnitude w / 2 ^ F.fracBits
  let f := F.magnitude w % 2 ^ F.fracBits
  if e = 0 then f else (2 ^ F.fracBits + f) * 2 ^ (e - 1)

/-- The magnitude pattern of n quanta rounded to nearest, ties to even (R97). With k low bits to drop, the pattern is
k times the fraction's size plus the rounded quotient: a carry out of the fraction moves into the exponent. A value
too large for the format gives infinity (PRESUMED, log entry 12). -/
def BinFmt.pack (F : BinFmt) (n : Nat) : Nat :=
  let k := Nat.log2 n - F.fracBits
  let q := n / 2 ^ k
  let r := n % 2 ^ k
  let up := 2 ^ k < 2 * r ∨ (2 * r = 2 ^ k ∧ q % 2 = 1)
  min (k * 2 ^ F.fracBits + (if up then q + 1 else q)) F.infMagnitude

/-- The pattern of negative zero, which counts as zero (R3, R97). -/
def BinFmt.negZero (F : BinFmt) : Weight := 2 ^ (F.expBits + F.fracBits)

/-- R97: the correctly rounded sum of two weights that are not negative. The sum of two negative zeros is
negative zero, as in IEEE 754 (PRESUMED, log entry 12). -/
def BinFmt.wadd (F : BinFmt) (a b : Weight) : Weight :=
  if F.sign a && F.sign b then F.negZero else F.pack (F.quanta a + F.quanta b)

/-- R97: strict less-than of two weights that are not negative; +0 and -0 compare equal. -/
def BinFmt.wlt (F : BinFmt) (a b : Weight) : Bool := F.quanta a < F.quanta b

/-- R3: the pattern is a number of the format that is finite, not NaN and not negative (negative zero counts as zero). -/
def BinFmt.admits (F : BinFmt) (w : Weight) : Bool :=
  w < 2 ^ (F.expBits + F.fracBits + 1) && F.finite w && (!F.sign w || F.magnitude w == 0)

/-! Any other number format: three free values, opaque constants without a body, so that what is proved of a configuration of
such a format holds whatever its sum, its order and its numbers are (DESIGN CHOICE, log entry 3). -/

/-- The sum of two weights of format k, rounded as that format rounds (R97). -/
opaque Config.otherSum : (k : Nat) → (a b : Weight) → Weight

/-- The number that a stored weight of format k is; where the format has numbers that are not rational, its place in their
order. Two weights compare as these do, which makes the order total (R3). -/
opaque Config.otherNumber : (k : Nat) → (w : Weight) → Rat

/-- The stored weight of format k is a finite number: a code of the format, not NaN, not infinite (R3). -/
opaque Config.otherFinite : (k : Nat) → (w : Weight) → Bool

/-! The operations of WFMT. -/

/-- R97: `wadd`, the sum of two weights. -/
def WFmt.wadd : WFmt → Weight → Weight → Weight
  | .binary B, a, b => B.wadd a b
  | .other k, a, b => Config.otherSum k a b

/-- R97: `wlt`, strict less-than of two weights. -/
def WFmt.wlt : WFmt → Weight → Weight → Bool
  | .binary B, a, b => B.wlt a b
  | .other k, a, b => Config.otherNumber k a < Config.otherNumber k b

/-- R3: the stored weight is a finite number of the format. -/
def WFmt.finite : WFmt → Weight → Bool
  | .binary B, w => B.finite w
  | .other k, w => Config.otherFinite k w

/-- R3: the stored weight is a finite number of the format, not NaN and not negative. -/
def WFmt.admits : WFmt → Weight → Bool
  | .binary B, w => B.admits w
  | .other k, w => Config.otherFinite k w && !(Config.otherNumber k w < 0)

end Sys2Proof
end

