-- ==== Sys2Proof/Config.lean ====
section
/-! DEFINITION. What an implementation of HUFCODEC fixes (R2), when such a choice is well formed (R3, R4), and the free
values: opaque constants without a body, of which nothing can be proved (those of a number format stand in
Machine/Weight.lean). -/

namespace Sys2Proof

/-- R2: the tuple (FREQ, WFMT, SCAN_ORDER, MERGE_SLOT, K1_BIT, MAX_IN, MAX_OUT). -/
structure Params where
  /-- WFMT. -/
  fmt       : WFmt
  /-- FREQ: 256 weights, index = symbol (R22). -/
  freq      : Vector Weight 256
  /-- SCAN_ORDER. -/
  scanOrder : ScanOrder
  /-- MERGE_SLOT (R87). -/
  mergeSlot : MergeSlot
  /-- K1_BIT: the bit of the edge to the lowest-weight node (R86). -/
  k1Bit     : Bool
  /-- MAX_IN: the capacity of IBUF in bytes. -/
  maxIn     : Nat
  /-- MAX_OUT: the capacity of OBUF in bytes. -/
  maxOut    : Nat
deriving DecidableEq, Repr

/-- t is a WFMT sum of all entries of the list, taken in some order and grouping (R3, "taken in any order"; DEDUCED, log entry 4). -/
inductive WSum (F : WFmt) : List Weight → Weight → Prop where
  | one (w : Weight) : WSum F [w] w
  | add {l l₁ l₂ : List Weight} {a b : Weight} :
      WSum F l₁ a → WSum F l₂ b → (l₁ ++ l₂).Perm l → WSum F l (F.wadd a b)

/-- R3 and R4: a well-formed configuration. The first clause says that a format called an IEEE 754 binary one is one; it shuts
no number format out, since `WFmt.other` is every other (log entry 3). -/
structure Params.WellFormed (p : Params) : Prop where
  binary  : ∀ B, p.fmt = .binary B → 2 ≤ B.expBits ∧ 1 ≤ B.fracBits
  weights : ∀ i : SlotIdx, p.fmt.admits p.freq[i] = true
  total   : ∀ t, WSum p.fmt p.freq.toList t → p.fmt.finite t = true
  input   : 1 ≤ p.maxIn
  output  : p.maxIn + 1 ≤ p.maxOut

/-- A configuration of HUFCODEC (R2). It carries the proof that it is well formed: the model refuses an ill-formed one by
having no such configuration (R3, R4, U9). -/
structure Config extends Params where
  wf : toParams.WellFormed
deriving DecidableEq, Repr

/-- LENW: the smallest width w with 2^w > MAX_OUT (10_state.md section 1), the width of ILEN and OLEN. -/
def Params.lenW (p : Params) : Nat := Nat.log2 p.maxOut + 1

/-- The configuration whose weights are all 0 (table ZERO of 95_test_vectors.md), with the defaults of 00_scope.md section 4
and the capacities of the test vectors. It only shows that a configuration exists. -/
def Params.zero : Params :=
  { fmt := .binary64, freq := Vector.replicate 256 0, scanOrder := .ascending, mergeSlot := .k1, k1Bit := true
    maxIn := 64, maxOut := 65 }

theorem WFmt.wadd_zero_zero : WFmt.binary64.wadd 0 0 = 0 := by decide

theorem WSum_zero {F : WFmt} (h0 : F.wadd 0 0 = 0) {l : List Weight} {t : Weight} (h : WSum F l t)
    (hl : ∀ w ∈ l, w = 0) : t = 0 := by
  induction h with
  | one w => exact hl w (by simp)
  | add _ _ hp ih₁ ih₂ =>
    have ha := ih₁ fun w hw => hl w (hp.mem_iff.mp (by simp [hw]))
    have hb := ih₂ fun w hw => hl w (hp.mem_iff.mp (by simp [hw]))
    rw [ha, hb, h0]

theorem Params.zero_wellFormed : Params.zero.WellFormed where
  binary B h := by
    cases h
    exact ⟨by decide, by decide⟩
  weights i := by
    have h : Params.zero.freq[i] = 0 := Vector.getElem_replicate i.isLt
    rw [h]; decide
  total t h := by
    have hz : Params.zero.freq.toList = List.replicate 256 0 := Vector.toList_replicate
    have : t = 0 := WSum_zero WFmt.wadd_zero_zero h fun w hw => List.eq_of_mem_replicate (hz ▸ hw)
    subst this; decide
  input := by decide
  output := by decide

/-- The configuration ZERO. -/
def Config.zero : Config := { Params.zero with wf := Params.zero_wellFormed }

/-- Some configuration, of a type that has one: it has no body, so nothing can be proved of it but that it is well formed. -/
opaque Config.any [Inhabited Config] : Config

/-- The configuration of the block after power-on. FREQ, MAX_IN and MAX_OUT are OPEN parameters (R2, D2, D7) and the others
are parameters too, so it is a FREE VALUE: an arbitrary well-formed configuration (DESIGN CHOICE, log entry 2). -/
def Config.chip : Config := @Config.any ⟨Config.zero⟩

/-! The free values (DESIGN CHOICE, log entry 6). The argument is a counter of State: `epoch` counts resets, `draws` counts completed
commands, so that a value need not be the same after every reset or command (R178). -/

/-- The byte that IBUF[a] holds after reset number `epoch` until the host writes it (R20, R178, U1). -/
opaque Config.freeIbuf : (epoch a : Nat) → Byte
/-- What NODE holds after reset until BUILD completes (R23, U3). -/
opaque Config.freeArena : (epoch : Nat) → Arena
/-- What ROOT holds after reset until BUILD completes (R24, U3). -/
opaque Config.freeRoot : (epoch : Nat) → NodeIdx
/-- What CODE holds after reset until BUILD completes (R25, U3). -/
opaque Config.freeCode : (epoch : Nat) → CodeTable
/-- What SLOT and the working registers hold after reset (R175, U10). -/
opaque Config.freeWorkReset : (epoch : Nat) → Work
/-- What SLOT and the working registers hold after a completed command (R26, R27, U10). -/
opaque Config.freeWork : (draws : Nat) → Work
/-- The field C0 (c = false) or C1 (c = true) of an entry that is a leaf: an unspecified value (R23, U4). No run reads it:
the decoder's walk leaves internal nodes only (R123). -/
opaque Config.freeChild : (n : NodeIdx) → (c : Bool) → NodeIdx

end Sys2Proof
end

