-- ==== Sys2Proof/Syntax.lean ====
section
/-! DEFINITION. The instructions: one constructor for each of the 23 rows of spec/opcode_table.json. The table has two
spaces (30_encoding.md section 5): the command byte that the host writes to CMD, and the header byte of a Huffman
frame, which DECODE reads. The rows that stand for a range of byte values (the illegal commands, the reserved
headers) carry the byte itself, so that no bit of an encoding is dropped. -/

namespace Sys2Proof

/-- The two spaces of the opcode table (30_encoding.md section 5): the same byte value belongs to one row of each. -/
inductive Space where
  /-- The byte is a command: the host writes it to CMD (R60). -/
  | cmd
  /-- The byte is byte 0 of a Huffman frame (R63). -/
  | frameHeader
deriving DecidableEq, Repr

/-- One constructor per row of spec/opcode_table.json. -/
inductive Instr where
  /-- NOP, 0x00 (R136). -/
  | nop
  /-- BUILD, 0x01 (R80). -/
  | build
  /-- ENCODE, 0x02 (R100). -/
  | encode
  /-- DECODE, 0x03 (R115). -/
  | decode
  /-- ILLEGAL_04_07: an illegal command byte c (R137). -/
  | illegal04_07 (c : Byte)
  /-- ILLEGAL_08_0F (R137). -/
  | illegal08_0F (c : Byte)
  /-- ILLEGAL_10_1F (R137). -/
  | illegal10_1F (c : Byte)
  /-- ILLEGAL_20_3F (R137). -/
  | illegal20_3F (c : Byte)
  /-- ILLEGAL_40_7F (R137). -/
  | illegal40_7F (c : Byte)
  /-- ILLEGAL_80_FF (R137). -/
  | illegal80_FF (c : Byte)
  /-- HDR_FC: the header of a compressed frame with h padding bits (R64). -/
  | hdrFC (h : BitVec 3)
  /-- HDR_FR: the sentinel 0xFF, the header of a raw frame (R65). -/
  | hdrFR
  /-- HDR_RESERVED_08_0F: a reserved header byte b (R120). -/
  | hdrReserved08_0F (b : Byte)
  /-- HDR_RESERVED_10_1F (R120). -/
  | hdrReserved10_1F (b : Byte)
  /-- HDR_RESERVED_20_3F (R120). -/
  | hdrReserved20_3F (b : Byte)
  /-- HDR_RESERVED_40_7F (R120). -/
  | hdrReserved40_7F (b : Byte)
  /-- HDR_RESERVED_80_BF (R120). -/
  | hdrReserved80_BF (b : Byte)
  /-- HDR_RESERVED_C0_DF (R120). -/
  | hdrReservedC0_DF (b : Byte)
  /-- HDR_RESERVED_E0_EF (R120). -/
  | hdrReservedE0_EF (b : Byte)
  /-- HDR_RESERVED_F0_F7 (R120). -/
  | hdrReservedF0_F7 (b : Byte)
  /-- HDR_RESERVED_F8_FB (R120). -/
  | hdrReservedF8_FB (b : Byte)
  /-- HDR_RESERVED_FC_FD (R120). -/
  | hdrReservedFC_FD (b : Byte)
  /-- HDR_RESERVED_FE_FE: the one byte 0xFE (R120). -/
  | hdrReservedFE_FE
deriving DecidableEq, Repr

/-- The space of the opcode table an instruction's row belongs to. -/
def Instr.space : Instr → Space
  | .nop | .build | .encode | .decode => .cmd
  | .illegal04_07 _ | .illegal08_0F _ | .illegal10_1F _ => .cmd
  | .illegal20_3F _ | .illegal40_7F _ | .illegal80_FF _ => .cmd
  | .hdrFC _ | .hdrFR => .frameHeader
  | .hdrReserved08_0F _ | .hdrReserved10_1F _ | .hdrReserved20_3F _ => .frameHeader
  | .hdrReserved40_7F _ | .hdrReserved80_BF _ | .hdrReservedC0_DF _ => .frameHeader
  | .hdrReservedE0_EF _ | .hdrReservedF0_F7 _ | .hdrReservedF8_FB _ => .frameHeader
  | .hdrReservedFC_FD _ | .hdrReservedFE_FE => .frameHeader

end Sys2Proof
end

