-- ==== Sys2Proof/WellFormed.lean ====
section
/-! DEFINITION. When an instruction is well formed: a row that stands for a range of bytes carries a byte of that range.
The ranges are the "range" column of spec/opcode_table.json. The other rows have no operand that could be wrong
(HDR_FC's padding count h is three bits wide, R64). -/

namespace Sys2Proof

/-- The byte lies between the two ends of a row's range, both included. -/
def inRange (lo hi b : Byte) : Bool := lo ≤ b && b ≤ hi

/-- The well-formedness check of an instruction, one range per row. -/
def Instr.wellFormed : Instr → Bool
  | .nop => true
  | .build => true
  | .encode => true
  | .decode => true
  | .illegal04_07 c => inRange 0x04 0x07 c
  | .illegal08_0F c => inRange 0x08 0x0F c
  | .illegal10_1F c => inRange 0x10 0x1F c
  | .illegal20_3F c => inRange 0x20 0x3F c
  | .illegal40_7F c => inRange 0x40 0x7F c
  | .illegal80_FF c => inRange 0x80 0xFF c
  | .hdrFC _ => true
  | .hdrFR => true
  | .hdrReserved08_0F b => inRange 0x08 0x0F b
  | .hdrReserved10_1F b => inRange 0x10 0x1F b
  | .hdrReserved20_3F b => inRange 0x20 0x3F b
  | .hdrReserved40_7F b => inRange 0x40 0x7F b
  | .hdrReserved80_BF b => inRange 0x80 0xBF b
  | .hdrReservedC0_DF b => inRange 0xC0 0xDF b
  | .hdrReservedE0_EF b => inRange 0xE0 0xEF b
  | .hdrReservedF0_F7 b => inRange 0xF0 0xF7 b
  | .hdrReservedF8_FB b => inRange 0xF8 0xFB b
  | .hdrReservedFC_FD b => inRange 0xFC 0xFD b
  | .hdrReservedFE_FE => true

end Sys2Proof
end

