-- ==== Sys2Proof/Decode.lean ====
section
/-! DEFINITION. The decoder and the encoder, written from the encodings of spec/opcode_table.json (format C8, R60, and
format FH, R63): each row is a match and a mask over one byte. -/

namespace Sys2Proof

/-- A row of the opcode table: the byte b is of this row when its bits under `mask` are `mtch`. -/
structure Row where
  mnemonic : String
  space    : Space
  mtch     : Byte
  mask     : Byte
  make     : Byte → Instr

/-- The byte b has the row's fixed bits. -/
def Row.hit (r : Row) (b : Byte) : Bool := b &&& r.mask == r.mtch

/-- The rows of the command space (R60, R70 (a)), in the table's order. -/
def commandRows : List Row :=
  [ ⟨"NOP", .cmd, 0x00, 0xFF, fun _ => .nop⟩,
    ⟨"BUILD", .cmd, 0x01, 0xFF, fun _ => .build⟩,
    ⟨"ENCODE", .cmd, 0x02, 0xFF, fun _ => .encode⟩,
    ⟨"DECODE", .cmd, 0x03, 0xFF, fun _ => .decode⟩,
    ⟨"ILLEGAL_04_07", .cmd, 0x04, 0xFC, .illegal04_07⟩,
    ⟨"ILLEGAL_08_0F", .cmd, 0x08, 0xF8, .illegal08_0F⟩,
    ⟨"ILLEGAL_10_1F", .cmd, 0x10, 0xF0, .illegal10_1F⟩,
    ⟨"ILLEGAL_20_3F", .cmd, 0x20, 0xE0, .illegal20_3F⟩,
    ⟨"ILLEGAL_40_7F", .cmd, 0x40, 0xC0, .illegal40_7F⟩,
    ⟨"ILLEGAL_80_FF", .cmd, 0x80, 0x80, .illegal80_FF⟩ ]

/-- The rows of the frame-header space (R63, R70 (b)), in the table's order; HDR_FC's field h is bits 2:0. -/
def headerRows : List Row :=
  [ ⟨"HDR_FC", .frameHeader, 0x00, 0xF8, fun b => .hdrFC (b.extractLsb' 0 3)⟩,
    ⟨"HDR_FR", .frameHeader, 0xFF, 0xFF, fun _ => .hdrFR⟩,
    ⟨"HDR_RESERVED_08_0F", .frameHeader, 0x08, 0xF8, .hdrReserved08_0F⟩,
    ⟨"HDR_RESERVED_10_1F", .frameHeader, 0x10, 0xF0, .hdrReserved10_1F⟩,
    ⟨"HDR_RESERVED_20_3F", .frameHeader, 0x20, 0xE0, .hdrReserved20_3F⟩,
    ⟨"HDR_RESERVED_40_7F", .frameHeader, 0x40, 0xC0, .hdrReserved40_7F⟩,
    ⟨"HDR_RESERVED_80_BF", .frameHeader, 0x80, 0xC0, .hdrReserved80_BF⟩,
    ⟨"HDR_RESERVED_C0_DF", .frameHeader, 0xC0, 0xE0, .hdrReservedC0_DF⟩,
    ⟨"HDR_RESERVED_E0_EF", .frameHeader, 0xE0, 0xF0, .hdrReservedE0_EF⟩,
    ⟨"HDR_RESERVED_F0_F7", .frameHeader, 0xF0, 0xF8, .hdrReservedF0_F7⟩,
    ⟨"HDR_RESERVED_F8_FB", .frameHeader, 0xF8, 0xFC, .hdrReservedF8_FB⟩,
    ⟨"HDR_RESERVED_FC_FD", .frameHeader, 0xFC, 0xFE, .hdrReservedFC_FD⟩,
    ⟨"HDR_RESERVED_FE_FE", .frameHeader, 0xFE, 0xFF, fun _ => .hdrReservedFE_FE⟩ ]

/-- The rows of one space. -/
def rowsOf : Space → List Row
  | .cmd => commandRows
  | .frameHeader => headerRows

/-- The instruction whose row of the space the byte hits; `none` where it hits no row (no byte does that: every one of
the 256 values hits exactly one row of each space, 30_encoding.md section 5). -/
def decodeByte (sp : Space) (b : Byte) : Option Instr :=
  ((rowsOf sp).find? fun r => r.hit b).map fun r => r.make b

/-- Why no instruction can be read. -/
inductive DecodeError where
  /-- There is no byte to read. -/
  | noByte
  /-- The byte hits no row of the space; no byte does. -/
  | noRow
deriving DecidableEq, Repr

/-- The decoder: an instruction is one byte (R60, R63); the rest of the bytes is given back. -/
def decodeBytes (sp : Space) : List Byte → Except DecodeError (Instr × List Byte)
  | [] => .error .noByte
  | b :: rest =>
    match decodeByte sp b with
    | some i => .ok (i, rest)
    | none => .error .noRow

/-- The byte of an instruction: its row's fixed bits with its operand in the free bits. -/
def encodeByte : Instr → Byte
  | .nop => 0x00
  | .build => 0x01
  | .encode => 0x02
  | .decode => 0x03
  | .illegal04_07 c => c
  | .illegal08_0F c => c
  | .illegal10_1F c => c
  | .illegal20_3F c => c
  | .illegal40_7F c => c
  | .illegal80_FF c => c
  | .hdrFC h => h.zeroExtend 8
  | .hdrFR => 0xFF
  | .hdrReserved08_0F b => b
  | .hdrReserved10_1F b => b
  | .hdrReserved20_3F b => b
  | .hdrReserved40_7F b => b
  | .hdrReserved80_BF b => b
  | .hdrReservedC0_DF b => b
  | .hdrReservedE0_EF b => b
  | .hdrReservedF0_F7 b => b
  | .hdrReservedF8_FB b => b
  | .hdrReservedFC_FD b => b
  | .hdrReservedFE_FE => 0xFE

/-- The bytes of a well-formed instruction: one byte for every row. -/
def encode (i : Instr) : List Byte := [encodeByte i]

/-- The instruction the decoder reads from an instruction whose bits are w. Every row is one byte wide. A command byte
and a header byte of the same value cannot be told apart by (nbits, w): the byte is read as a COMMAND, the one kind
of byte by which the host starts the block (R60; DESIGN CHOICE, log entry 9). -/
def decodeTableWord (nbits w : Nat) : Option Instr :=
  if nbits = 8 ∧ w < 256 then decodeByte .cmd (BitVec.ofNat 8 w) else none

end Sys2Proof
end

