-- ==== Sys2Proof/Machine/State.lean ====
section
/-! DEFINITION. The state of HUFCODEC, the reasons for which a step can stop, the host's moves, and the state after reset.
No instruction ends in a fault or a refusal: an error of a command is a completion with a code in STATUS (R156).
The faults and refusals below belong to moves of the host that the spec says a model faults or refuses. -/

namespace Sys2Proof.Machine

/-- A byte-addressed or table space of R40, for the fault that names an index outside it. -/
inductive IndexSpace where
  | ibuf
  | obuf
  | freq
  | node
  | code
deriving DecidableEq, Repr

/-- Why the machine stops with a fault. -/
inductive Fault where
  /-- A host access to an index outside its space (R49: it addresses nothing). Raised by the host's moves. Safe: the model
  stops where the spec gives the host no such move. -/
  | noLocation (space : IndexSpace) (index : Nat)
  /-- A host read of a location whose value is unspecified (R143, R178, U1 to U3). Raised by the host's moves. Safe: the
  model gives no value where the spec gives none. R143 and R178 allow a fault or a refusal; a fault is the model's pick (DESIGN
  CHOICE, log entry 11). -/
  | unspecifiedRead
  /-- BUSY = 1 while no command is in progress. Raised by the step, in states that no run reaches only. Safe. -/
  | noCommand
  /-- A command byte that hits no row of the opcode table. Raised by the step; no byte does that. Safe. -/
  | noRow (e : DecodeError)
deriving DecidableEq, Repr

/-- Why the machine refuses to go on. -/
inductive Refusal where
  /-- An instruction without a meaning. No arm of exec raises it: every instruction has its meaning. Safe. -/
  | notModelled (mnemonic : String)
  /-- The host does something other than read STATUS or reset while BUSY = 1 (R183, U5: a model refuses such a host). Raised
  by the step. Safe. -/
  | busyHazard
  /-- The host writes a number of more than LENW bits to ILEN (R141 gives the host no such move). Raised by the step. Safe. -/
  | noSuchMove
deriving DecidableEq, Repr

/-- A location that the host can read and whose writes are ignored (R29, R142). -/
inductive ReadOnlyLoc where
  | status
  | olen
  | root
  | obuf (a : Nat)
  | freq (s : Nat)
  | node (n : Nat)
  | code (s : Nat)
deriving DecidableEq, Repr

/-- A location of the host's read move (R143). -/
inductive Loc where
  | ro (l : ReadOnlyLoc)
  | ilen
  | ibuf (a : Nat)
  | cmd
deriving DecidableEq, Repr

/-- What a read gives the host (R143): the width follows the location. -/
inductive ReadValue where
  /-- STATUS. -/
  | status (v : BitVec 16)
  /-- CMD, which reads as 0 (R12). -/
  | cmd (v : Byte)
  /-- ILEN or OLEN. -/
  | length (n : Nat)
  /-- ROOT. -/
  | root (n : NodeIdx)
  /-- A byte of IBUF or OBUF. -/
  | byte (v : Byte)
  /-- An entry of FREQ. -/
  | weight (w : Weight)
  /-- An entry of NODE: its valid fields (U4). -/
  | node (e : NodeEntry)
  /-- An entry of CODE: its LEN bits (U4). -/
  | code (b : Bits)
deriving DecidableEq, Repr

/-- The host's moves: the complete list of section 4 of 43_nop_and_host.md (R140 to R144). -/
inductive HostMove where
  /-- HostWrite(IBUF, a, v) (R140). -/
  | writeIbuf (a : Nat) (v : Byte)
  /-- HostWrite(ILEN, n) (R141). -/
  | writeIlen (n : Nat)
  /-- HostWrite(CMD, c) (R142). -/
  | writeCmd (c : Byte)
  /-- A host write to a location that is read-only to the host: ignored (R142). -/
  | writeReadOnly (l : ReadOnlyLoc)
  /-- HostRead(r) (R143). -/
  | read (l : Loc)
  /-- HostReset (R144). -/
  | reset
deriving DecidableEq, Repr

/-- One line of a host script (R72), with the one pseudo-line whose expansion depends on what is read (R73). -/
inductive Action where
  /-- A move of the host. -/
  | act (m : HostMove)
  /-- WAIT: read STATUS repeatedly until DONE = 1 (R72). -/
  | wait
  /-- COPYBACK: copy OBUF[0..OLEN-1] to IBUF and OLEN to ILEN (R73). -/
  | copyback
deriving DecidableEq, Repr

/-- PHASE (R27): IDLE, or the command that the engine executes. R27's BUILDING, ENCODING and DECODING are `running` with
the command bytes 0x01, 0x02 and 0x03; keeping the byte serves NOP and the illegal commands too (DESIGN CHOICE, log entry 8). -/
inductive Phase where
  | idle
  | running (c : Byte)
deriving DecidableEq, Repr

/-- The state of the machine. -/
structure State where
  /-- The configuration (R2). NOT state of the block: carried here so that a step can read it; nothing writes it (R176). -/
  cfg : Config
  /-- STATUS, 16 bits (R13). -/
  status : BitVec 16
  /-- ILEN, LENW bits (R18). -/
  ilen : Nat
  /-- OLEN, LENW bits (R19). -/
  olen : Nat
  /-- IBUF (R20): the bytes the host has written since reset, addresses strictly rising. -/
  ibuf : List Host.Cell
  /-- OBUF (R21): the bytes whose value is specified, addresses strictly rising. -/
  obuf : List Host.Cell
  /-- NODE (R23). -/
  node : Arena
  /-- ROOT (R24). -/
  root : NodeIdx
  /-- CODE (R25). -/
  code : CodeTable
  /-- PHASE (R27). -/
  phase : Phase
  /-- SLOT and the working registers (R26, R27): unspecified between commands. -/
  work : Work
  /-- The model's own: what the host is still going to do, in order (R72). The environment, not the block. -/
  agenda : List Action
  /-- The model's own: what the host's last read returned (R143). The environment, not the block. -/
  rdata : Option ReadValue
  /-- The model's own: the number of resets, the key of the free values of reset (R178). -/
  epoch : Nat
  /-- The model's own: the number of completed commands, the key of the free values of `work` (U10). -/
  draws : Nat
deriving DecidableEq, Repr

/-- The state after a reset that is the `epoch`-th (R175): STATUS, ILEN and OLEN are 0, PHASE is IDLE, no byte of IBUF or OBUF
has a specified value, and NODE, ROOT, CODE and the working registers hold free values (R178). -/
def State.afterReset (cfg : Config) (epoch : Nat) : State where
  cfg := cfg
  status := 0
  ilen := 0
  olen := 0
  ibuf := []
  obuf := []
  node := Config.freeArena epoch
  root := Config.freeRoot epoch
  code := Config.freeCode epoch
  phase := .idle
  work := Config.freeWorkReset epoch
  agenda := []
  rdata := none
  epoch := epoch
  draws := 0

/-- The machine right after power-on reset (R175, R177), with an arbitrary well-formed configuration and a host that does
nothing. -/
def State.reset : State := State.afterReset Config.chip 0

end Sys2Proof.Machine
end

