-- ==== Sys2Proof/Machine/Flags.lean ====
section
/-! DEFINITION. STATUS (R13 to R17): the codes of ERR and SUB, the word built from its fields, and its fields read back. -/

namespace Sys2Proof.Machine

/-- The error codes that a command can complete with (R16, R150). -/
inductive ErrCode where
  | ok
  | codecError
  | notBuilt
  | illegalCmd
  | lenRange
  | overflow
deriving DecidableEq, Repr

/-- The value of STATUS.ERR for an error code (R16). -/
def ErrCode.code : ErrCode → BitVec 4
  | .ok => 0
  | .codecError => 1
  | .notBuilt => 2
  | .illegalCmd => 3
  | .lenRange => 4
  | .overflow => 5

/-- The sub-causes of CODEC_ERROR (R17). -/
inductive SubCode where
  | none
  | emptyInput
  | badHeader
  | noPayload
  | incompletePath
deriving DecidableEq, Repr

/-- The value of STATUS.SUB for a sub-cause (R17). -/
def SubCode.code : SubCode → BitVec 4
  | .none => 0
  | .emptyInput => 1
  | .badHeader => 2
  | .noPayload => 3
  | .incompletePath => 4

/-- R13: STATUS from its fields, bits 15:12 and bit 3 reserved and 0. -/
def statusWord (busy done built : Bool) (err sub : BitVec 4) : BitVec 16 :=
  0#4 ++ sub ++ err ++ 0#1 ++ BitVec.ofBool built ++ BitVec.ofBool done ++ BitVec.ofBool busy

/-- STATUS.BUSY, bit 0 (R13, R14). -/
def State.busy (s : State) : Bool := s.status.getLsbD 0

/-- STATUS.DONE, bit 1 (R13, R14). -/
def State.done (s : State) : Bool := s.status.getLsbD 1

/-- STATUS.BUILT, bit 2 (R13, R15). -/
def State.built (s : State) : Bool := s.status.getLsbD 2

/-- STATUS.ERR, bits 7:4 (R13, R16). -/
def State.err (s : State) : BitVec 4 := s.status.extractLsb' 4 4

/-- STATUS.SUB, bits 11:8 (R13, R17). -/
def State.sub (s : State) : BitVec 4 := s.status.extractLsb' 8 4

/-- R14, the start of a command: BUSY becomes 1, DONE becomes 0, every other bit stays as it was. -/
def startedStatus (v : BitVec 16) : BitVec 16 := (v &&& 0xFFFD) ||| 0x0001

end Sys2Proof.Machine
end

