-- ==== Sys2Proof/Machine/Ops.lean ====
section
/-! DEFINITION. The named operations on state that the meanings share: byte memory, the start and the completion of a
command, error entry, and reset. -/

namespace Sys2Proof

/-! Byte memory: a list of (index, byte) pairs with strictly rising indices. An index that is not listed has no specified
value (R178, R21); what the reader makes of that is the reader's (`State.inputByte`, `readLoc`). -/

/-- The byte listed at index a. -/
def Memory.read : List Host.Cell → Nat → Option Byte
  | [], _ => none
  | (k, v) :: rest, a => if k = a then some v else Memory.read rest a

/-- R45: the write of byte v at index a. -/
def Memory.write : List Host.Cell → Nat → Byte → List Host.Cell
  | [], a, v => [(a, v)]
  | (k, w) :: rest, a, v =>
    if a < k then (a, v) :: (k, w) :: rest
    else if a = k then (a, v) :: rest
    else (k, w) :: Memory.write rest a v

/-- The bytes of a sequence at indices base, base + 1, ... (R42). -/
def Memory.ofBytes (base : Nat) : List Byte → List Host.Cell
  | [] => []
  | b :: rest => (base, b) :: Memory.ofBytes (base + 1) rest

/-- The canonical form: the indices rise strictly, and every one of them is at least `low` and below `cap`. -/
def Memory.wfFrom (cap : Nat) : (low : Nat) → List Host.Cell → Bool
  | _, [] => true
  | low, (k, _) :: rest => low ≤ k && k < cap && Memory.wfFrom cap (k + 1) rest

/-- The canonical form of a memory of `cap` bytes: strictly rising indices below `cap`. -/
def Memory.wf (cap : Nat) (m : List Host.Cell) : Bool := Memory.wfFrom cap 0 m

end Sys2Proof

namespace Sys2Proof.Machine

/-- R14, R135: the one indivisible update that completes a command: BUSY becomes 0, DONE 1, and BUILT, ERR, SUB and OLEN the
command's. The engine is then idle (R11) and its working registers are unspecified again (R26, R27). -/
def State.complete (s : State) (built : Bool) (err : ErrCode) (sub : SubCode) (olen : Nat) : State :=
  { s with
    status := statusWord false true built err.code sub.code
    olen := olen
    phase := .idle
    work := Config.freeWork s.draws
    draws := s.draws + 1 }

/-- R156, `raise Err(code, sub)`, error entry: the command completes at once with the code in STATUS and OLEN = 0; BUILT stays.
No state is saved and control goes nowhere. There is no return from it, because nothing was entered (R158). -/
def State.raise (s : State) (err : ErrCode) (sub : SubCode) : State := s.complete s.built err sub 0

/-- R156, R127: an error found after the command had begun to write OBUF: no byte of OBUF has a specified value any more. -/
def State.raiseWriting (s : State) (err : ErrCode) (sub : SubCode) : State :=
  { s.raise err sub with obuf := [] }

/-- R19, R21: a command that succeeds with the output `out`: OBUF[0..OLEN-1] hold it and the bytes beyond have no specified
value. -/
def State.succeed (s : State) (out : List Byte) : State :=
  { s.complete s.built .ok .none out.length with obuf := Memory.ofBytes 0 out }

/-- R135: the start of command c, in one indivisible step: BUSY becomes 1, DONE 0, and PHASE says which command runs. -/
def State.start (s : State) (c : Byte) : State :=
  { s with status := startedStatus s.status, phase := .running c }

/-- R144, R175: the host's reset, legal at any time. The configuration stays (R176); the host's own plans and what it has read
are the host's and stay too. -/
def State.hostReset (s : State) : State :=
  { State.afterReset s.cfg (s.epoch + 1) with agenda := s.agenda, rdata := s.rdata, draws := s.draws }

end Sys2Proof.Machine
end

