-- ==== Sys2Proof/Machine/Operands.lean ====
section
/-! DEFINITION. The operands of the commands. Commands have no explicit operands (R61): ENCODE and DECODE read ILEN and
IBUF[0..ILEN-1]. Beside them the bit order inside a byte (R41) and the classes of header bytes (R63). -/

namespace Sys2Proof

/-- The number whose bits, least significant first, are the string. -/
def bitsToNat : Bits → Nat
  | [] => 0
  | b :: rest => b.toNat + 2 * bitsToNat rest

/-- R41: `lsb8(b)`, the byte whose bit position k holds stream bit k. -/
def lsb8 (b : Bits) : Byte := BitVec.ofNat 8 (bitsToNat b)

/-- R41: `bits8(v)`, the eight bits of a byte in stream order: stream bit k is bit position k. -/
def bits8 (v : Byte) : Bits := (List.range 8).map fun k => v.getLsbD k

/-- R64, R122: the bit stream of a payload, byte after byte. -/
def stream (payload : List Byte) : Bits := payload.flatMap bits8

/-- R63: the three kinds of header byte. -/
inductive HeaderKind where
  /-- 0x00..0x07: a compressed frame with h padding bits. -/
  | compressed (h : BitVec 3)
  /-- 0x08..0xFE. -/
  | reserved
  /-- 0xFF: a raw frame. -/
  | raw
deriving DecidableEq, Repr

/-- R115, R118 to R120: which kind a header byte is, in the order in which DECODE tests it. -/
def headerKind (h : Byte) : HeaderKind :=
  if h = 0xFF then .raw else if 7 < h then .reserved else .compressed (h.extractLsb' 0 3)

end Sys2Proof

namespace Sys2Proof.Machine

/-- The byte the engine reads at IBUF[a]: the one the host wrote, or, where the host has written none since reset, the free
value that the location holds (R20, R178, U1: any value; DESIGN CHOICE, log entry 6). -/
def State.inputByte (s : State) (a : Nat) : Byte := (Memory.read s.ibuf a).getD (Config.freeIbuf s.epoch a)

/-- R100, R115: the input of ENCODE and DECODE, IBUF[0..ILEN). -/
def State.input (s : State) : List Byte := (List.range s.ilen).map s.inputByte

/-- R118: the payload of a frame, its bytes after the header: f[1..N). -/
def State.payload (s : State) : List Byte := s.input.drop 1

/-- The output a completed command leaves for the host: OBUF[0..OLEN-1], each byte if it has a specified value (R19, R21). -/
def State.output (s : State) : List (Option Byte) := (List.range s.olen).map (Memory.read s.obuf)

/-- R101, R116: the checks that ENCODE and DECODE make first, in this order: BUILT, then ILEN against MAX_IN. `run` is what the
command does when both pass. -/
def checkData (s : State) (run : State → State) : State :=
  if s.built = false then s.raise .notBuilt .none
  else if s.cfg.maxIn < s.ilen then s.raise .lenRange .none
  else run s

/-- R116, R117: the checks of DECODE before it reads the header byte: those of `checkData`, then that the input is not empty. -/
def checkFrame (s : State) (run : State → State) : State :=
  checkData s fun s => if s.ilen = 0 then s.raise .codecError .emptyInput else run s

end Sys2Proof.Machine
end

