-- ==== Sys2Proof/Machine/Build.lean ====
section
/-! DEFINITION. The tree builder (40_build.md): the selection of two slots, the merge, 255 merges, the code table, and the
command BUILD. -/

namespace Sys2Proof

/-- The slots in the order of SCAN_ORDER (R2, R83). -/
def ScanOrder.slots : ScanOrder → List SlotIdx
  | .ascending => List.finRange 256

/-- The builder at work: the arena and the hidden registers SLOT, MCNT, K1, K2 (R26, R27). -/
structure Builder where
  node : Arena
  slot : Slots
  mcnt : Nat
  k1   : SlotIdx
  k2   : SlotIdx
deriving DecidableEq, Repr

/-- W(j) = NODE[SLOT[j]].W of a live slot (R83); `none` for an EMPTY one. -/
def slotWeight (node : Arena) (slot : Slots) (j : SlotIdx) : Option Weight :=
  (slot[j]).map fun n => (node[n]).weight

/-- Slot j becomes the best so far when it is live, not excluded, and either the first such slot or strictly lighter than
the best so far (R80, `select_lowest`). -/
def betterSlot (F : WFmt) (node : Arena) (slot : Slots) (excl best : Option SlotIdx) (j : SlotIdx) : Option SlotIdx :=
  if excl = some j then best
  else match slotWeight node slot j, best.bind (slotWeight node slot) with
    | none, _ => best
    | some _, none => some j
    | some w, some v => if F.wlt w v then some j else best

/-- R83, R84: `select_lowest(exclude)`: the slot of least weight among the live slots other than the excluded one, the first
scanned of those that tie. -/
def selectLowest (p : Params) (node : Arena) (slot : Slots) (excl : Option SlotIdx) : Option SlotIdx :=
  p.scanOrder.slots.foldl (betterSlot p.fmt node slot excl) none

/-- R81: initialisation. NODE[s] becomes the leaf of symbol s and SLOT[s] holds it, for every symbol; the other arena entries
are left as they are. -/
def Builder.init (p : Params) (node : Arena) : Builder where
  node := Vector.ofFn fun n =>
    if h : n.val < 256 then .leaf (BitVec.ofNat 8 n.val) (p.freq[n.val]) else node[n]
  slot := Vector.ofFn fun s => some ⟨s.val, by omega⟩
  mcnt := 0
  k1 := 0
  k2 := 0

/-- R89: the arena index of the node that merge m creates, 256 + m (m is below 255). -/
def mergedIdx (m : Nat) : NodeIdx := ⟨(256 + m) % 511, Nat.mod_lt _ (by decide)⟩

/-- R86: the merged node of n1 (the lowest) and n2 (the second lowest): the child reached by bit K1_BIT is n1, and the weight
is wadd of the two weights in this order. -/
def mergedNode (p : Params) (node : Arena) (n1 n2 : NodeIdx) : NodeEntry :=
  let w := p.fmt.wadd (node[n1]).weight (node[n2]).weight
  if p.k1Bit then .internal n2 n1 w else .internal n1 n2 w

/-- R87: the slot update: the slot of MERGE_SLOT receives the merged node and the other becomes EMPTY. -/
def mergedSlots (p : Params) (slot : Slots) (k1 k2 : SlotIdx) (new : NodeIdx) : Slots :=
  match p.mergeSlot with
  | .k1 => (slot.set k1 (some new)).set k2 none
  | .k2 => (slot.set k2 (some new)).set k1 none

/-- R82 to R89: one merge. Both selections succeed whenever two slots are live, which R82 says of every merge; otherwise nothing
changes (DEDUCED, log entry 13). -/
def Builder.merge (p : Params) (b : Builder) : Builder :=
  match selectLowest p b.node b.slot none with
  | none => b
  | some k1 =>
    match selectLowest p b.node b.slot (some k1) with
    | none => b
    | some k2 =>
      match b.slot[k1], b.slot[k2] with
      | some n1, some n2 =>
        let new := mergedIdx b.mcnt
        { node := b.node.set new (mergedNode p b.node n1 n2)
          slot := mergedSlots p b.slot k1 k2 new
          mcnt := b.mcnt + 1
          k1 := k1
          k2 := k2 }
      | _, _ => b

/-- R82: n merges, each on the slots as the previous one left them. -/
def Builder.merges (p : Params) : Nat → Builder → Builder
  | 0, b => b
  | n + 1, b => Builder.merges p n (b.merge p)

/-- R91: one traversal from node n: every leaf below it with the edge bits of the path down to it. `fuel` bounds the depth. -/
def traverse (node : Arena) : (fuel : Nat) → NodeIdx → List (Byte × Bits)
  | 0, _ => []
  | fuel + 1, n =>
    match node[n] with
    | .leaf s _ => [(s, [])]
    | .internal c0 c1 _ =>
      (traverse node fuel c0).map (fun e => (e.1, false :: e.2)) ++
        (traverse node fuel c1).map (fun e => (e.1, true :: e.2))

/-- R91: the code table: CODE[s] is the path from the root to the leaf of s. -/
def codeTable (node : Arena) (root : NodeIdx) : CodeTable :=
  let paths := traverse node 511 root
  Vector.ofFn fun s => (paths.lookup (BitVec.ofNat 8 s.val)).getD []

/-- What BUILD leaves: NODE, ROOT and CODE. -/
structure Tables where
  node : Arena
  root : NodeIdx
  code : CodeTable
deriving DecidableEq, Repr

/-- The root's index, 510 (R89). -/
def rootIdx : NodeIdx := 510

/-- R80: initialise, 255 merges, ROOT, CODE. The arena that BUILD starts from is an argument; R95 says that it does not matter. Irreducible, so
that no proof unfolds 255 merges by accident (`unfold buildTables` opens it). -/
@[irreducible] def buildTables (p : Params) (node : Arena) : Tables :=
  let b := Builder.merges p 255 (Builder.init p node)
  { node := b.node, root := rootIdx, code := codeTable b.node rootIdx }

/-- R91: `descend(n, path)`: the node reached from n by the edge bits of a path; `none` where the path goes on below a leaf. -/
def descend (node : Arena) : NodeIdx → Bits → Option NodeIdx
  | n, [] => some n
  | n, c :: rest =>
    match node[n] with
    | .leaf _ _ => none
    | .internal c0 c1 _ => descend node (if c then c1 else c0) rest

end Sys2Proof

namespace Sys2Proof.Machine

/-- R92: the completion of BUILD with its tables: one indivisible update with BUILT = 1, ERR = OK, SUB = 0, OLEN = 0. -/
def State.completeBuild (s : State) (t : Tables) : State :=
  { s.complete true .ok .none 0 with node := t.node, root := t.root, code := t.code }

/-- BUILD (R80): legal whatever BUILT is; it reads FREQ, and neither ILEN nor IBUF nor OBUF. -/
def execBuild (s : State) : Host.Outcome State Fault Refusal :=
  .next (s.completeBuild (buildTables s.cfg.toParams s.node))

end Sys2Proof.Machine
end

