-- ==== Sys2Proof/Machine/Decoder.lean ====
section
/-! DEFINITION. The decoder (42_decode.md): unpacking, the walk of the tree, and the command DECODE. -/

namespace Sys2Proof

/-- R123: the child of node n on bit c. A leaf has no valid C0 or C1: the value is then unspecified (R23, U4). No walk asks
for it where the tree is BUILD's, since a walk returns to the root at each leaf (DEDUCED, log entry 13). -/
def childOf (node : Arena) (n : NodeIdx) (c : Bool) : NodeIdx :=
  match node[n] with
  | .internal c0 c1 _ => if c then c1 else c0
  | .leaf _ _ => Config.freeChild n c

/-- Why a walk fails. -/
inductive WalkError where
  /-- A leaf is reached when MAX_OUT bytes have been emitted (R126). -/
  | overflow
  /-- The bits end inside a code word (R125). -/
  | incompletePath
deriving DecidableEq, Repr

/-- R123 to R126: the walk from node np, `opos` bytes having been emitted: each bit moves to a child; a leaf emits its symbol and
returns to the root; the bits must end at the root. -/
def walk (node : Arena) (root : NodeIdx) (maxOut : Nat) : NodeIdx → Nat → Bits → Except WalkError (List Byte)
  | np, _, [] => if np = root then .ok [] else .error .incompletePath
  | np, opos, c :: rest =>
    let n := childOf node np c
    match node[n] with
    | .internal _ _ _ => walk node root maxOut n opos rest
    | .leaf s _ =>
      if maxOut ≤ opos then .error .overflow
      else match walk node root maxOut root (opos + 1) rest with
        | .ok out => .ok (s :: out)
        | .error e => .error e

/-- R122: the retained bits of a payload: its stream without the last h bits. -/
def retained (h : BitVec 3) (payload : List Byte) : Bits := (stream payload).take (8 * payload.length - h.toNat)

end Sys2Proof

namespace Sys2Proof.Machine

/-- R125, R126: how a walk's end completes DECODE. A failed walk had begun to write OBUF (R127; DEDUCED, log entry 7). -/
def State.finishWalk (s : State) : Except WalkError (List Byte) → State
  | .ok out => s.succeed out
  | .error .overflow => s.raiseWriting .overflow .none
  | .error .incompletePath => s.raiseWriting .codecError .incompletePath

/-- R119 to R126: what DECODE does once it has read a header byte of this kind. -/
def decodeBody (k : HeaderKind) (s : State) : State :=
  match k with
  | .raw => s.succeed s.payload
  | .reserved => s.raise .codecError .badHeader
  | .compressed h =>
    if s.payload = [] then s.raise .codecError .noPayload
    else s.finishWalk (walk s.node s.root s.cfg.maxOut s.root 0 (retained h s.payload))

/-- DECODE (R115): the checks of R116 and R117, then the header byte IBUF[0] (R118) and what its kind asks for. -/
def execDecode (s : State) : Host.Outcome State Fault Refusal :=
  .next (checkFrame s fun s => decodeBody (headerKind (s.inputByte 0)) s)

end Sys2Proof.Machine
end

