-- ==== Sys2Proof/Machine/Encode.lean ====
section
/-! DEFINITION. The encoder (41_encode.md): the code bits, packing, the choice of frame, and the command ENCODE. -/

namespace Sys2Proof

/-- R102: the code bits B, the code words of the input bytes in input order with nothing between them. -/
def codeBits (code : CodeTable) (x : List Byte) : Bits := x.flatMap fun b => code[symIdx b]

/-- R103: the number of padding bits for L code bits. -/
def padBits (l : Nat) : Nat := (8 - l % 8) % 8

/-- R103: the number of packed bytes P for L code bits. -/
def packedLen (l : Nat) : Nat := (l + padBits l) / 8

/-- R106: the padded string, every padding bit 0. -/
def paddedBits (b : Bits) : Bits := b ++ List.replicate (padBits b.length) false

/-- R104: the packed bytes: byte q holds the bits 8q to 8q + 7 of the padded string, the first in bit position 0. -/
def packBits (b : Bits) : List Byte :=
  (List.range (packedLen b.length)).map fun q => lsb8 (((paddedBits b).drop (8 * q)).take 8)

/-- The header byte of a raw frame (R65). -/
def sentinel : Byte := 0xFF

/-- R107: the frame is raw exactly when P >= N. R105: the raw frame. R108: the compressed frame. -/
def encodeFrame (code : CodeTable) (x : List Byte) : List Byte :=
  let b := codeBits code x
  if x.length ≤ packedLen b.length then sentinel :: x
  else BitVec.ofNat 8 (padBits b.length) :: packBits b

end Sys2Proof

namespace Sys2Proof.Machine

/-- R102 to R108: what ENCODE does when its checks pass: one frame in OBUF, ERR = OK. -/
def encodeBody (s : State) : State := s.succeed (encodeFrame s.code s.input)

/-- ENCODE (R100): the checks of R101, then the frame of IBUF[0..ILEN). -/
def execEncode (s : State) : Host.Outcome State Fault Refusal := .next (checkData s encodeBody)

end Sys2Proof.Machine
end

