-- ==== Sys2Proof/Machine/Header.lean ====
section
/-! DEFINITION. The frame headers (R63): the meaning of a header row is what DECODE does with a frame whose header byte is of
that row (R64 by R121 to R126, R65 by R119, the reserved rows by R120), the checks that come before the header included
(R157). DECODE itself reads the byte and goes the same way (DESIGN CHOICE, log entry 9). -/

namespace Sys2Proof.Machine

/-- HDR_FC (R64): DECODE of a compressed frame with h padding bits. -/
def execHdrFC (h : BitVec 3) (s : State) : Host.Outcome State Fault Refusal :=
  .next (checkFrame s (decodeBody (.compressed h)))

/-- HDR_FR (R65): DECODE of a raw frame. -/
def execHdrFR (s : State) : Host.Outcome State Fault Refusal := .next (checkFrame s (decodeBody .raw))

/-- R120: DECODE of a frame with a reserved header byte, whichever it is. -/
def reservedHeader (_b : Byte) (s : State) : State := checkFrame s (decodeBody .reserved)

/-- HDR_RESERVED_08_0F (R120). -/
def execHdrReserved08_0F (b : Byte) (s : State) : Host.Outcome State Fault Refusal := .next (reservedHeader b s)

/-- HDR_RESERVED_10_1F (R120). -/
def execHdrReserved10_1F (b : Byte) (s : State) : Host.Outcome State Fault Refusal := .next (reservedHeader b s)

/-- HDR_RESERVED_20_3F (R120). -/
def execHdrReserved20_3F (b : Byte) (s : State) : Host.Outcome State Fault Refusal := .next (reservedHeader b s)

/-- HDR_RESERVED_40_7F (R120). -/
def execHdrReserved40_7F (b : Byte) (s : State) : Host.Outcome State Fault Refusal := .next (reservedHeader b s)

/-- HDR_RESERVED_80_BF (R120). -/
def execHdrReserved80_BF (b : Byte) (s : State) : Host.Outcome State Fault Refusal := .next (reservedHeader b s)

/-- HDR_RESERVED_C0_DF (R120). -/
def execHdrReservedC0_DF (b : Byte) (s : State) : Host.Outcome State Fault Refusal := .next (reservedHeader b s)

/-- HDR_RESERVED_E0_EF (R120). -/
def execHdrReservedE0_EF (b : Byte) (s : State) : Host.Outcome State Fault Refusal := .next (reservedHeader b s)

/-- HDR_RESERVED_F0_F7 (R120). -/
def execHdrReservedF0_F7 (b : Byte) (s : State) : Host.Outcome State Fault Refusal := .next (reservedHeader b s)

/-- HDR_RESERVED_F8_FB (R120). -/
def execHdrReservedF8_FB (b : Byte) (s : State) : Host.Outcome State Fault Refusal := .next (reservedHeader b s)

/-- HDR_RESERVED_FC_FD (R120). -/
def execHdrReservedFC_FD (b : Byte) (s : State) : Host.Outcome State Fault Refusal := .next (reservedHeader b s)

/-- HDR_RESERVED_FE_FE (R120). -/
def execHdrReservedFE_FE (s : State) : Host.Outcome State Fault Refusal := .next (reservedHeader 0xFE s)

end Sys2Proof.Machine
end

