-- ==== Sys2Proof/Machine/Nop.lean ====
section
/-! DEFINITION. NOP (R136) and the illegal commands (R137), one meaning for each row of the table. -/

namespace Sys2Proof.Machine

/-- NOP (R136): reads nothing; completes with ERR = OK, SUB = 0, OLEN = 0; BUILT unchanged. -/
def execNop (s : State) : Host.Outcome State Fault Refusal := .next (s.complete s.built .ok .none 0)

/-- R137, R153: what every illegal command does: it is reported with ERR = ILLEGAL_CMD and has no other effect. The offending
byte is not recorded. -/
def illegalCommand (_c : Byte) (s : State) : State := s.raise .illegalCmd .none

/-- ILLEGAL_04_07 (R137). -/
def execIllegal04_07 (c : Byte) (s : State) : Host.Outcome State Fault Refusal := .next (illegalCommand c s)

/-- ILLEGAL_08_0F (R137). -/
def execIllegal08_0F (c : Byte) (s : State) : Host.Outcome State Fault Refusal := .next (illegalCommand c s)

/-- ILLEGAL_10_1F (R137). -/
def execIllegal10_1F (c : Byte) (s : State) : Host.Outcome State Fault Refusal := .next (illegalCommand c s)

/-- ILLEGAL_20_3F (R137). -/
def execIllegal20_3F (c : Byte) (s : State) : Host.Outcome State Fault Refusal := .next (illegalCommand c s)

/-- ILLEGAL_40_7F (R137). -/
def execIllegal40_7F (c : Byte) (s : State) : Host.Outcome State Fault Refusal := .next (illegalCommand c s)

/-- ILLEGAL_80_FF (R137). -/
def execIllegal80_FF (c : Byte) (s : State) : Host.Outcome State Fault Refusal := .next (illegalCommand c s)

end Sys2Proof.Machine
end

