-- ==== Sys2Proof/Machine/Dispatch.lean ====
section
/-! DEFINITION. The meaning of every instruction, one arm per row of spec/opcode_table.json. -/

namespace Sys2Proof.Machine

def exec (i : Instr) (s : State) : Host.Outcome State Fault Refusal :=
  match i with
  | .nop => Sys2Proof.Machine.execNop s
  | .build => Sys2Proof.Machine.execBuild s
  | .encode => Sys2Proof.Machine.execEncode s
  | .decode => Sys2Proof.Machine.execDecode s
  | .illegal04_07 c => Sys2Proof.Machine.execIllegal04_07 c s
  | .illegal08_0F c => Sys2Proof.Machine.execIllegal08_0F c s
  | .illegal10_1F c => Sys2Proof.Machine.execIllegal10_1F c s
  | .illegal20_3F c => Sys2Proof.Machine.execIllegal20_3F c s
  | .illegal40_7F c => Sys2Proof.Machine.execIllegal40_7F c s
  | .illegal80_FF c => Sys2Proof.Machine.execIllegal80_FF c s
  | .hdrFC h => Sys2Proof.Machine.execHdrFC h s
  | .hdrFR => Sys2Proof.Machine.execHdrFR s
  | .hdrReserved08_0F b => Sys2Proof.Machine.execHdrReserved08_0F b s
  | .hdrReserved10_1F b => Sys2Proof.Machine.execHdrReserved10_1F b s
  | .hdrReserved20_3F b => Sys2Proof.Machine.execHdrReserved20_3F b s
  | .hdrReserved40_7F b => Sys2Proof.Machine.execHdrReserved40_7F b s
  | .hdrReserved80_BF b => Sys2Proof.Machine.execHdrReserved80_BF b s
  | .hdrReservedC0_DF b => Sys2Proof.Machine.execHdrReservedC0_DF b s
  | .hdrReservedE0_EF b => Sys2Proof.Machine.execHdrReservedE0_EF b s
  | .hdrReservedF0_F7 b => Sys2Proof.Machine.execHdrReservedF0_F7 b s
  | .hdrReservedF8_FB b => Sys2Proof.Machine.execHdrReservedF8_FB b s
  | .hdrReservedFC_FD b => Sys2Proof.Machine.execHdrReservedFC_FD b s
  | .hdrReservedFE_FE => Sys2Proof.Machine.execHdrReservedFE_FE s

end Sys2Proof.Machine
end

