-- ==== Sys2Proof/Machine/HostMoves.lean ====
section
/-! DEFINITION. The host's moves (43_nop_and_host.md section 4) and its scripts (R72, R73). What the
spec leaves to the model about a move that it gives the host no right to is DESIGN CHOICE, log entry 11. -/

namespace Sys2Proof.Machine

/-- The read of a byte whose value may be unspecified (R143). -/
def readByte : Option Byte → Except Fault ReadValue
  | some v => .ok (.byte v)
  | none => .error .unspecifiedRead

/-- R143: the value of a location that is read-only to the host. A location outside its space is no location (R49); one whose
value is unspecified is not read (U2: OBUF at or beyond OLEN; U3: NODE, ROOT and CODE while BUILT = 0). -/
def State.readReadOnly (s : State) : ReadOnlyLoc → Except Fault ReadValue
  | .status => .ok (.status s.status)
  | .olen => .ok (.length s.olen)
  | .root => if s.built then .ok (.root s.root) else .error .unspecifiedRead
  | .obuf a =>
    if s.cfg.maxOut ≤ a then .error (.noLocation .obuf a)
    else if s.olen ≤ a then .error .unspecifiedRead
    else readByte (Memory.read s.obuf a)
  | .freq i => if h : i < 256 then .ok (.weight (s.cfg.freq[i])) else .error (.noLocation .freq i)
  | .node n =>
    if h : n < 511 then (if s.built then .ok (.node (s.node[n])) else .error .unspecifiedRead)
    else .error (.noLocation .node n)
  | .code i =>
    if h : i < 256 then (if s.built then .ok (.code (s.code[i])) else .error .unspecifiedRead)
    else .error (.noLocation .code i)

/-- R143: the value of a location; CMD reads as 0 (R12). -/
def State.readLoc (s : State) : Loc → Except Fault ReadValue
  | .ro l => s.readReadOnly l
  | .ilen => .ok (.length s.ilen)
  | .ibuf a => if s.cfg.maxIn ≤ a then .error (.noLocation .ibuf a) else readByte (Memory.read s.ibuf a)
  | .cmd => .ok (.cmd 0)

/-- HostRead (R143): the value goes to the host and the block does not change. -/
def hostRead (l : Loc) (s : State) : Host.Outcome State Fault Refusal :=
  match s.readLoc l with
  | .ok v => .next { s with rdata := some v }
  | .error f => .fault f

/-- The index of a read-only location, where it lies outside its space (R49). -/
def State.outside (s : State) : ReadOnlyLoc → Option Fault
  | .status | .olen | .root => none
  | .obuf a => if a < s.cfg.maxOut then none else some (.noLocation .obuf a)
  | .freq i => if i < 256 then none else some (.noLocation .freq i)
  | .node n => if n < 511 then none else some (.noLocation .node n)
  | .code i => if i < 256 then none else some (.noLocation .code i)

/-- A move of the host while BUSY = 0 (R140 to R144). -/
def idleMove (m : HostMove) (s : State) : Host.Outcome State Fault Refusal :=
  match m with
  | .writeIbuf a v =>
    if a < s.cfg.maxIn then .next { s with ibuf := Memory.write s.ibuf a v } else .fault (.noLocation .ibuf a)
  | .writeIlen n => if n < 2 ^ s.cfg.lenW then .next { s with ilen := n } else .refused .noSuchMove
  | .writeCmd c => .next (s.start c)
  | .writeReadOnly l =>
    match s.outside l with
    | none => .next s
    | some f => .fault f
  | .read l => hostRead l s
  | .reset => .next s.hostReset

/-- A move of the host while BUSY = 1 (R183): it may read STATUS and it may reset; every other move is a hazard. -/
def busyMove (m : HostMove) (s : State) : Host.Outcome State Fault Refusal :=
  match m with
  | .read (.ro .status) => hostRead (.ro .status) s
  | .reset => .next s.hostReset
  | .read _ => .refused .busyHazard
  | .writeIbuf _ _ => .refused .busyHazard
  | .writeIlen _ => .refused .busyHazard
  | .writeCmd _ => .refused .busyHazard
  | .writeReadOnly _ => .refused .busyHazard

/-- R73, COPYBACK of one byte: read OBUF[a], write the value read to IBUF[a]. -/
def copyByte (s : State) (a : Nat) : List Action :=
  .act (.read (.ro (.obuf a))) ::
    match Memory.read s.obuf a with
    | some v => [.act (.writeIbuf a v)]
    | none => []

/-- R73: the moves of COPYBACK in a state with BUSY = 0: every byte of OBUF[0..OLEN-1], then ILEN. -/
def copybackMoves (s : State) : List Action :=
  (List.range s.olen).flatMap (copyByte s) ++ [.act (.writeIlen s.olen)]

/-- The next line of the host's script while BUSY = 0. WAIT polls until DONE = 1 (R72): with no command started since reset it
polls for ever. -/
def idleAction (a : Action) (rest : List Action) (s : State) : Host.Outcome State Fault Refusal :=
  match a with
  | .act m => idleMove m { s with agenda := rest }
  | .wait => if s.done then .next { s with agenda := rest } else .next s
  | .copyback => .next { s with agenda := copybackMoves s ++ rest }

/-- The command in progress: the byte that PHASE keeps, read as a command (R60). -/
def fetchCommand (s : State) : Except Fault Instr :=
  match s.phase with
  | .idle => .error .noCommand
  | .running c =>
    match decodeBytes .cmd [c] with
    | .ok (i, _) => .ok i
    | .error e => .error (.noRow e)

/-! Scripts (R72, R73) as lists of actions. -/

/-- `WR IBUF[a] b0 b1 ...`. -/
def Script.wrIbuf : (a : Nat) → List Byte → List Action
  | _, [] => []
  | a, b :: rest => .act (.writeIbuf a b) :: Script.wrIbuf (a + 1) rest

/-- `RUN m`: the command byte, then WAIT. -/
def Script.run (i : Instr) : List Action := [.act (.writeCmd (encodeByte i)), .wait]

/-- `LOAD b0 b1 ...`. -/
def Script.load (x : List Byte) : List Action := Script.wrIbuf 0 x ++ [.act (.writeIlen x.length)]

/-- `ROUNDTRIP`: RUN ENCODE, COPYBACK, RUN DECODE. -/
def Script.roundtrip : List Action := Script.run .encode ++ .copyback :: Script.run .decode

/-- The state in which the moves of COPYBACK leave the block when none of them stops: OBUF[0..OLEN-1] is in IBUF and ILEN is
OLEN (R47, R73). -/
def State.copiedBack (s : State) : State :=
  { s with
    ibuf := (List.range s.olen).foldl (fun m a => Memory.write m a ((Memory.read s.obuf a).getD 0)) s.ibuf
    ilen := s.olen }

end Sys2Proof.Machine
end

