-- ==== Sys2Proof/Machine/Step.lean ====
section
/-! DEFINITION. One step of the block and its host (R135, R145). While BUSY = 0 the host makes its next move, or nothing
happens. While BUSY = 1 the host may read STATUS or reset (R183); when its script has no such move next (it polls, or has
nothing to do), the engine completes the command in progress: the interval between start and completion is finite and
otherwise unspecified (R145, R185), and the host's script says where in it the completion falls (DESIGN CHOICE, log entry 5). -/

namespace Sys2Proof.Machine

/-- The engine runs the command in progress to its completion (R135). -/
def runEngine (s : State) : Host.Outcome State Fault Refusal :=
  match fetchCommand s with
  | .ok i => exec i s
  | .error f => .fault f

/-- One step. -/
def step (s : State) : Host.Outcome State Fault Refusal :=
  if s.busy then
    match s.agenda with
    | .act m :: rest => busyMove m { s with agenda := rest }
    | .copyback :: _ => .refused .busyHazard
    | .wait :: _ => runEngine s
    | [] => runEngine s
  else
    match s.agenda with
    | [] => .next s
    | a :: rest => idleAction a rest s

/-- The state in which the command byte w has been started and the host waits for its completion: the very next step runs it
(R135; DESIGN CHOICE, log entry 10). A width other than one byte is no command (R60). -/
def State.withFetchWord (s : State) (nbits w : Nat) : State :=
  { s.start (BitVec.ofNat 8 (w % 2 ^ nbits)) with agenda := .wait :: s.agenda }

end Sys2Proof.Machine
end

