-- ==== Sys2Proof/Machine/Streaming.lean ====
section
/-! DEFINITION. The other forms of the engine's work that the spec says an implementation may use, over the working registers
that R27 names: the one-pass selection (R85), the streaming encoder with and without its early stop (R113), the streaming decoder (R131) and the
lazy-emission walk (R133). The commands do not call them; that they give the same results is stated of them (DEDUCED, log entry 1). -/

namespace Sys2Proof

/-! R85: one scan that finds both slots. -/

/-- w is lighter than the weight of the slot kept so far, or no slot is kept so far (R85). -/
def lighterThan (F : WFmt) (node : Arena) (slot : Slots) (w : Weight) (best : Option SlotIdx) : Bool :=
  match best.bind (slotWeight node slot) with
  | none => true
  | some v => F.wlt w v

/-- One slot of the one-pass scan: (a, b) are the lowest and the second lowest so far (R85). -/
def onePassStep (F : WFmt) (node : Arena) (slot : Slots) (ab : Option SlotIdx × Option SlotIdx) (j : SlotIdx) :
    Option SlotIdx × Option SlotIdx :=
  match slotWeight node slot j with
  | none => ab
  | some w =>
    if lighterThan F node slot w ab.1 then (some j, ab.1)
    else if lighterThan F node slot w ab.2 then (ab.1, some j)
    else ab

/-- R85: the one-pass selection of (k1, k2). -/
def onePass (p : Params) (node : Arena) (slot : Slots) : Option SlotIdx × Option SlotIdx :=
  p.scanOrder.slots.foldl (onePassStep p.fmt node slot) (none, none)

/-! R113: the streaming encoder. -/

/-- ACC, NACC, LCNT and the bytes packed so far (R27, R113). -/
structure Packer where
  acc    : Byte
  nacc   : Nat
  lcnt   : Nat
  packed : List Byte
deriving DecidableEq, Repr

/-- R113: one bit of a code word enters the accumulator; a full accumulator becomes the next packed byte. -/
def Packer.push (k : Packer) (c : Bool) : Packer :=
  let acc := if c then k.acc ||| (1#8 <<< k.nacc) else k.acc
  if k.nacc + 1 = 8 then { acc := 0, nacc := 0, lcnt := k.lcnt + 1, packed := k.packed ++ [acc] }
  else { acc := acc, nacc := k.nacc + 1, lcnt := k.lcnt + 1, packed := k.packed }

/-- R113: the end: a part-filled accumulator is the last packed byte. Gives the packed bytes and the padding count. -/
def Packer.finish (k : Packer) : List Byte × Nat :=
  if 0 < k.nacc then (k.packed ++ [k.acc], 8 - k.nacc) else (k.packed, 0)

/-- R113: the start of packing: nothing in the accumulator, no packed byte. -/
def Packer.start : Packer := { acc := 0, nacc := 0, lcnt := 0, packed := [] }

/-- R113: the streaming form of packing. -/
def streamPack (b : Bits) : List Byte × Nat := (b.foldl Packer.push Packer.start).finish

/-- R107, R108: the frame of x, given its packed bytes and padding count. -/
def frameOfPacked (x : List Byte) (r : List Byte × Nat) : List Byte :=
  if x.length ≤ r.1.length then sentinel :: x else BitVec.ofNat 8 r.2 :: r.1

/-- R113: the streaming form of the encoder. -/
def streamEncode (code : CodeTable) (x : List Byte) : List Byte := frameOfPacked x (streamPack (codeBits code x))

/-- R113: packing that stops as soon as the packed-byte count reaches n: `none` where it has stopped, with the bits from there
on not looked at. -/
def Packer.pushUntil (n : Nat) : Packer → Bits → Option Packer
  | k, [] => if n ≤ k.packed.length then none else some k
  | k, c :: rest => if n ≤ k.packed.length then none else Packer.pushUntil n (k.push c) rest

/-- R113: the streaming form of the encoder that stops packing as soon as the packed-byte count reaches N: P >= N is then
certain, and the frame is the raw one. -/
def streamEncodeEarly (code : CodeTable) (x : List Byte) : List Byte :=
  match Packer.start.pushUntil x.length (codeBits code x) with
  | none => sentinel :: x
  | some k => frameOfPacked x k.finish

/-! R131: the streaming decoder. -/

/-- NP, OPOS and the bytes emitted so far (R27, R131). -/
structure Walker where
  np   : NodeIdx
  opos : Nat
  out  : List Byte
deriving DecidableEq, Repr

/-- R123, R124, R126: one bit of the walk. -/
def Walker.bit (node : Arena) (root : NodeIdx) (maxOut : Nat) (k : Walker) (c : Bool) : Except WalkError Walker :=
  let n := childOf node k.np c
  match node[n] with
  | .internal _ _ _ => .ok { k with np := n }
  | .leaf s _ =>
    if maxOut ≤ k.opos then .error .overflow
    else .ok { np := root, opos := k.opos + 1, out := k.out ++ [s] }

/-- The bits of one payload byte, in ascending bit positions (R131). -/
def Walker.bits (node : Arena) (root : NodeIdx) (maxOut : Nat) : Walker → Bits → Except WalkError Walker
  | k, [] => .ok k
  | k, c :: rest =>
    match k.bit node root maxOut c with
    | .ok k' => Walker.bits node root maxOut k' rest
    | .error e => .error e

/-- R131: the payload bytes in ascending order, stopping after bit position 7 - h of the last one. -/
def Walker.bytes (node : Arena) (root : NodeIdx) (maxOut : Nat) (h : BitVec 3) : Walker → List Byte → Except WalkError Walker
  | k, [] => .ok k
  | k, v :: rest =>
    match k.bits node root maxOut ((bits8 v).take (if rest = [] then 8 - h.toNat else 8)) with
    | .ok k' => Walker.bytes node root maxOut h k' rest
    | .error e => .error e

/-- R131: the streaming form of the walk over a payload. -/
def streamWalk (node : Arena) (root : NodeIdx) (maxOut : Nat) (h : BitVec 3) (payload : List Byte) :
    Except WalkError (List Byte) :=
  match Walker.bytes node root maxOut h { np := root, opos := 0, out := [] } payload with
  | .ok k => if k.np = root then .ok k.out else .error .incompletePath
  | .error e => .error e

/-! R133: the lazy-emission walk. -/

/-- R133: a leaf is noticed only when the next bit arrives; the last one after the loop. -/
def lazyWalk (node : Arena) (root : NodeIdx) : NodeIdx → Bits → Except WalkError (List Byte)
  | np, [] =>
    match node[np] with
    | .leaf s _ => .ok [s]
    | .internal _ _ _ => .error .incompletePath
  | np, c :: rest =>
    match node[np] with
    | .internal _ _ _ => lazyWalk node root (childOf node np c) rest
    | .leaf s _ =>
      match lazyWalk node root (childOf node root c) rest with
      | .ok out => .ok (s :: out)
      | .error e => .error e

end Sys2Proof
end

