-- ==== Sys2Proof/Safety.lean ====
section
/-! DEFINITION. What a good state and a good step are, in the terms that statements use: the tree of R28, the invariant of the
machine, what a command leaves alone, and which moves of the host the step accepts. -/

namespace Sys2Proof

/-- The children named by an arena entry (R28 (c)). -/
def NodeEntry.children : NodeEntry → List NodeIdx
  | .leaf _ _ => []
  | .internal c0 c1 _ => [c0, c1]

/-- All C0 and C1 fields of an arena (R28 (c)). -/
def childList (node : Arena) : List NodeIdx := node.toList.flatMap NodeEntry.children

/-- How many slots are live, that is not EMPTY (R82). -/
def liveCount (slot : Slots) : Nat := slot.toList.countP Option.isSome

/-- R83, R84: k is live, not the excluded slot, and among the live slots that are not excluded its node has the least weight;
of those that tie it has the lowest index. -/
structure LowestSlot (F : WFmt) (node : Arena) (slot : Slots) (excl : Option SlotIdx) (k : SlotIdx) : Prop where
  live : (slot[k]).isSome = true
  allowed : excl ≠ some k
  least : ∀ (j : SlotIdx) (v w : Weight), j ≠ k → excl ≠ some j → slotWeight node slot j = some w →
    slotWeight node slot k = some v → F.wlt v w = true ∨ (F.wlt w v = false ∧ k < j)

/-- R83 to R87, R89: b' is what merge m makes of b: some two live slots k1 and k2 are the lowest and the second lowest; entry 256 + m
becomes their merged node and every other entry stays; slot MERGE_SLOT of the two receives 256 + m, the other becomes EMPTY, and
every other slot stays; MCNT, K1 and K2 follow. -/
structure MergeOk (p : Params) (m : Nat) (b b' : Builder) : Prop where
  merge : ∃ (k1 k2 : SlotIdx) (n1 n2 new : NodeIdx),
    LowestSlot p.fmt b.node b.slot none k1 ∧ LowestSlot p.fmt b.node b.slot (some k1) k2 ∧
    b.slot[k1] = some n1 ∧ b.slot[k2] = some n2 ∧ new.val = 256 + m ∧
    b'.node[new] = (if p.k1Bit = true then
        .internal n2 n1 (p.fmt.wadd (b.node[n1]).weight (b.node[n2]).weight)
      else .internal n1 n2 (p.fmt.wadd (b.node[n1]).weight (b.node[n2]).weight)) ∧
    (∀ n : NodeIdx, n ≠ new → b'.node[n] = b.node[n]) ∧
    (p.mergeSlot = .k1 → b'.slot[k1] = some new ∧ b'.slot[k2] = none) ∧
    (p.mergeSlot = .k2 → b'.slot[k2] = some new ∧ b'.slot[k1] = none) ∧
    (∀ j : SlotIdx, j ≠ k1 → j ≠ k2 → b'.slot[j] = b.slot[j]) ∧
    b'.mcnt = m + 1 ∧ b'.k1 = k1 ∧ b'.k2 = k2

/-- The instructions of the illegal rows that carry the byte c (R137). -/
def illegalRows (c : Byte) : List Instr :=
  [.illegal04_07 c, .illegal08_0F c, .illegal10_1F c, .illegal20_3F c, .illegal40_7F c, .illegal80_FF c]

/-- The instructions of the reserved-header rows that carry the byte b (R120). -/
def reservedRows (b : Byte) : List Instr :=
  [.hdrReserved08_0F b, .hdrReserved10_1F b, .hdrReserved20_3F b, .hdrReserved40_7F b, .hdrReserved80_BF b,
    .hdrReservedC0_DF b, .hdrReservedE0_EF b, .hdrReservedF0_F7 b, .hdrReservedF8_FB b, .hdrReservedFC_FD b,
    .hdrReservedFE_FE]

/-- Each symbol of x is read back from its code word: the path from the root ends at a leaf of the symbol (R91, R123). The tables
that BUILD leaves do this for every symbol (R28 (e)). -/
def ReadsBack (t : Tables) (x : List Byte) : Prop :=
  ∀ s ∈ x, t.code[symIdx s] ≠ [] ∧ ∃ n w, descend t.node t.root t.code[symIdx s] = some n ∧ t.node[n] = .leaf s w

/-- The code table is free of code words that begin another code word (R93). -/
def CodeTable.NoneBeginsAnother (code : CodeTable) : Prop :=
  ∀ i j : SlotIdx, i ≠ j → ¬ code[i] <+: code[j]

/-- The first n bits of an infinite bit sequence (R93). -/
def firstBits (f : Nat → Bool) (n : Nat) : Bits := (List.range n).map f

/-- R28: the tables hold the one binary tree of the configuration, and its code table. -/
structure Tables.TreeOk (p : Params) (t : Tables) : Prop where
  /-- (a) -/
  leaves : ∀ s : Byte, t.node[leafIdx s] = .leaf s p.freq[symIdx s]
  /-- (b), with the weight and the children's order of R86. -/
  internals : ∀ n : NodeIdx, 256 ≤ n.val →
    ∃ n1 n2 : NodeIdx, n1.val < n.val ∧ n2.val < n.val ∧ n1 ≠ n2 ∧ t.node[n] = mergedNode p t.node n1 n2
  /-- (c) -/
  once : ∀ n : NodeIdx, (childList t.node).count n = if n = rootIdx then 0 else 1
  /-- (d) -/
  root : t.root = rootIdx
  /-- (e), with the path's uniqueness. -/
  codes : ∀ (s : Byte) (b : Bits), descend t.node rootIdx b = some (leafIdx s) ↔ b = t.code[symIdx s]

end Sys2Proof

namespace Sys2Proof.Machine

/-- NODE, ROOT and CODE of a state. -/
def State.tables (s : State) : Tables := { node := s.node, root := s.root, code := s.code }

/-- R13, R14, R16, R17: the reserved bits read 0, BUSY and DONE are not both 1, ERR is a code that is produced, and SUB is 1 to 4
with CODEC_ERROR and 0 otherwise. -/
structure State.StatusOk (s : State) : Prop where
  reserved3 : s.status.getLsbD 3 = false
  reserved15 : s.status.extractLsb' 12 4 = 0
  busyDone : (s.busy && s.done) = false
  err : s.err.toNat ≤ 5
  sub : s.sub.toNat ≤ 4
  subErr : s.sub = 0 ↔ s.err ≠ 1

/-- The invariant of the machine: every step keeps it, and it holds after reset. -/
structure State.Inv (s : State) : Prop where
  /-- STATUS is legal. -/
  status : s.StatusOk
  /-- R11: the engine is idle exactly when BUSY = 0. -/
  phase : s.busy = true ↔ s.phase ≠ .idle
  /-- R18: ILEN has LENW bits. -/
  ilen : s.ilen < 2 ^ s.cfg.lenW
  /-- R21: the valid output lies in OBUF. -/
  olen : s.olen ≤ s.cfg.maxOut
  /-- R20: IBUF has MAX_IN bytes; its list is in canonical form. -/
  ibuf : Memory.wf s.cfg.maxIn s.ibuf = true
  /-- R21: OBUF has MAX_OUT bytes; its list is in canonical form. -/
  obuf : Memory.wf s.cfg.maxOut s.obuf = true
  /-- R19, R21: OBUF[0..OLEN-1] have specified values. -/
  output : ∀ a, a < s.olen → (Memory.read s.obuf a).isSome = true
  /-- R15: while BUILT = 1 the tables are those of the configured FREQ. -/
  tables : s.built = true → ∃ arena, s.tables = buildTables s.cfg.toParams arena

/-- R20, R18, R29: what no command changes: the configuration, ILEN, every byte of IBUF; and the model's own record of the host. -/
structure SameInput (s t : State) : Prop where
  cfg : t.cfg = s.cfg
  ilen : t.ilen = s.ilen
  ibuf : ∀ a, Memory.read t.ibuf a = Memory.read s.ibuf a
  epoch : t.epoch = s.epoch
  agenda : t.agenda = s.agenda
  rdata : t.rdata = s.rdata

/-- R29: what no command but BUILD changes: NODE, ROOT, CODE and STATUS.BUILT. -/
structure SameTables (s t : State) : Prop where
  node : t.node = s.node
  root : t.root = s.root
  code : t.code = s.code
  built : t.built = s.built

/-- Every byte of OBUF reads as before. -/
def SameObuf (s t : State) : Prop := ∀ a, Memory.read t.obuf a = Memory.read s.obuf a

/-- R14: t is a state in which a command has completed with these fields: BUSY = 0, DONE = 1, the reserved bits 0, PHASE IDLE. -/
structure Completed (t : State) (built : Bool) (err : ErrCode) (sub : SubCode) (olen : Nat) : Prop where
  status : t.status = statusWord false true built err.code sub.code
  olen : t.olen = olen
  phase : t.phase = .idle

/-- R183, R140 to R143: the step accepts the next line of the host's script in this state. -/
def State.accepts (s : State) : Action → Bool
  | .wait => true
  | .copyback => !s.busy
  | .act .reset => true
  | .act (.writeCmd _) => !s.busy
  | .act (.writeIbuf a _) => !s.busy && a < s.cfg.maxIn
  | .act (.writeIlen n) => !s.busy && n < 2 ^ s.cfg.lenW
  | .act (.writeReadOnly l) => !s.busy && (s.outside l).isNone
  | .act (.read (.ro .status)) => true
  | .act (.read l) => !s.busy && (s.readLoc l).isOk

/-- A safe state: the next step neither faults nor refuses. -/
def State.safe (s : State) : Prop := ∃ t, step s = .next t

end Sys2Proof.Machine
end

