-- ==== Sys2Proof/Certificates/Slice0/Obligations.lean ====
section
/-! DEFINITION. The statements for the provers. Each docstring names the rule of the spec that it formalises. -/

open Sys2Proof Sys2Proof.Machine

/-! ## Encodings -/

/-- R60, R63: decoding the byte of a well-formed instruction, in its space, gives the instruction back. -/
def Obligations.DecodeOfEncode : Prop :=
  ∀ (i : Instr) (rest : List Byte), i.wellFormed = true → decodeBytes i.space (encode i ++ rest) = .ok (i, rest)

/-- 30_encoding.md section 5: every byte of either space decodes to a well-formed instruction of that space, whose encoding is
the byte. -/
def Obligations.EncodeOfDecode : Prop :=
  ∀ (sp : Space) (b : Byte), ∃ i, decodeByte sp b = some i ∧ i.space = sp ∧ i.wellFormed = true ∧ encode i = [b]

/-- 30_encoding.md section 5: in each space every one of the 256 byte values matches exactly one row. -/
def Obligations.EveryByteHitsOneRow : Prop :=
  ∀ (sp : Space) (b : Byte), ((rowsOf sp).filter fun r => r.hit b).length = 1

/-- R60, R63: some bytes written out from the spec's encodings. -/
def Obligations.SpecBytesDecode : Prop :=
  decodeByte .cmd 0b00000000 = some .nop ∧ decodeByte .cmd 0b00000001 = some .build ∧
  decodeByte .cmd 0b00000010 = some .encode ∧ decodeByte .cmd 0b00000011 = some .decode ∧
  decodeByte .cmd 0b01111111 = some (.illegal40_7F 0x7F) ∧
  decodeByte .frameHeader 0b00000011 = some (.hdrFC 3) ∧ decodeByte .frameHeader 0b11111111 = some .hdrFR ∧
  decodeByte .frameHeader 0b11111110 = some .hdrReservedFE_FE

/-- R41: the bit order inside a byte, its two functions and the spec's example. -/
def Obligations.BitOrderInByte : Prop :=
  (∀ b0 b1 b2 b3 b4 b5 b6 b7 : Bool, (lsb8 [b0, b1, b2, b3, b4, b5, b6, b7]).toNat =
    b0.toNat * 1 + b1.toNat * 2 + b2.toNat * 4 + b3.toNat * 8 + b4.toNat * 16 + b5.toNat * 32 + b6.toNat * 64 +
      b7.toNat * 128) ∧
  (∀ (v : Byte) (k : Nat), k < 8 → (bits8 v)[k]? = some (v.getLsbD k)) ∧
  lsb8 [false, true, false, true, false, true, true, false] = 0x6A

/-! ## Running a command -/

/-- R135: while a command is in progress and the host makes no move, the step runs the instruction that its byte decodes to. -/
def Obligations.StepRunsStartedCommand : Prop :=
  ∀ (s : State) (c : Byte) (i : Instr), s.busy = true → s.phase = .running c →
    (s.agenda = [] ∨ ∃ rest, s.agenda = .wait :: rest) → decodeBytes .cmd [c] = .ok (i, []) → step s = exec i s

/-- The model's own (log entry 10): after `withFetchWord` the very next step runs the instruction of the table word. -/
def Obligations.StepRunsFetchWord : Prop :=
  ∀ (s : State) (w : Nat) (i : Instr), decodeTableWord 8 w = some i →
    step (s.withFetchWord 8 w) = exec i (s.withFetchWord 8 w)

/-- R14, R135: a write to CMD starts a command: BUSY becomes 1 and DONE 0, and nothing else that the host can read changes. That
PHASE keeps the command's byte, for NOP and the illegal commands too, is the model's choice (log entry 8). -/
def Obligations.WriteCmdStarts : Prop :=
  ∀ (s : State) (c : Byte) (rest : List Action), s.busy = false → s.agenda = .act (.writeCmd c) :: rest →
    ∃ t, step s = .next t ∧ t.busy = true ∧ t.done = false ∧ t.built = s.built ∧ t.err = s.err ∧ t.sub = s.sub ∧
      t.olen = s.olen ∧ t.phase = .running c ∧ SameTables s t ∧ SameObuf s t ∧
      SameInput { s with agenda := rest } t

/-- R135: the effect of a command is that on the state as it was at the start: the start itself does not show in the outcome. -/
def Obligations.EffectIsOnStartState : Prop :=
  ∀ (i : Instr) (s : State) (c : Byte), exec i (s.start c) = exec i s

/-- R145, R72: the host's lines CMD c and WAIT take the block from one BUSY = 0 state to the next, by the effect of the
command. That this takes three steps (the start, the completion at the first poll, the poll that sees DONE) is the model's
choice (log entry 5): the spec leaves the interval open. -/
def Obligations.CommandAndWait : Prop :=
  ∀ (s t : State) (c : Byte) (i : Instr) (rest : List Action), s.busy = false →
    s.agenda = .act (.writeCmd c) :: .wait :: rest → decodeByte .cmd c = some i → exec i s = .next t →
    Host.Core.run Sys2Proof.core 3 s = .next { t with agenda := rest }

/-- R150: every instruction completes, with exactly one error code; an error leaves OLEN = 0, and SUB says which CODEC_ERROR. -/
def Obligations.EveryCommandCompletes : Prop :=
  ∀ (i : Instr) (s : State), ∃ t built err sub olen, exec i s = .next t ∧ Completed t built err sub olen ∧
    (err ≠ .ok → olen = 0) ∧ (err = .codecError ↔ sub ≠ .none)

/-- R18, R20, R29: no command changes the configuration, ILEN or a byte of IBUF. -/
def Obligations.CommandsKeepInput : Prop :=
  ∀ (i : Instr) (s t : State), exec i s = .next t → SameInput s t

/-- R29: no command but BUILD changes NODE, ROOT, CODE or STATUS.BUILT. -/
def Obligations.OnlyBuildWritesTables : Prop :=
  ∀ (i : Instr) (s t : State), i ≠ .build → exec i s = .next t → SameTables s t

/-- R20: bytes of IBUF at and beyond ILEN have no effect on any result. -/
def Obligations.BytesBeyondIlenIgnored : Prop :=
  ∀ (i : Instr) (s t : State) (m : List Host.Cell),
    (∀ a, a < s.ilen → ({ s with ibuf := m } : State).inputByte a = s.inputByte a) →
    exec i s = .next t → exec i { s with ibuf := m } = .next { t with ibuf := m }

/-- R26, R27: no command's result depends on what the hidden working registers held before it. -/
def Obligations.WorkRegistersHaveNoEffect : Prop :=
  ∀ (i : Instr) (s : State) (w : Work), exec i { s with work := w } = exec i s

/-! ## NOP and the illegal commands -/

/-- R136: NOP completes with ERR = OK, SUB = 0 and OLEN = 0 and changes nothing else. -/
def Obligations.NopCompletes : Prop :=
  ∀ s : State, ∃ t, exec .nop s = .next t ∧ Completed t s.built .ok .none 0 ∧ SameInput s t ∧ SameTables s t ∧
    SameObuf s t

/-- R137: an illegal command byte, whichever of its rows it hits, completes with ERR = ILLEGAL_CMD and changes nothing else. -/
def Obligations.IllegalCommandCompletes : Prop :=
  ∀ (c : Byte) (s : State),
    (4 ≤ c → ∃ i ∈ illegalRows c, decodeByte .cmd c = some i) ∧
    ∀ i ∈ illegalRows c, ∃ t, exec i s = .next t ∧ Completed t s.built .illegalCmd .none 0 ∧ SameInput s t ∧
      SameTables s t ∧ SameObuf s t

/-! ## BUILD -/

/-- R80, R92: BUILD completes, with BUILT = 1, ERR = OK, SUB = 0, OLEN = 0 and its tables, and writes neither IBUF, ILEN nor OBUF. -/
def Obligations.BuildCompletes : Prop :=
  ∀ s : State, ∃ t, exec .build s = .next t ∧ Completed t true .ok .none 0 ∧
    t.tables = buildTables s.cfg.toParams s.node ∧ SameInput s t ∧ SameObuf s t

/-- R28: whenever BUILT = 1, in a state of the invariant, the tables are a binary tree over the configuration's weights as R28
says, and its code table. -/
def Obligations.BuiltTablesAreTheTree : Prop :=
  ∀ s : State, s.Inv → s.built = true → s.tables.TreeOk s.cfg.toParams

/-- R95: BUILD is a function of (FREQ, WFMT, SCAN_ORDER, MERGE_SLOT, K1_BIT) alone, and a second BUILD changes no value. -/
def Obligations.BuildIsDeterministic : Prop :=
  (∀ (p p' : Params) (a a' : Arena), p.freq = p'.freq → p.fmt = p'.fmt → p.scanOrder = p'.scanOrder →
    p.mergeSlot = p'.mergeSlot → p.k1Bit = p'.k1Bit → buildTables p a = buildTables p' a') ∧
  ∀ s t u : State, exec .build s = .next t → exec .build t = .next u → u.tables = t.tables

/-- R82 to R89: before merge m exactly 256 - m slots are live; merge m is a merge of the two slots that R83 and R84 select, as R86
and R87 say; after the last one, one slot is live and holds the root; and NODE after BUILD is the arena after the last one. -/
def Obligations.LiveSlotsAtMerge : Prop :=
  ∀ (p : Params) (a : Arena),
    (∀ m, m ≤ 255 → liveCount (Builder.merges p m (Builder.init p a)).slot = 256 - m) ∧
    (∀ m, m < 255 → MergeOk p m (Builder.merges p m (Builder.init p a)) (Builder.merges p (m + 1) (Builder.init p a))) ∧
    (∃ j : SlotIdx, (Builder.merges p 255 (Builder.init p a)).slot[j] = some rootIdx) ∧
    (buildTables p a).node = (Builder.merges p 255 (Builder.init p a)).node

/-- R83, R84: `select_lowest` selects the slot of least weight, the lowest index of those that tie; the second selection is never
lighter than the first, and where they tie it has the higher index. -/
def Obligations.SelectionIsLowestFirst : Prop :=
  ∀ (p : Params) (node : Arena) (slot : Slots),
    (∀ (excl : Option SlotIdx) (k : SlotIdx),
      selectLowest p node slot excl = some k ↔ LowestSlot p.fmt node slot excl k) ∧
    ∀ (k1 k2 : SlotIdx) (w1 w2 : Weight), selectLowest p node slot none = some k1 →
      selectLowest p node slot (some k1) = some k2 → slotWeight node slot k1 = some w1 →
      slotWeight node slot k2 = some w2 → p.fmt.wlt w2 w1 = false ∧ (p.fmt.wlt w1 w2 = false → k1 < k2)

/-- R85: the one-pass scan yields the same (k1, k2) as the two selections, for every slot contents. -/
def Obligations.OnePassScanAgrees : Prop :=
  ∀ (p : Params) (node : Arena) (slot : Slots),
    onePass p node slot =
      (selectLowest p node slot none,
        (selectLowest p node slot none).bind fun k1 => selectLowest p node slot (some k1))

/-- R93: the code words are pairwise different, none begins another, every infinite bit sequence begins with exactly one of them,
and the sum of 2^(-LEN) is 1 (here multiplied by 2^255). -/
def Obligations.CodeIsComplete : Prop :=
  ∀ (p : Params) (t : Tables), t.TreeOk p →
    t.code.NoneBeginsAnother ∧
    (∀ f : Nat → Bool, ∃! i : SlotIdx, t.code[i] = firstBits f (t.code[i]).length) ∧
    ((List.finRange 256).map fun i : SlotIdx => 2 ^ (255 - (t.code[i]).length)).sum = 2 ^ 255

/-- R94: every code length is 1 to 255. -/
def Obligations.CodeLengthBounds : Prop :=
  ∀ (p : Params) (t : Tables), t.TreeOk p → ∀ i : SlotIdx, 1 ≤ (t.code[i]).length ∧ (t.code[i]).length ≤ 255

/-! ## Weights -/

/-- R97: in every IEEE 754 binary format `wadd` is commutative, and +0 and -0 compare equal. -/
def Obligations.WeightSumCommutes : Prop :=
  ∀ F : BinFmt, (∀ a b : Weight, (WFmt.binary F).wadd a b = (WFmt.binary F).wadd b a) ∧
    (WFmt.binary F).wlt F.negZero 0 = false ∧ (WFmt.binary F).wlt 0 F.negZero = false

/-- R97: in every IEEE 754 binary format `wadd` is the correctly rounded sum: no finite number of the format is nearer to the exact sum, and where another one is
as near, the pattern of the result is even. -/
def Obligations.WeightSumIsNearest : Prop :=
  ∀ (F : BinFmt) (a b c : Weight), 2 ≤ F.expBits → 1 ≤ F.fracBits →
    F.admits a = true → F.admits b = true → F.finite (F.wadd a b) = true → F.finite c = true →
    Nat.dist (F.quanta (F.wadd a b)) (F.quanta a + F.quanta b) ≤ Nat.dist (F.quanta c) (F.quanta a + F.quanta b) ∧
    (Nat.dist (F.quanta (F.wadd a b)) (F.quanta a + F.quanta b) = Nat.dist (F.quanta c) (F.quanta a + F.quanta b) →
      F.quanta c ≠ F.quanta (F.wadd a b) → F.magnitude (F.wadd a b) % 2 = 0)

/-! ## ENCODE -/

/-- R101, R152, R154: ENCODE on a block that is not built, or with ILEN above MAX_IN, reports it and writes no byte of OBUF. -/
def Obligations.EncodeChecks : Prop :=
  ∀ s : State,
    (s.built = false → ∃ t, exec .encode s = .next t ∧ Completed t false .notBuilt .none 0 ∧ SameInput s t ∧
      SameTables s t ∧ SameObuf s t) ∧
    (s.built = true → s.cfg.maxIn < s.ilen → ∃ t, exec .encode s = .next t ∧ Completed t true .lenRange .none 0 ∧
      SameInput s t ∧ SameTables s t ∧ SameObuf s t)

/-- R105, R107: where P >= N the frame is 0xFF and then the input bytes, OLEN = N + 1. -/
def Obligations.EncodeRawFrame : Prop :=
  ∀ s : State, s.built = true → s.ilen ≤ s.cfg.maxIn →
    s.ilen ≤ ((codeBits s.code s.input).length + 7) / 8 →
    ∃ t, exec .encode s = .next t ∧ Completed t true .ok .none (s.ilen + 1) ∧ SameInput s t ∧ SameTables s t ∧
      Memory.read t.obuf 0 = some 0xFF ∧ ∀ i, i < s.ilen → Memory.read t.obuf (1 + i) = some (s.inputByte i)

/-- R103, R104, R106 to R108: where P < N the frame is the padding count and then the packed bytes: stream bit k stands at bit
position k mod 8 of packed byte k div 8, every padding bit is 0, OLEN = P + 1. -/
def Obligations.EncodeCompressedFrame : Prop :=
  ∀ (s : State) (P : Nat), s.built = true → s.ilen ≤ s.cfg.maxIn →
    P = ((codeBits s.code s.input).length + 7) / 8 → P < s.ilen →
    ∃ t, exec .encode s = .next t ∧ Completed t true .ok .none (P + 1) ∧ SameInput s t ∧ SameTables s t ∧
      Memory.read t.obuf 0 = some (BitVec.ofNat 8 (8 * P - (codeBits s.code s.input).length)) ∧
      8 * P - (codeBits s.code s.input).length ≤ 7 ∧
      ∀ k, k < 8 * P → ∃ v, Memory.read t.obuf (1 + k / 8) = some v ∧
        v.getLsbD (k % 8) = (codeBits s.code s.input).getD k false

/-- R110: ENCODE never overflows: 1 <= OLEN <= N + 1 <= MAX_OUT; and its header byte is never a reserved one (R70). -/
def Obligations.EncodeOutputSize : Prop :=
  ∀ s : State, s.built = true → s.ilen ≤ s.cfg.maxIn →
    ∃ t h, exec .encode s = .next t ∧ t.err = 0 ∧ 1 ≤ t.olen ∧ t.olen ≤ s.ilen + 1 ∧ s.ilen + 1 ≤ s.cfg.maxOut ∧
      Memory.read t.obuf 0 = some h ∧ headerKind h ≠ .reserved

/-- R113: the streaming encoder gives the same frame, whether it packs every bit or stops as soon as N bytes are packed. -/
def Obligations.StreamingEncoderAgrees : Prop :=
  ∀ (code : CodeTable) (x : List Byte),
    streamEncode code x = encodeFrame code x ∧ streamEncodeEarly code x = encodeFrame code x

/-! ## DECODE and the frame headers -/

/-- R157, R116, R117, R120, R121: DECODE reports the first error met in the fixed order of checks; when none is met it ends with
OK, OVERFLOW or INCOMPLETE_PATH. That such an error leaves OBUF as it was is R156 read over R127 (DEDUCED, log entry 7). -/
def Obligations.DecodeOrderOfChecks : Prop :=
  ∀ s : State, ∃ t, exec .decode s = .next t ∧ SameInput s t ∧ SameTables s t ∧
    (if s.built = false then Completed t false .notBuilt .none 0 ∧ SameObuf s t
    else if s.cfg.maxIn < s.ilen then Completed t true .lenRange .none 0 ∧ SameObuf s t
    else if s.ilen = 0 then Completed t true .codecError .emptyInput 0 ∧ SameObuf s t
    else if 8 ≤ s.inputByte 0 ∧ s.inputByte 0 ≤ 0xFE then Completed t true .codecError .badHeader 0 ∧ SameObuf s t
    else if s.inputByte 0 ≤ 7 ∧ s.ilen = 1 then Completed t true .codecError .noPayload 0 ∧ SameObuf s t
    else Completed t true .ok .none t.olen ∨ Completed t true .overflow .none 0 ∨
      Completed t true .codecError .incompletePath 0)

/-- R119: DECODE of a frame whose header is 0xFF gives the payload byte for byte. That the header row HDR_FR does the same is the
model's choice (log entry 9). -/
def Obligations.RawFrameDecodes : Prop :=
  ∀ s : State, s.built = true → 0 < s.ilen → s.ilen ≤ s.cfg.maxIn → s.inputByte 0 = 0xFF →
    ∃ t, exec .decode s = .next t ∧ exec .hdrFR s = .next t ∧ Completed t true .ok .none (s.ilen - 1) ∧ SameInput s t ∧
      SameTables s t ∧ ∀ i, i < s.ilen - 1 → Memory.read t.obuf i = some (s.inputByte (1 + i))

/-- R63, R118: DECODE does what the header row of its first byte does. What a header row does is the model's choice (log entry 9). -/
def Obligations.DecodeFollowsHeaderRow : Prop :=
  ∀ (s : State) (i : Instr), decodeByte .frameHeader (s.inputByte 0) = some i → exec .decode s = exec i s

/-- R120: a reserved header byte gives CODEC_ERROR with BAD_HEADER, whatever the payload. That the header's row stands for DECODE is
the model's choice (log entry 9); that OBUF stays is R156 read over R127 (DEDUCED, log entry 7). -/
def Obligations.ReservedHeaderCompletes : Prop :=
  ∀ (b : Byte) (s : State), s.built = true → 0 < s.ilen → s.ilen ≤ s.cfg.maxIn →
    (8 ≤ b → b ≤ 0xFE → ∃ i ∈ reservedRows b, decodeByte .frameHeader b = some i) ∧
    ∀ i ∈ reservedRows b, ∃ t, exec i s = .next t ∧ Completed t true .codecError .badHeader 0 ∧ SameInput s t ∧
      SameTables s t ∧ SameObuf s t

/-- R121: a compressed header with no payload byte gives CODEC_ERROR with NO_PAYLOAD. That the row HDR_FC stands for DECODE is the
model's choice (log entry 9); that OBUF stays is R156 read over R127 (DEDUCED, log entry 7). -/
def Obligations.HeaderWithoutPayload : Prop :=
  ∀ (h : BitVec 3) (s : State), s.built = true → s.ilen = 1 →
    ∃ t, exec (.hdrFC h) s = .next t ∧ Completed t true .codecError .noPayload 0 ∧ SameInput s t ∧ SameTables s t ∧
      SameObuf s t

/-- R28 (e): the tables of the tree read every symbol back from its code word. -/
def Obligations.TreeReadsBack : Prop :=
  ∀ (p : Params) (t : Tables) (x : List Byte), t.TreeOk p → ReadsBack t x

/-- R122 to R124: a compressed frame whose retained bits are the code words of x gives x, whenever the tables read the symbols of x
back. Here and below the row HDR_FC stands for DECODE of such a frame (the model's choice, log entry 9). -/
def Obligations.CompressedFrameDecodes : Prop :=
  ∀ (s : State) (h : BitVec 3) (x : List Byte), ReadsBack s.tables x → s.built = true → 2 ≤ s.ilen →
    s.ilen ≤ s.cfg.maxIn → x.length ≤ s.cfg.maxOut →
    (stream s.payload).take (8 * (s.ilen - 1) - h.toNat) = codeBits s.code x →
    ∃ t, exec (.hdrFC h) s = .next t ∧ Completed t true .ok .none x.length ∧ SameInput s t ∧ SameTables s t ∧
      t.output = x.map some

/-- R124, R125: where a compressed frame decodes without error, its retained bits are the code words of the output, at least one
(HDR_FC for DECODE: log entry 9). -/
def Obligations.CompressedFrameSound : Prop :=
  ∀ (s t : State) (h : BitVec 3), s.tables.TreeOk s.cfg.toParams → s.built = true → 2 ≤ s.ilen →
    s.ilen ≤ s.cfg.maxIn → exec (.hdrFC h) s = .next t → t.err = 0 →
    ∃ x : List Byte, 1 ≤ x.length ∧ t.olen = x.length ∧ t.output = x.map some ∧
      (stream s.payload).take (8 * (s.ilen - 1) - h.toNat) = codeBits s.code x

/-- R125: where the retained bits end inside a code word, DECODE completes with INCOMPLETE_PATH (HDR_FC for DECODE: log
entry 9). -/
def Obligations.IncompletePathReported : Prop :=
  ∀ (s : State) (h : BitVec 3) (x : List Byte) (r : Bits) (n : NodeIdx), ReadsBack s.tables x →
    s.built = true → 2 ≤ s.ilen → s.ilen ≤ s.cfg.maxIn → x.length ≤ s.cfg.maxOut →
    descend s.node s.root r = some n → (s.node[n]).isLeaf = false → n ≠ s.root →
    (stream s.payload).take (8 * (s.ilen - 1) - h.toNat) = codeBits s.code x ++ r →
    ∃ t, exec (.hdrFC h) s = .next t ∧ Completed t true .codecError .incompletePath 0 ∧ SameInput s t ∧ SameTables s t

/-- R126: a leaf reached when MAX_OUT symbols have been emitted gives OVERFLOW, whatever the bits after it (HDR_FC for DECODE:
the model's choice, log entry 9). -/
def Obligations.OverflowReported : Prop :=
  ∀ (s : State) (h : BitVec 3) (x : List Byte) (r : Bits), ReadsBack s.tables x → s.built = true → 2 ≤ s.ilen →
    s.ilen ≤ s.cfg.maxIn → x.length = s.cfg.maxOut + 1 →
    (stream s.payload).take (8 * (s.ilen - 1) - h.toNat) = codeBits s.code x ++ r →
    ∃ t, exec (.hdrFC h) s = .next t ∧ Completed t true .overflow .none 0 ∧ SameInput s t ∧ SameTables s t

/-- R122, R69: the last h bits of a compressed frame have no effect on the outcome. -/
def Obligations.PaddingBitsIgnored : Prop :=
  ∀ (s t : State) (m : List Host.Cell) (h : BitVec 3), headerKind (s.inputByte 0) = .compressed h →
    ({ s with ibuf := m } : State).inputByte 0 = s.inputByte 0 →
    (stream ({ s with ibuf := m } : State).payload).take (8 * (s.ilen - 1) - h.toNat) =
      (stream s.payload).take (8 * (s.ilen - 1) - h.toNat) →
    exec .decode s = .next t → exec .decode { s with ibuf := m } = .next { t with ibuf := m }

/-- R129: the size of the output of a compressed frame of T retained bits: ceil(T / 255) <= OLEN <= T (HDR_FC for
DECODE: log entry 9). -/
def Obligations.DecodedSizeBounds : Prop :=
  ∀ (s t : State) (h : BitVec 3), s.tables.TreeOk s.cfg.toParams → s.built = true → 2 ≤ s.ilen → s.ilen ≤ s.cfg.maxIn →
    exec (.hdrFC h) s = .next t → t.err = 0 →
    t.olen ≤ 8 * (s.ilen - 1) - h.toNat ∧ 8 * (s.ilen - 1) - h.toNat ≤ 255 * t.olen

/-- R133: the lazy-emission walk gives the same result, for every bit string that is not empty; on the empty one it fails. -/
def Obligations.LazyWalkAgrees : Prop :=
  ∀ (p : Params) (t : Tables) (maxOut : Nat) (b : Bits), t.TreeOk p → b.length ≤ maxOut →
    (b ≠ [] → lazyWalk t.node rootIdx rootIdx b = walk t.node rootIdx maxOut rootIdx 0 b) ∧
    lazyWalk t.node rootIdx rootIdx [] = .error .incompletePath

/-- R131: the streaming decoder gives the same result. -/
def Obligations.StreamingDecoderAgrees : Prop :=
  ∀ (node : Arena) (root : NodeIdx) (maxOut : Nat) (h : BitVec 3) (payload : List Byte), payload ≠ [] →
    streamWalk node root maxOut h payload = walk node root maxOut root 0 (retained h payload)

/-- R111: decoding the frame that ENCODE made, copied back to IBUF, gives the input, whenever the frame fits. -/
def Obligations.RoundTripGivesInput : Prop :=
  ∀ s t : State, s.tables.TreeOk s.cfg.toParams → s.built = true → s.ilen ≤ s.cfg.maxIn →
    exec .encode s = .next t → t.olen ≤ s.cfg.maxIn →
    ∃ u, exec .decode t.copiedBack = .next u ∧ Completed u true .ok .none s.ilen ∧ u.output = s.input.map some

/-! ## The machine and its host -/

/-- R175: the state after reset. -/
def Obligations.ResetValues : Prop :=
  State.reset.status = 0x0000 ∧ State.reset.ilen = 0 ∧ State.reset.olen = 0 ∧ State.reset.phase = .idle ∧
    (∀ a, Memory.read State.reset.ibuf a = none) ∧ ∀ a, Memory.read State.reset.obuf a = none

/-- The invariant holds after reset. -/
def Obligations.InvHoldsAtReset : Prop := State.reset.Inv

/-- The invariant is kept by every step, from every state in which it holds. -/
def Obligations.StepKeepsInv : Prop :=
  ∀ s t : State, s.Inv → step s = .next t → t.Inv

/-- R15: BUILT is cleared by nothing but reset. -/
def Obligations.OnlyResetClearsBuilt : Prop :=
  ∀ s t : State, step s = .next t → s.built = true → t.built = false → ∃ rest, s.agenda = .act .reset :: rest

/-- R144, R175, R176: the host can reset at any time, whatever the block was doing. -/
def Obligations.HostResetAtAnyTime : Prop :=
  ∀ (s : State) (rest : List Action), s.agenda = .act .reset :: rest →
    ∃ t, step s = .next t ∧ t.status = 0x0000 ∧ t.ilen = 0 ∧ t.olen = 0 ∧ t.phase = .idle ∧ t.cfg = s.cfg ∧
      t.agenda = rest ∧ (∀ a, Memory.read t.ibuf a = none) ∧ ∀ a, Memory.read t.obuf a = none

/-- R183, R140 to R143: in a state of the invariant the step goes on exactly when it accepts the next line of the host's script;
with no line left, the step changes nothing while BUSY = 0, and goes on while BUSY = 1. The script is the model's (log entry 5). -/
def Obligations.StepGoesOnWhenAccepted : Prop :=
  (∀ (s : State) (a : Action) (rest : List Action), s.Inv → s.agenda = a :: rest → (s.safe ↔ s.accepts a = true)) ∧
  (∀ s : State, s.busy = false → s.agenda = [] → step s = .next s) ∧
  ∀ s : State, s.Inv → s.agenda = [] → s.safe

/-- R183: while BUSY = 1 every move of the host other than a read of STATUS or a reset is refused. -/
def Obligations.BusyHazardRefused : Prop :=
  ∀ (s : State) (m : HostMove) (rest : List Action), s.busy = true → s.agenda = .act m :: rest → m ≠ .reset →
    m ≠ .read (.ro .status) → step s = .refused .busyHazard

/-- R140: a write to IBUF changes that byte and nothing else. -/
def Obligations.HostWritesIbuf : Prop :=
  ∀ (s : State) (a : Nat) (v : Byte) (rest : List Action), s.busy = false → s.agenda = .act (.writeIbuf a v) :: rest →
    a < s.cfg.maxIn →
    ∃ m, step s = .next { s with ibuf := m, agenda := rest } ∧
      ∀ b, Memory.read m b = if b = a then some v else Memory.read s.ibuf b

/-- R141: a write to ILEN changes ILEN and nothing else; LENW is the smallest width w with 2^w > MAX_OUT. -/
def Obligations.HostWritesIlen : Prop :=
  (∀ (s : State) (n : Nat) (rest : List Action), s.busy = false → s.agenda = .act (.writeIlen n) :: rest →
    n < 2 ^ s.cfg.lenW → step s = .next { s with ilen := n, agenda := rest }) ∧
  ∀ (c : Config) (w : Nat), c.lenW ≤ w ↔ c.maxOut < 2 ^ w

/-- R142: a write to a location that is read-only to the host is ignored. -/
def Obligations.ReadOnlyWritesIgnored : Prop :=
  ∀ (s : State) (l : ReadOnlyLoc) (rest : List Action), s.busy = false → s.agenda = .act (.writeReadOnly l) :: rest →
    s.outside l = none → step s = .next { s with agenda := rest }

/-- R143, R145, R12: what the host reads: STATUS in every state, BUSY = 1 included; and with BUSY = 0, in a state of the invariant,
every location whose value is specified. The block does not change; what was read is in the model's field rdata (log entry 11). -/
def Obligations.HostReadsValues : Prop :=
  (∀ (s : State) (rest : List Action), s.agenda = .act (.read (.ro .status)) :: rest →
    step s = .next { s with agenda := rest, rdata := some (.status s.status) }) ∧
  ∀ (s : State) (l : Loc) (v : ReadValue) (rest : List Action), s.Inv → s.busy = false → s.agenda = .act (.read l) :: rest →
    ((l = .ro .status ∧ v = .status s.status) ∨ (l = .ilen ∧ v = .length s.ilen) ∨ (l = .ro .olen ∧ v = .length s.olen) ∨
      (l = .cmd ∧ v = .cmd 0) ∨ (∃ i : SlotIdx, l = .ro (.freq i.val) ∧ v = .weight s.cfg.freq[i]) ∨
      (∃ a b, a < s.cfg.maxIn ∧ Memory.read s.ibuf a = some b ∧ l = .ibuf a ∧ v = .byte b) ∨
      (∃ a b, a < s.olen ∧ Memory.read s.obuf a = some b ∧ l = .ro (.obuf a) ∧ v = .byte b) ∨
      (s.built = true ∧ l = .ro .root ∧ v = .root s.root) ∨
      (s.built = true ∧ ∃ n : NodeIdx, l = .ro (.node n.val) ∧ v = .node s.node[n]) ∨
      (s.built = true ∧ ∃ i : SlotIdx, l = .ro (.code i.val) ∧ v = .code s.code[i])) →
    step s = .next { s with agenda := rest, rdata := some v }

/-- R143, R178, U1 to U3: a read of a location whose value is unspecified stops. The rules let a model fault or refuse it, and U1 to
U3 say refuse; that it is the fault `unspecifiedRead` is the model's choice (log entry 11). -/
def Obligations.UnspecifiedReadsFault : Prop :=
  ∀ (s : State) (l : Loc) (rest : List Action), s.busy = false → s.agenda = .act (.read l) :: rest →
    ((∃ a, a < s.cfg.maxIn ∧ Memory.read s.ibuf a = none ∧ l = .ibuf a) ∨
      (∃ a, s.olen ≤ a ∧ a < s.cfg.maxOut ∧ l = .ro (.obuf a)) ∨
      (s.built = false ∧ (l = .ro .root ∨ (∃ n, n < 511 ∧ l = .ro (.node n)) ∨ ∃ i, i < 256 ∧ l = .ro (.code i)))) →
    step s = .fault .unspecifiedRead

/-- R73, R47: the moves of COPYBACK leave the valid bytes of OBUF in IBUF and OLEN in ILEN. The moves of R73 are 2 * OLEN + 1; one
step more expands the line into them, which is the model's choice (log entry 5). -/
def Obligations.CopybackCopies : Prop :=
  ∀ (s : State) (rest : List Action), s.Inv → s.busy = false → s.agenda = .copyback :: rest → s.olen ≤ s.cfg.maxIn →
    ∃ r, Host.Core.run Sys2Proof.core (2 * s.olen + 2) s = .next { s.copiedBack with agenda := rest, rdata := r }
end

