-- ==== Sys2Proof/Laws/Build.lean ====
section
/-! SUPPORT. What the order of weights and one merge can do, said once. -/

namespace Sys2Proof

/-- R97, R3: in every number format `wlt` compares by one rank of the weights, so it is a strict total preorder. -/
theorem WFmt.wlt_rank (F : WFmt) : ∃ r : Weight → Rat, ∀ a b, F.wlt a b = decide (r a < r b) := by
  cases F with
  | binary B => exact ⟨fun w => (B.quanta w : Rat), fun a b => by simp [WFmt.wlt, BinFmt.wlt]⟩
  | other k => exact ⟨Config.otherNumber k, fun _ _ => rfl⟩

/-- No weight is below itself. -/
@[simp] theorem WFmt.wlt_self (F : WFmt) (a : Weight) : F.wlt a a = false := by
  obtain ⟨r, h⟩ := F.wlt_rank
  simp [h]

theorem WFmt.wlt_asymm {F : WFmt} {a b : Weight} (h : F.wlt a b = true) : F.wlt b a = false := by
  obtain ⟨r, hr⟩ := F.wlt_rank
  rw [hr, decide_eq_true_eq] at h
  rw [hr, decide_eq_false_iff_not]
  exact not_lt.mpr (le_of_lt h)

/-- What is not below b, and b not below c, is not below c. -/
theorem WFmt.wlt_negTrans {F : WFmt} {a b c : Weight} (h₁ : F.wlt a b = false) (h₂ : F.wlt b c = false) : F.wlt a c = false := by
  obtain ⟨r, hr⟩ := F.wlt_rank
  rw [hr, decide_eq_false_iff_not, not_lt] at h₁ h₂ ⊢
  exact h₂.trans h₁

/-- R82: the merges one at a time, the last one apart. -/
theorem Builder.merges_succ (p : Params) (n : Nat) (b : Builder) :
    Builder.merges p (n + 1) b = (Builder.merges p n b).merge p := by
  induction n generalizing b with
  | zero => rfl
  | succ n ih => rw [Builder.merges, ih]; rfl

/-- R83 to R87: what one merge can do: nothing, where a selection fails; else join the nodes of the two selected slots. -/
theorem Builder.merge_cases (p : Params) (b : Builder) :
    (selectLowest p b.node b.slot none = none ∧ b.merge p = b) ∨
    (∃ k1, selectLowest p b.node b.slot none = some k1 ∧ selectLowest p b.node b.slot (some k1) = none ∧ b.merge p = b) ∨
    (∃ k1 k2, selectLowest p b.node b.slot none = some k1 ∧ selectLowest p b.node b.slot (some k1) = some k2 ∧
      (b.slot[k1] = none ∨ b.slot[k2] = none) ∧ b.merge p = b) ∨
    (∃ k1 k2 n1 n2, selectLowest p b.node b.slot none = some k1 ∧ selectLowest p b.node b.slot (some k1) = some k2 ∧
      b.slot[k1] = some n1 ∧ b.slot[k2] = some n2 ∧
      b.merge p =
        { node := b.node.set (mergedIdx b.mcnt) (mergedNode p b.node n1 n2)
          slot := mergedSlots p b.slot k1 k2 (mergedIdx b.mcnt), mcnt := b.mcnt + 1, k1 := k1, k2 := k2 }) := by
  match h1 : selectLowest p b.node b.slot none with
  | none => exact .inl ⟨rfl, by simp [Builder.merge, h1]⟩
  | some k1 =>
    match h2 : selectLowest p b.node b.slot (some k1) with
    | none => exact .inr (.inl ⟨k1, rfl, h2, by simp [Builder.merge, h1, h2]⟩)
    | some k2 =>
      match hn1 : b.slot[k1], hn2 : b.slot[k2] with
      | none, _ => exact .inr (.inr (.inl ⟨k1, k2, rfl, h2, .inl hn1, by simp only [Builder.merge, h1, h2, hn1]⟩))
      | some _, none => exact .inr (.inr (.inl ⟨k1, k2, rfl, h2, .inr hn2, by simp only [Builder.merge, h1, h2, hn1, hn2]⟩))
      | some n1, some n2 =>
        exact .inr (.inr (.inr ⟨k1, k2, n1, n2, rfl, h2, hn1, hn2, by simp only [Builder.merge, h1, h2, hn1, hn2]⟩))

end Sys2Proof
end

