-- ==== Sys2Proof/Laws/Codec.lean ====
section
/-! SUPPORT. The small lemmas of the codec's functions on bytes, bit strings and walks. -/

namespace Sys2Proof

@[simp] theorem bits8_length (v : Byte) : (bits8 v).length = 8 := by simp [bits8]

/-- R41: stream bit k of a byte is its bit position k. -/
theorem bits8_getElem? (v : Byte) (k : Nat) (h : k < 8) : (bits8 v)[k]? = some (v.getLsbD k) := by
  simp [bits8, h]

theorem testBit_bitsToNat (b : Bits) (k : Nat) : (bitsToNat b).testBit k = b.getD k false := by
  induction b generalizing k with
  | nil => simp [bitsToNat]
  | cons c rest ih =>
    cases k with
    | zero => cases c <;> simp [bitsToNat, Nat.testBit_zero, Nat.add_mod]
    | succ n =>
      have h : (c.toNat + 2 * bitsToNat rest) / 2 = bitsToNat rest := by cases c <;> simp; omega
      simp [bitsToNat, Nat.testBit_succ, h, ih]

/-- R41: bit position k of `lsb8(b)` is stream bit k. -/
theorem lsb8_getLsbD (b : Bits) (k : Nat) (h : k < 8) : (lsb8 b).getLsbD k = b.getD k false := by
  rw [lsb8, BitVec.getLsbD_ofNat, testBit_bitsToNat, decide_eq_true h, Bool.true_and]

/-- R41: `bits8` is the inverse of `lsb8`. -/
@[simp] theorem bits8_lsb8 (b : Bits) (h : b.length = 8) : bits8 (lsb8 b) = b := by
  apply List.ext_getElem?
  intro k
  by_cases hk : k < 8
  · rw [bits8_getElem? _ _ hk, lsb8_getLsbD _ _ hk, List.getElem?_eq_getElem (by omega)]
    simp [List.getD, List.getElem?_eq_getElem (show k < b.length by omega)]
  · rw [List.getElem?_eq_none (by simp; omega), List.getElem?_eq_none (by omega)]

@[simp] theorem lsb8_bits8 (v : Byte) : lsb8 (bits8 v) = v := by
  apply BitVec.eq_of_getLsbD_eq
  intro k hk
  rw [lsb8_getLsbD _ _ hk]
  simp [List.getD, bits8_getElem? _ _ hk]

@[simp] theorem stream_nil : stream [] = [] := rfl

@[simp] theorem stream_cons (v : Byte) (rest : List Byte) : stream (v :: rest) = bits8 v ++ stream rest := rfl

/-- R64: the stream of M payload bytes has 8M bits. -/
@[simp] theorem stream_length (x : List Byte) : (stream x).length = 8 * x.length := by
  induction x with
  | nil => rfl
  | cons v rest ih => simp [ih]; omega

/-- R103: P packed bytes hold the L code bits and the padding exactly. -/
theorem packedLen_spec (l : Nat) : 8 * packedLen l = l + padBits l := by
  unfold packedLen padBits; omega

theorem padBits_lt (l : Nat) : padBits l < 8 := by unfold padBits; omega

@[simp] theorem packBits_length (b : Bits) : (packBits b).length = packedLen b.length := by simp [packBits]

@[simp] theorem paddedBits_length (b : Bits) : (paddedBits b).length = 8 * packedLen b.length := by
  simp [paddedBits, packedLen_spec]

/-- R107: the two frames and when each is made. -/
theorem encodeFrame_cases (code : CodeTable) (x : List Byte) :
    (x.length ≤ packedLen (codeBits code x).length ∧ encodeFrame code x = sentinel :: x) ∨
    (packedLen (codeBits code x).length < x.length ∧
      encodeFrame code x = BitVec.ofNat 8 (padBits (codeBits code x).length) :: packBits (codeBits code x)) := by
  obtain h | h := Nat.lt_or_ge (packedLen (codeBits code x).length) x.length
  · exact .inr ⟨h, if_neg (by omega)⟩
  · exact .inl ⟨h, if_pos h⟩

/-- R110: a frame has 1 to N + 1 bytes. -/
theorem encodeFrame_length (code : CodeTable) (x : List Byte) :
    1 ≤ (encodeFrame code x).length ∧ (encodeFrame code x).length ≤ x.length + 1 := by
  obtain ⟨-, h⟩ | ⟨hl, h⟩ := encodeFrame_cases code x
  · rw [h]; simp
  · rw [h]; simp; omega

/-- R113: packing one bit loses no packed byte. -/
theorem Packer.push_packed_length (k : Packer) (c : Bool) : k.packed.length ≤ (k.push c).packed.length := by
  simp only [Packer.push]; split <;> simp

/-- R113: packing bits loses no packed byte. -/
theorem Packer.foldl_packed_length (b : Bits) (k : Packer) : k.packed.length ≤ (b.foldl Packer.push k).packed.length := by
  induction b generalizing k with
  | nil => exact Nat.le_refl _
  | cons c rest ih => exact Nat.le_trans (k.push_packed_length c) (ih (k.push c))

/-- R113: what packing with the early stop can do: stop, when packing every bit gives at least n bytes; else pack every bit. -/
theorem Packer.pushUntil_eq (n : Nat) (b : Bits) (k : Packer) :
    k.pushUntil n b =
      if n ≤ (b.foldl Packer.push k).packed.length then none else some (b.foldl Packer.push k) := by
  induction b generalizing k with
  | nil => rfl
  | cons c rest ih =>
    rw [Packer.pushUntil, ih, List.foldl_cons]
    by_cases h : n ≤ k.packed.length
    · rw [if_pos h, if_pos]
      exact h.trans ((k.push_packed_length c).trans (Packer.foldl_packed_length rest (k.push c)))
    · rw [if_neg h]

/-- R126: a walk that has emitted `opos` bytes, at most MAX_OUT, ends with at most MAX_OUT bytes in all. -/
theorem walk_length {node : Arena} {root np : NodeIdx} {maxOut opos : Nat} {b : Bits} {out : List Byte}
    (h : walk node root maxOut np opos b = .ok out) (ho : opos ≤ maxOut) : opos + out.length ≤ maxOut := by
  induction b generalizing np opos out with
  | nil =>
    simp only [walk] at h
    split at h
    · cases h; simpa using ho
    · cases h
  | cons c rest ih =>
    simp only [walk] at h
    split at h
    · exact ih h ho
    · split at h
      · cases h
      · split at h
        · rename_i hr
          cases h
          have := ih hr (by omega)
          simp only [List.length_cons]; omega
        · cases h

end Sys2Proof
end

