-- ==== Sys2Proof/Laws/Memory.lean ====
section
/-! SUPPORT. The laws of byte memory: read after write, and the canonical form that every operation keeps. -/

namespace Sys2Proof

/-- R45: a read after a write gives the byte written there and what was read before everywhere else. -/
theorem Memory.read_write (m : List Host.Cell) (a b : Nat) (v : Byte) :
    Memory.read (Memory.write m a v) b = if a = b then some v else Memory.read m b := by
  induction m with
  | nil => simp [Memory.write, Memory.read]
  | cons c rest ih =>
    obtain ⟨k, w⟩ := c
    simp only [Memory.write]
    split
    · simp [Memory.read]
    · split
      · rename_i h; subst h; by_cases h : a = b <;> simp [Memory.read, h]
      · simp only [Memory.read, ih]; split <;> simp_all

@[simp] theorem Memory.read_nil (a : Nat) : Memory.read [] a = none := rfl

theorem Memory.wfFrom_mono {cap l l' : Nat} {m : List Host.Cell} (h : l' ≤ l)
    (hw : Memory.wfFrom cap l m = true) : Memory.wfFrom cap l' m = true := by
  cases m with
  | nil => rfl
  | cons c rest =>
    simp only [Memory.wfFrom, Bool.and_eq_true, decide_eq_true_eq] at hw ⊢
    exact ⟨⟨by omega, hw.1.2⟩, hw.2⟩

theorem Memory.wfFrom_write {cap : Nat} {m : List Host.Cell} {l a : Nat} {v : Byte}
    (hm : Memory.wfFrom cap l m = true) (hl : l ≤ a) (ha : a < cap) :
    Memory.wfFrom cap l (Memory.write m a v) = true := by
  induction m generalizing l with
  | nil => simp [Memory.write, Memory.wfFrom, hl, ha]
  | cons c rest ih =>
    obtain ⟨k, w⟩ := c
    simp only [Memory.wfFrom, Bool.and_eq_true, decide_eq_true_eq] at hm
    simp only [Memory.write]
    split
    · simp only [Memory.wfFrom, Bool.and_eq_true, decide_eq_true_eq]; exact ⟨⟨hl, ha⟩, ⟨by omega, hm.1.2⟩, hm.2⟩
    · split
      · rename_i h; subst h
        simp only [Memory.wfFrom, Bool.and_eq_true, decide_eq_true_eq]; exact ⟨hm.1, hm.2⟩
      · simp only [Memory.wfFrom, Bool.and_eq_true, decide_eq_true_eq]
        exact ⟨hm.1, ih hm.2 (by omega)⟩

/-- A write below the capacity keeps the canonical form. -/
theorem Memory.wf_write {cap : Nat} {m : List Host.Cell} {a : Nat} {v : Byte}
    (hm : Memory.wf cap m = true) (ha : a < cap) : Memory.wf cap (Memory.write m a v) = true :=
  Memory.wfFrom_write hm (Nat.zero_le a) ha

theorem Memory.wfFrom_ofBytes {cap : Nat} (out : List Byte) (l : Nat) (h : l + out.length ≤ cap) :
    Memory.wfFrom cap l (Memory.ofBytes l out) = true := by
  induction out generalizing l with
  | nil => rfl
  | cons b rest ih =>
    simp only [List.length_cons] at h
    simp only [Memory.ofBytes, Memory.wfFrom, Bool.and_eq_true, decide_eq_true_eq]
    exact ⟨⟨Nat.le_refl l, by omega⟩, ih (l + 1) (by omega)⟩

/-- A sequence of at most `cap` bytes from index 0 is in canonical form. -/
theorem Memory.wf_ofBytes {cap : Nat} {out : List Byte} (h : out.length ≤ cap) :
    Memory.wf cap (Memory.ofBytes 0 out) = true :=
  Memory.wfFrom_ofBytes out 0 (by omega)

/-- The empty memory, as reset leaves it, is in canonical form. -/
@[simp] theorem Memory.wf_nil (cap : Nat) : Memory.wf cap [] = true := rfl

theorem Memory.read_ofBytes_from (out : List Byte) (base a : Nat) :
    Memory.read (Memory.ofBytes base out) a = if base ≤ a then out[a - base]? else none := by
  induction out generalizing base with
  | nil => simp [Memory.ofBytes]
  | cons b rest ih =>
    simp only [Memory.ofBytes, Memory.read, ih]
    obtain h | h | h := Nat.lt_trichotomy base a
    · rw [if_neg (by omega), if_pos (by omega), if_pos (by omega), show a - base = (a - (base + 1)) + 1 by omega,
        List.getElem?_cons_succ]
    · subst h; simp
    · rw [if_neg (by omega), if_neg (by omega), if_neg (by omega)]

/-- R42: byte a of a sequence stands at index a. -/
@[simp] theorem Memory.read_ofBytes (out : List Byte) (a : Nat) : Memory.read (Memory.ofBytes 0 out) a = out[a]? := by
  simp [Memory.read_ofBytes_from]

end Sys2Proof
end

