-- ==== Sys2Proof/Laws/State.lean ====
section
/-! SUPPORT. One lemma for each field of State under each shared update, and the fields of STATUS under each of them. -/

namespace Sys2Proof.Machine

section complete
variable (s : State) (b : Bool) (e : ErrCode) (c : SubCode) (n : Nat)
@[simp] theorem State.complete_cfg : (s.complete b e c n).cfg = s.cfg := rfl
@[simp] theorem State.complete_status : (s.complete b e c n).status = statusWord false true b e.code c.code := rfl
@[simp] theorem State.complete_ilen : (s.complete b e c n).ilen = s.ilen := rfl
@[simp] theorem State.complete_olen : (s.complete b e c n).olen = n := rfl
@[simp] theorem State.complete_ibuf : (s.complete b e c n).ibuf = s.ibuf := rfl
@[simp] theorem State.complete_obuf : (s.complete b e c n).obuf = s.obuf := rfl
@[simp] theorem State.complete_node : (s.complete b e c n).node = s.node := rfl
@[simp] theorem State.complete_root : (s.complete b e c n).root = s.root := rfl
@[simp] theorem State.complete_code : (s.complete b e c n).code = s.code := rfl
@[simp] theorem State.complete_phase : (s.complete b e c n).phase = .idle := rfl
@[simp] theorem State.complete_work : (s.complete b e c n).work = Config.freeWork s.draws := rfl
@[simp] theorem State.complete_agenda : (s.complete b e c n).agenda = s.agenda := rfl
@[simp] theorem State.complete_rdata : (s.complete b e c n).rdata = s.rdata := rfl
@[simp] theorem State.complete_epoch : (s.complete b e c n).epoch = s.epoch := rfl
@[simp] theorem State.complete_draws : (s.complete b e c n).draws = s.draws + 1 := rfl
end complete

section raise
variable (s : State) (e : ErrCode) (c : SubCode)
@[simp] theorem State.raise_cfg : (s.raise e c).cfg = s.cfg := rfl
@[simp] theorem State.raise_status : (s.raise e c).status = statusWord false true s.built e.code c.code := rfl
@[simp] theorem State.raise_ilen : (s.raise e c).ilen = s.ilen := rfl
@[simp] theorem State.raise_olen : (s.raise e c).olen = 0 := rfl
@[simp] theorem State.raise_ibuf : (s.raise e c).ibuf = s.ibuf := rfl
@[simp] theorem State.raise_obuf : (s.raise e c).obuf = s.obuf := rfl
@[simp] theorem State.raise_node : (s.raise e c).node = s.node := rfl
@[simp] theorem State.raise_root : (s.raise e c).root = s.root := rfl
@[simp] theorem State.raise_code : (s.raise e c).code = s.code := rfl
@[simp] theorem State.raise_phase : (s.raise e c).phase = .idle := rfl
@[simp] theorem State.raise_work : (s.raise e c).work = Config.freeWork s.draws := rfl
@[simp] theorem State.raise_agenda : (s.raise e c).agenda = s.agenda := rfl
@[simp] theorem State.raise_rdata : (s.raise e c).rdata = s.rdata := rfl
@[simp] theorem State.raise_epoch : (s.raise e c).epoch = s.epoch := rfl
@[simp] theorem State.raise_draws : (s.raise e c).draws = s.draws + 1 := rfl
end raise

section raiseWriting
variable (s : State) (e : ErrCode) (c : SubCode)
@[simp] theorem State.raiseWriting_cfg : (s.raiseWriting e c).cfg = s.cfg := rfl
@[simp] theorem State.raiseWriting_status : (s.raiseWriting e c).status = statusWord false true s.built e.code c.code := rfl
@[simp] theorem State.raiseWriting_ilen : (s.raiseWriting e c).ilen = s.ilen := rfl
@[simp] theorem State.raiseWriting_olen : (s.raiseWriting e c).olen = 0 := rfl
@[simp] theorem State.raiseWriting_ibuf : (s.raiseWriting e c).ibuf = s.ibuf := rfl
@[simp] theorem State.raiseWriting_obuf : (s.raiseWriting e c).obuf = [] := rfl
@[simp] theorem State.raiseWriting_node : (s.raiseWriting e c).node = s.node := rfl
@[simp] theorem State.raiseWriting_root : (s.raiseWriting e c).root = s.root := rfl
@[simp] theorem State.raiseWriting_code : (s.raiseWriting e c).code = s.code := rfl
@[simp] theorem State.raiseWriting_phase : (s.raiseWriting e c).phase = .idle := rfl
@[simp] theorem State.raiseWriting_work : (s.raiseWriting e c).work = Config.freeWork s.draws := rfl
@[simp] theorem State.raiseWriting_agenda : (s.raiseWriting e c).agenda = s.agenda := rfl
@[simp] theorem State.raiseWriting_rdata : (s.raiseWriting e c).rdata = s.rdata := rfl
@[simp] theorem State.raiseWriting_epoch : (s.raiseWriting e c).epoch = s.epoch := rfl
@[simp] theorem State.raiseWriting_draws : (s.raiseWriting e c).draws = s.draws + 1 := rfl
end raiseWriting

section succeed
variable (s : State) (out : List Byte)
@[simp] theorem State.succeed_cfg : (s.succeed out).cfg = s.cfg := rfl
@[simp] theorem State.succeed_status : (s.succeed out).status = statusWord false true s.built 0 0 := rfl
@[simp] theorem State.succeed_ilen : (s.succeed out).ilen = s.ilen := rfl
@[simp] theorem State.succeed_olen : (s.succeed out).olen = out.length := rfl
@[simp] theorem State.succeed_ibuf : (s.succeed out).ibuf = s.ibuf := rfl
@[simp] theorem State.succeed_obuf : (s.succeed out).obuf = Memory.ofBytes 0 out := rfl
@[simp] theorem State.succeed_node : (s.succeed out).node = s.node := rfl
@[simp] theorem State.succeed_root : (s.succeed out).root = s.root := rfl
@[simp] theorem State.succeed_code : (s.succeed out).code = s.code := rfl
@[simp] theorem State.succeed_phase : (s.succeed out).phase = .idle := rfl
@[simp] theorem State.succeed_work : (s.succeed out).work = Config.freeWork s.draws := rfl
@[simp] theorem State.succeed_agenda : (s.succeed out).agenda = s.agenda := rfl
@[simp] theorem State.succeed_rdata : (s.succeed out).rdata = s.rdata := rfl
@[simp] theorem State.succeed_epoch : (s.succeed out).epoch = s.epoch := rfl
@[simp] theorem State.succeed_draws : (s.succeed out).draws = s.draws + 1 := rfl
end succeed

section completeBuild
variable (s : State) (t : Tables)
@[simp] theorem State.completeBuild_cfg : (s.completeBuild t).cfg = s.cfg := rfl
@[simp] theorem State.completeBuild_status : (s.completeBuild t).status = statusWord false true true 0 0 := rfl
@[simp] theorem State.completeBuild_ilen : (s.completeBuild t).ilen = s.ilen := rfl
@[simp] theorem State.completeBuild_olen : (s.completeBuild t).olen = 0 := rfl
@[simp] theorem State.completeBuild_ibuf : (s.completeBuild t).ibuf = s.ibuf := rfl
@[simp] theorem State.completeBuild_obuf : (s.completeBuild t).obuf = s.obuf := rfl
@[simp] theorem State.completeBuild_node : (s.completeBuild t).node = t.node := rfl
@[simp] theorem State.completeBuild_root : (s.completeBuild t).root = t.root := rfl
@[simp] theorem State.completeBuild_code : (s.completeBuild t).code = t.code := rfl
@[simp] theorem State.completeBuild_phase : (s.completeBuild t).phase = .idle := rfl
@[simp] theorem State.completeBuild_work : (s.completeBuild t).work = Config.freeWork s.draws := rfl
@[simp] theorem State.completeBuild_agenda : (s.completeBuild t).agenda = s.agenda := rfl
@[simp] theorem State.completeBuild_rdata : (s.completeBuild t).rdata = s.rdata := rfl
@[simp] theorem State.completeBuild_epoch : (s.completeBuild t).epoch = s.epoch := rfl
@[simp] theorem State.completeBuild_draws : (s.completeBuild t).draws = s.draws + 1 := rfl
end completeBuild

section start
variable (s : State) (k : Byte)
@[simp] theorem State.start_cfg : (s.start k).cfg = s.cfg := rfl
@[simp] theorem State.start_status : (s.start k).status = startedStatus s.status := rfl
@[simp] theorem State.start_ilen : (s.start k).ilen = s.ilen := rfl
@[simp] theorem State.start_olen : (s.start k).olen = s.olen := rfl
@[simp] theorem State.start_ibuf : (s.start k).ibuf = s.ibuf := rfl
@[simp] theorem State.start_obuf : (s.start k).obuf = s.obuf := rfl
@[simp] theorem State.start_node : (s.start k).node = s.node := rfl
@[simp] theorem State.start_root : (s.start k).root = s.root := rfl
@[simp] theorem State.start_code : (s.start k).code = s.code := rfl
@[simp] theorem State.start_phase : (s.start k).phase = .running k := rfl
@[simp] theorem State.start_work : (s.start k).work = s.work := rfl
@[simp] theorem State.start_agenda : (s.start k).agenda = s.agenda := rfl
@[simp] theorem State.start_rdata : (s.start k).rdata = s.rdata := rfl
@[simp] theorem State.start_epoch : (s.start k).epoch = s.epoch := rfl
@[simp] theorem State.start_draws : (s.start k).draws = s.draws := rfl
end start

section hostReset
variable (s : State)
@[simp] theorem State.hostReset_cfg : (s.hostReset).cfg = s.cfg := rfl
@[simp] theorem State.hostReset_status : (s.hostReset).status = 0 := rfl
@[simp] theorem State.hostReset_ilen : (s.hostReset).ilen = 0 := rfl
@[simp] theorem State.hostReset_olen : (s.hostReset).olen = 0 := rfl
@[simp] theorem State.hostReset_ibuf : (s.hostReset).ibuf = [] := rfl
@[simp] theorem State.hostReset_obuf : (s.hostReset).obuf = [] := rfl
@[simp] theorem State.hostReset_node : (s.hostReset).node = Config.freeArena (s.epoch + 1) := rfl
@[simp] theorem State.hostReset_root : (s.hostReset).root = Config.freeRoot (s.epoch + 1) := rfl
@[simp] theorem State.hostReset_code : (s.hostReset).code = Config.freeCode (s.epoch + 1) := rfl
@[simp] theorem State.hostReset_phase : (s.hostReset).phase = .idle := rfl
@[simp] theorem State.hostReset_work : (s.hostReset).work = Config.freeWorkReset (s.epoch + 1) := rfl
@[simp] theorem State.hostReset_agenda : (s.hostReset).agenda = s.agenda := rfl
@[simp] theorem State.hostReset_rdata : (s.hostReset).rdata = s.rdata := rfl
@[simp] theorem State.hostReset_epoch : (s.hostReset).epoch = s.epoch + 1 := rfl
@[simp] theorem State.hostReset_draws : (s.hostReset).draws = s.draws := rfl
end hostReset

/-! The fields of STATUS. -/

section statusWord
variable (busy done built : Bool) (e c : BitVec 4)

theorem statusWord_busy : (statusWord busy done built e c).getLsbD 0 = busy := by
  simp only [statusWord, BitVec.getLsbD_append]
  cases busy <;> simp

theorem statusWord_done : (statusWord busy done built e c).getLsbD 1 = done := by
  simp only [statusWord, BitVec.getLsbD_append]
  cases done <;> simp

theorem statusWord_built : (statusWord busy done built e c).getLsbD 2 = built := by
  simp only [statusWord, BitVec.getLsbD_append]
  cases built <;> simp

theorem statusWord_reserved3 : (statusWord busy done built e c).getLsbD 3 = false := by
  simp only [statusWord, BitVec.getLsbD_append]
  simp

theorem statusWord_err : (statusWord busy done built e c).extractLsb' 4 4 = e := by
  apply BitVec.eq_of_getLsbD_eq
  intro i hi
  simp only [BitVec.getLsbD_extractLsb', hi, statusWord, BitVec.getLsbD_append]
  interval_cases i <;> simp

theorem statusWord_sub : (statusWord busy done built e c).extractLsb' 8 4 = c := by
  apply BitVec.eq_of_getLsbD_eq
  intro i hi
  simp only [BitVec.getLsbD_extractLsb', hi, statusWord, BitVec.getLsbD_append]
  interval_cases i <;> simp

theorem statusWord_reserved15 : (statusWord busy done built e c).extractLsb' 12 4 = 0 := by
  apply BitVec.eq_of_getLsbD_eq
  intro i hi
  simp only [BitVec.getLsbD_extractLsb', hi, statusWord, BitVec.getLsbD_append]
  interval_cases i <;> simp

end statusWord

section startedStatus
variable (v : BitVec 16)

theorem startedStatus_busy : (startedStatus v).getLsbD 0 = true := by
  simp [startedStatus]

theorem startedStatus_done : (startedStatus v).getLsbD 1 = false := by
  simp [startedStatus]

/-- The start of a command leaves every bit of STATUS but BUSY and DONE. -/
theorem startedStatus_other (k : Nat) (h : 2 ≤ k) : (startedStatus v).getLsbD k = v.getLsbD k := by
  obtain hk | hk := Nat.lt_or_ge k 16
  · simp only [startedStatus, BitVec.getLsbD_or, BitVec.getLsbD_and]
    interval_cases k <;> simp
  · rw [BitVec.getLsbD_of_ge _ _ hk, BitVec.getLsbD_of_ge _ _ hk]

theorem startedStatus_built : (startedStatus v).getLsbD 2 = v.getLsbD 2 :=
  startedStatus_other v 2 (by decide)

theorem startedStatus_reserved3 : (startedStatus v).getLsbD 3 = v.getLsbD 3 :=
  startedStatus_other v 3 (by decide)

theorem startedStatus_field (lo : Nat) (h : 2 ≤ lo) :
    (startedStatus v).extractLsb' lo 4 = v.extractLsb' lo 4 := by
  apply BitVec.eq_of_getLsbD_eq
  intro i hi
  simp only [BitVec.getLsbD_extractLsb', hi, startedStatus_other v (lo + i) (by omega)]

end startedStatus

section complete
variable (s : State) (b : Bool) (e : ErrCode) (c : SubCode) (n : Nat)
@[simp] theorem State.complete_busy : (s.complete b e c n).busy = false := statusWord_busy ..
@[simp] theorem State.complete_done : (s.complete b e c n).done = true := statusWord_done ..
@[simp] theorem State.complete_built : (s.complete b e c n).built = b := statusWord_built ..
@[simp] theorem State.complete_err : (s.complete b e c n).err = e.code := statusWord_err ..
@[simp] theorem State.complete_sub : (s.complete b e c n).sub = c.code := statusWord_sub ..
end complete

section raise
variable (s : State) (e : ErrCode) (c : SubCode)
@[simp] theorem State.raise_busy : (s.raise e c).busy = false := statusWord_busy ..
@[simp] theorem State.raise_done : (s.raise e c).done = true := statusWord_done ..
@[simp] theorem State.raise_built : (s.raise e c).built = s.built := statusWord_built ..
@[simp] theorem State.raise_err : (s.raise e c).err = e.code := statusWord_err ..
@[simp] theorem State.raise_sub : (s.raise e c).sub = c.code := statusWord_sub ..
end raise

section raiseWriting
variable (s : State) (e : ErrCode) (c : SubCode)
@[simp] theorem State.raiseWriting_busy : (s.raiseWriting e c).busy = false := statusWord_busy ..
@[simp] theorem State.raiseWriting_done : (s.raiseWriting e c).done = true := statusWord_done ..
@[simp] theorem State.raiseWriting_built : (s.raiseWriting e c).built = s.built := statusWord_built ..
@[simp] theorem State.raiseWriting_err : (s.raiseWriting e c).err = e.code := statusWord_err ..
@[simp] theorem State.raiseWriting_sub : (s.raiseWriting e c).sub = c.code := statusWord_sub ..
end raiseWriting

section succeed
variable (s : State) (out : List Byte)
@[simp] theorem State.succeed_busy : (s.succeed out).busy = false := statusWord_busy ..
@[simp] theorem State.succeed_done : (s.succeed out).done = true := statusWord_done ..
@[simp] theorem State.succeed_built : (s.succeed out).built = s.built := statusWord_built ..
@[simp] theorem State.succeed_err : (s.succeed out).err = 0 := statusWord_err ..
@[simp] theorem State.succeed_sub : (s.succeed out).sub = 0 := statusWord_sub ..
end succeed

section completeBuild
variable (s : State) (t : Tables)
@[simp] theorem State.completeBuild_busy : (s.completeBuild t).busy = false := statusWord_busy ..
@[simp] theorem State.completeBuild_done : (s.completeBuild t).done = true := statusWord_done ..
@[simp] theorem State.completeBuild_built : (s.completeBuild t).built = true := statusWord_built ..
@[simp] theorem State.completeBuild_err : (s.completeBuild t).err = 0 := statusWord_err ..
@[simp] theorem State.completeBuild_sub : (s.completeBuild t).sub = 0 := statusWord_sub ..
end completeBuild

section start
variable (s : State) (k : Byte)
@[simp] theorem State.start_busy : (s.start k).busy = true := startedStatus_busy _
@[simp] theorem State.start_done : (s.start k).done = false := startedStatus_done _
@[simp] theorem State.start_built : (s.start k).built = s.built := startedStatus_built _
@[simp] theorem State.start_err : (s.start k).err = s.err := startedStatus_field _ 4 (by decide)
@[simp] theorem State.start_sub : (s.start k).sub = s.sub := startedStatus_field _ 8 (by decide)
end start

section hostReset
variable (s : State)
@[simp] theorem State.hostReset_busy : (s.hostReset).busy = false := by unfold State.busy; rw [State.hostReset_status]; decide
@[simp] theorem State.hostReset_done : (s.hostReset).done = false := by unfold State.done; rw [State.hostReset_status]; decide
@[simp] theorem State.hostReset_built : (s.hostReset).built = false := by unfold State.built; rw [State.hostReset_status]; decide
@[simp] theorem State.hostReset_err : (s.hostReset).err = 0 := by unfold State.err; rw [State.hostReset_status]; decide
@[simp] theorem State.hostReset_sub : (s.hostReset).sub = 0 := by unfold State.sub; rw [State.hostReset_status]; decide
end hostReset

end Sys2Proof.Machine
end

