-- ==== Sys2Proof/Laws/Ops.lean ====
section
/-! SUPPORT. For each shared operation of the commands, what it can do, said once. -/

namespace Sys2Proof.Machine

/-- R101, R116: the three things `checkData` can do, with what it has found. -/
theorem checkData_cases (s : State) (run : State → State) :
    (s.built = false ∧ checkData s run = s.raise .notBuilt .none) ∨
    (s.built = true ∧ s.cfg.maxIn < s.ilen ∧ checkData s run = s.raise .lenRange .none) ∨
    (s.built = true ∧ s.ilen ≤ s.cfg.maxIn ∧ checkData s run = run s) := by
  cases hb : s.built
  · simp [checkData, hb]
  · obtain h | h := Nat.lt_or_ge s.cfg.maxIn s.ilen
    · simp [checkData, hb, h]
    · exact .inr (.inr ⟨rfl, h, by simp [checkData, hb, Nat.not_lt.mpr h]⟩)

/-- `checkData` passes on a built block whose ILEN is in range. -/
theorem checkData_pass {s : State} {run : State → State} (hb : s.built = true) (hl : s.ilen ≤ s.cfg.maxIn) :
    checkData s run = run s := by
  simp [checkData, hb, Nat.not_lt.mpr hl]

/-- R116, R117: the four things `checkFrame` can do, with what it has found. -/
theorem checkFrame_cases (s : State) (run : State → State) :
    (s.built = false ∧ checkFrame s run = s.raise .notBuilt .none) ∨
    (s.built = true ∧ s.cfg.maxIn < s.ilen ∧ checkFrame s run = s.raise .lenRange .none) ∨
    (s.built = true ∧ s.ilen ≤ s.cfg.maxIn ∧ s.ilen = 0 ∧ checkFrame s run = s.raise .codecError .emptyInput) ∨
    (s.built = true ∧ s.ilen ≤ s.cfg.maxIn ∧ 0 < s.ilen ∧ checkFrame s run = run s) := by
  unfold checkFrame
  obtain ⟨h, e⟩ | ⟨h, h', e⟩ | ⟨h, h', e⟩ := checkData_cases s fun s =>
    if s.ilen = 0 then s.raise .codecError .emptyInput else run s
  · exact .inl ⟨h, e⟩
  · exact .inr (.inl ⟨h, h', e⟩)
  · obtain h0 | h0 := Nat.eq_zero_or_pos s.ilen
    · exact .inr (.inr (.inl ⟨h, h', h0, by rw [e, if_pos h0]⟩))
    · exact .inr (.inr (.inr ⟨h, h', h0, by rw [e, if_neg (by omega)]⟩))

/-- `checkFrame` passes on a built block whose ILEN is in range and not 0. -/
theorem checkFrame_pass {s : State} {run : State → State} (hb : s.built = true) (hl : s.ilen ≤ s.cfg.maxIn)
    (h0 : 0 < s.ilen) : checkFrame s run = run s := by
  rw [checkFrame, checkData_pass hb hl, if_neg (by omega)]

/-- The input has ILEN bytes. -/
@[simp] theorem State.input_length (s : State) : s.input.length = s.ilen := by simp [State.input]

/-- The payload has ILEN - 1 bytes (R118). -/
@[simp] theorem State.payload_length (s : State) : s.payload.length = s.ilen - 1 := by simp [State.payload]

/-- The payload is empty exactly when ILEN is at most 1. -/
theorem State.payload_eq_nil (s : State) : s.payload = [] ↔ s.ilen ≤ 1 := by
  rw [← List.length_eq_zero_iff, State.payload_length]; omega

/-- R119 to R126: what `decodeBody` can do: succeed with some output, raise an error before it writes, or one while it writes. -/
theorem decodeBody_cases (k : HeaderKind) (s : State) :
    (∃ out, decodeBody k s = s.succeed out ∧
      ((k = .raw ∧ out = s.payload) ∨
        ∃ h, k = .compressed h ∧ s.payload ≠ [] ∧
          walk s.node s.root s.cfg.maxOut s.root 0 (retained h s.payload) = .ok out)) ∨
    (k = .reserved ∧ decodeBody k s = s.raise .codecError .badHeader) ∨
    (∃ h, k = .compressed h ∧ s.payload = [] ∧ decodeBody k s = s.raise .codecError .noPayload) ∨
    (∃ h, k = .compressed h ∧ s.payload ≠ [] ∧
      walk s.node s.root s.cfg.maxOut s.root 0 (retained h s.payload) = .error .overflow ∧
      decodeBody k s = s.raiseWriting .overflow .none) ∨
    (∃ h, k = .compressed h ∧ s.payload ≠ [] ∧
      walk s.node s.root s.cfg.maxOut s.root 0 (retained h s.payload) = .error .incompletePath ∧
      decodeBody k s = s.raiseWriting .codecError .incompletePath) := by
  cases k with
  | raw => exact .inl ⟨s.payload, rfl, .inl ⟨rfl, rfl⟩⟩
  | reserved => exact .inr (.inl ⟨rfl, rfl⟩)
  | compressed h =>
    by_cases hp : s.payload = []
    · exact .inr (.inr (.inl ⟨h, rfl, hp, by simp [decodeBody, hp]⟩))
    · match hw : walk s.node s.root s.cfg.maxOut s.root 0 (retained h s.payload) with
      | .ok out => exact .inl ⟨out, by simp [decodeBody, hp, hw, State.finishWalk], .inr ⟨h, rfl, hp, hw⟩⟩
      | .error .overflow =>
        exact .inr (.inr (.inr (.inl ⟨h, rfl, hp, hw, by simp [decodeBody, hp, hw, State.finishWalk]⟩)))
      | .error .incompletePath =>
        exact .inr (.inr (.inr (.inr ⟨h, rfl, hp, hw, by simp [decodeBody, hp, hw, State.finishWalk]⟩)))

/-- What every instruction can do: complete with BUILT as it was and no table written, or be BUILD's completion. -/
theorem exec_cases (i : Instr) (s : State) :
    (∃ e c, exec i s = .next (s.raise e c)) ∨ (∃ e c, exec i s = .next (s.raiseWriting e c)) ∨
    (∃ out, exec i s = .next (s.succeed out)) ∨ exec i s = .next (s.complete s.built .ok .none 0) ∨
    (i = .build ∧ exec i s = .next (s.completeBuild (buildTables s.cfg.toParams s.node))) := by
  have frame (k : HeaderKind) : (∃ e c, checkFrame s (decodeBody k) = s.raise e c) ∨
      (∃ e c, checkFrame s (decodeBody k) = s.raiseWriting e c) ∨
      (∃ out, checkFrame s (decodeBody k) = s.succeed out) := by
    obtain ⟨-, e⟩ | ⟨-, -, e⟩ | ⟨-, -, -, e⟩ | ⟨-, -, -, e⟩ := checkFrame_cases s (decodeBody k)
    · exact .inl ⟨_, _, e⟩
    · exact .inl ⟨_, _, e⟩
    · exact .inl ⟨_, _, e⟩
    · obtain ⟨out, h, -⟩ | ⟨-, h⟩ | ⟨_, -, -, h⟩ | ⟨_, -, -, -, h⟩ | ⟨_, -, -, -, h⟩ := decodeBody_cases k s
      · exact .inr (.inr ⟨out, e.trans h⟩)
      · exact .inl ⟨_, _, e.trans h⟩
      · exact .inl ⟨_, _, e.trans h⟩
      · exact .inr (.inl ⟨_, _, e.trans h⟩)
      · exact .inr (.inl ⟨_, _, e.trans h⟩)
  have framed (k : HeaderKind) (h : exec i s = .next (checkFrame s (decodeBody k))) :
      (∃ e c, exec i s = .next (s.raise e c)) ∨ (∃ e c, exec i s = .next (s.raiseWriting e c)) ∨
      (∃ out, exec i s = .next (s.succeed out)) ∨ exec i s = .next (s.complete s.built .ok .none 0) ∨
      (i = .build ∧ exec i s = .next (s.completeBuild (buildTables s.cfg.toParams s.node))) := by
    obtain ⟨e, c, hf⟩ | ⟨e, c, hf⟩ | ⟨out, hf⟩ := frame k
    · exact .inl ⟨e, c, by rw [h, hf]⟩
    · exact .inr (.inl ⟨e, c, by rw [h, hf]⟩)
    · exact .inr (.inr (.inl ⟨out, by rw [h, hf]⟩))
  cases i with
  | nop => exact .inr (.inr (.inr (.inl rfl)))
  | build => exact .inr (.inr (.inr (.inr ⟨rfl, rfl⟩)))
  | encode =>
    obtain ⟨-, e⟩ | ⟨-, -, e⟩ | ⟨-, -, e⟩ := checkData_cases s encodeBody
    · exact .inl ⟨_, _, congrArg _ e⟩
    · exact .inl ⟨_, _, congrArg _ e⟩
    · exact .inr (.inr (.inl ⟨_, congrArg _ e⟩))
  | decode =>
    have h : exec .decode s = .next (checkFrame s (decodeBody (headerKind (s.inputByte 0)))) := by
      show Host.Outcome.next _ = _
      congr 1
    exact framed _ h
  | illegal04_07 c => exact .inl ⟨_, _, rfl⟩
  | illegal08_0F c => exact .inl ⟨_, _, rfl⟩
  | illegal10_1F c => exact .inl ⟨_, _, rfl⟩
  | illegal20_3F c => exact .inl ⟨_, _, rfl⟩
  | illegal40_7F c => exact .inl ⟨_, _, rfl⟩
  | illegal80_FF c => exact .inl ⟨_, _, rfl⟩
  | hdrFC h => exact framed (.compressed h) rfl
  | hdrFR => exact framed .raw rfl
  | hdrReserved08_0F b => exact framed .reserved rfl
  | hdrReserved10_1F b => exact framed .reserved rfl
  | hdrReserved20_3F b => exact framed .reserved rfl
  | hdrReserved40_7F b => exact framed .reserved rfl
  | hdrReserved80_BF b => exact framed .reserved rfl
  | hdrReservedC0_DF b => exact framed .reserved rfl
  | hdrReservedE0_EF b => exact framed .reserved rfl
  | hdrReservedF0_F7 b => exact framed .reserved rfl
  | hdrReservedF8_FB b => exact framed .reserved rfl
  | hdrReservedFC_FD b => exact framed .reserved rfl
  | hdrReservedFE_FE => exact framed .reserved rfl

end Sys2Proof.Machine
end

