-- ==== Sys2Proof/Laws/PerInstr.lean ====
section
/-! SUPPORT. Statements about every instruction as syntax, one lemma per constructor. -/

namespace Sys2Proof.Laws

/-- A well-formed instruction's byte has the fixed bits of a row of its space, and that row makes the instruction. -/
def EncodingHitsRow.Statement (i : Instr) : Prop :=
  i.wellFormed = true → ∃ r ∈ rowsOf i.space, r.hit (encodeByte i) = true ∧ r.make (encodeByte i) = i

/-- A row that carries its byte makes the instruction from it; its range check implies its fixed bits. -/
theorem encodingHitsRow_of_row {i : Instr} (r : Row) (hr : r ∈ rowsOf i.space)
    (h : i.wellFormed = true → r.hit (encodeByte i) = true) (hm : r.make (encodeByte i) = i) :
    EncodingHitsRow.Statement i :=
  fun hw => ⟨r, hr, h hw, hm⟩

theorem EncodingHitsRow.nop : EncodingHitsRow.Statement .nop :=
  encodingHitsRow_of_row ⟨"NOP", .cmd, 0x00, 0xFF, fun _ => .nop⟩ (by simp [rowsOf, Instr.space, commandRows]) (by decide) rfl

theorem EncodingHitsRow.build : EncodingHitsRow.Statement .build :=
  encodingHitsRow_of_row ⟨"BUILD", .cmd, 0x01, 0xFF, fun _ => .build⟩ (by simp [rowsOf, Instr.space, commandRows]) (by decide) rfl

theorem EncodingHitsRow.encode : EncodingHitsRow.Statement .encode :=
  encodingHitsRow_of_row ⟨"ENCODE", .cmd, 0x02, 0xFF, fun _ => .encode⟩ (by simp [rowsOf, Instr.space, commandRows]) (by decide) rfl

theorem EncodingHitsRow.decode : EncodingHitsRow.Statement .decode :=
  encodingHitsRow_of_row ⟨"DECODE", .cmd, 0x03, 0xFF, fun _ => .decode⟩ (by simp [rowsOf, Instr.space, commandRows]) (by decide) rfl

theorem EncodingHitsRow.illegal04_07 (c : Byte) : EncodingHitsRow.Statement (.illegal04_07 c) :=
  encodingHitsRow_of_row ⟨"ILLEGAL_04_07", .cmd, 0x04, 0xFC, .illegal04_07⟩ (by simp [rowsOf, Instr.space, commandRows])
    (by revert c; decide) rfl

theorem EncodingHitsRow.illegal08_0F (c : Byte) : EncodingHitsRow.Statement (.illegal08_0F c) :=
  encodingHitsRow_of_row ⟨"ILLEGAL_08_0F", .cmd, 0x08, 0xF8, .illegal08_0F⟩ (by simp [rowsOf, Instr.space, commandRows])
    (by revert c; decide) rfl

theorem EncodingHitsRow.illegal10_1F (c : Byte) : EncodingHitsRow.Statement (.illegal10_1F c) :=
  encodingHitsRow_of_row ⟨"ILLEGAL_10_1F", .cmd, 0x10, 0xF0, .illegal10_1F⟩ (by simp [rowsOf, Instr.space, commandRows])
    (by revert c; decide) rfl

theorem EncodingHitsRow.illegal20_3F (c : Byte) : EncodingHitsRow.Statement (.illegal20_3F c) :=
  encodingHitsRow_of_row ⟨"ILLEGAL_20_3F", .cmd, 0x20, 0xE0, .illegal20_3F⟩ (by simp [rowsOf, Instr.space, commandRows])
    (by revert c; decide) rfl

theorem EncodingHitsRow.illegal40_7F (c : Byte) : EncodingHitsRow.Statement (.illegal40_7F c) :=
  encodingHitsRow_of_row ⟨"ILLEGAL_40_7F", .cmd, 0x40, 0xC0, .illegal40_7F⟩ (by simp [rowsOf, Instr.space, commandRows])
    (by revert c; decide) rfl

theorem EncodingHitsRow.illegal80_FF (c : Byte) : EncodingHitsRow.Statement (.illegal80_FF c) :=
  encodingHitsRow_of_row ⟨"ILLEGAL_80_FF", .cmd, 0x80, 0x80, .illegal80_FF⟩ (by simp [rowsOf, Instr.space, commandRows])
    (by revert c; decide) rfl

theorem EncodingHitsRow.hdrFC (h : BitVec 3) : EncodingHitsRow.Statement (.hdrFC h) :=
  encodingHitsRow_of_row ⟨"HDR_FC", .frameHeader, 0x00, 0xF8, fun b => .hdrFC (b.extractLsb' 0 3)⟩
    (by simp [rowsOf, Instr.space, headerRows]) (by revert h; decide) (by revert h; decide)

theorem EncodingHitsRow.hdrFR : EncodingHitsRow.Statement .hdrFR :=
  encodingHitsRow_of_row ⟨"HDR_FR", .frameHeader, 0xFF, 0xFF, fun _ => .hdrFR⟩ (by simp [rowsOf, Instr.space, headerRows]) (by decide) rfl

theorem EncodingHitsRow.hdrReserved08_0F (c : Byte) : EncodingHitsRow.Statement (.hdrReserved08_0F c) :=
  encodingHitsRow_of_row ⟨"HDR_RESERVED_08_0F", .frameHeader, 0x08, 0xF8, .hdrReserved08_0F⟩ (by simp [rowsOf, Instr.space, headerRows])
    (by revert c; decide) rfl

theorem EncodingHitsRow.hdrReserved10_1F (c : Byte) : EncodingHitsRow.Statement (.hdrReserved10_1F c) :=
  encodingHitsRow_of_row ⟨"HDR_RESERVED_10_1F", .frameHeader, 0x10, 0xF0, .hdrReserved10_1F⟩ (by simp [rowsOf, Instr.space, headerRows])
    (by revert c; decide) rfl

theorem EncodingHitsRow.hdrReserved20_3F (c : Byte) : EncodingHitsRow.Statement (.hdrReserved20_3F c) :=
  encodingHitsRow_of_row ⟨"HDR_RESERVED_20_3F", .frameHeader, 0x20, 0xE0, .hdrReserved20_3F⟩ (by simp [rowsOf, Instr.space, headerRows])
    (by revert c; decide) rfl

theorem EncodingHitsRow.hdrReserved40_7F (c : Byte) : EncodingHitsRow.Statement (.hdrReserved40_7F c) :=
  encodingHitsRow_of_row ⟨"HDR_RESERVED_40_7F", .frameHeader, 0x40, 0xC0, .hdrReserved40_7F⟩ (by simp [rowsOf, Instr.space, headerRows])
    (by revert c; decide) rfl

theorem EncodingHitsRow.hdrReserved80_BF (c : Byte) : EncodingHitsRow.Statement (.hdrReserved80_BF c) :=
  encodingHitsRow_of_row ⟨"HDR_RESERVED_80_BF", .frameHeader, 0x80, 0xC0, .hdrReserved80_BF⟩ (by simp [rowsOf, Instr.space, headerRows])
    (by revert c; decide) rfl

theorem EncodingHitsRow.hdrReservedC0_DF (c : Byte) : EncodingHitsRow.Statement (.hdrReservedC0_DF c) :=
  encodingHitsRow_of_row ⟨"HDR_RESERVED_C0_DF", .frameHeader, 0xC0, 0xE0, .hdrReservedC0_DF⟩ (by simp [rowsOf, Instr.space, headerRows])
    (by revert c; decide) rfl

theorem EncodingHitsRow.hdrReservedE0_EF (c : Byte) : EncodingHitsRow.Statement (.hdrReservedE0_EF c) :=
  encodingHitsRow_of_row ⟨"HDR_RESERVED_E0_EF", .frameHeader, 0xE0, 0xF0, .hdrReservedE0_EF⟩ (by simp [rowsOf, Instr.space, headerRows])
    (by revert c; decide) rfl

theorem EncodingHitsRow.hdrReservedF0_F7 (c : Byte) : EncodingHitsRow.Statement (.hdrReservedF0_F7 c) :=
  encodingHitsRow_of_row ⟨"HDR_RESERVED_F0_F7", .frameHeader, 0xF0, 0xF8, .hdrReservedF0_F7⟩ (by simp [rowsOf, Instr.space, headerRows])
    (by revert c; decide) rfl

theorem EncodingHitsRow.hdrReservedF8_FB (c : Byte) : EncodingHitsRow.Statement (.hdrReservedF8_FB c) :=
  encodingHitsRow_of_row ⟨"HDR_RESERVED_F8_FB", .frameHeader, 0xF8, 0xFC, .hdrReservedF8_FB⟩ (by simp [rowsOf, Instr.space, headerRows])
    (by revert c; decide) rfl

theorem EncodingHitsRow.hdrReservedFC_FD (c : Byte) : EncodingHitsRow.Statement (.hdrReservedFC_FD c) :=
  encodingHitsRow_of_row ⟨"HDR_RESERVED_FC_FD", .frameHeader, 0xFC, 0xFE, .hdrReservedFC_FD⟩ (by simp [rowsOf, Instr.space, headerRows])
    (by revert c; decide) rfl

theorem EncodingHitsRow.hdrReservedFE_FE : EncodingHitsRow.Statement .hdrReservedFE_FE :=
  encodingHitsRow_of_row ⟨"HDR_RESERVED_FE_FE", .frameHeader, 0xFE, 0xFF, fun _ => .hdrReservedFE_FE⟩ (by simp [rowsOf, Instr.space, headerRows]) (by decide) rfl

end Sys2Proof.Laws
end

