-- ==== Sys2Proof/Laws/Step.lean ====
section
/-! SUPPORT. What one step can do, said once. -/

namespace Sys2Proof.Machine

/-- A step that answers a next state is the engine's, a move of the host, an answered WAIT, a COPYBACK, or nothing. -/
theorem step_cases {s t : State} (h : step s = .next t) :
    (s.busy = true ∧ runEngine s = .next t) ∨
    (∃ m rest, s.busy = true ∧ s.agenda = .act m :: rest ∧ busyMove m { s with agenda := rest } = .next t) ∨
    (∃ m rest, s.busy = false ∧ s.agenda = .act m :: rest ∧ idleMove m { s with agenda := rest } = .next t) ∨
    (∃ rest, s.busy = false ∧ s.agenda = .wait :: rest ∧ s.done = true ∧ t = { s with agenda := rest }) ∨
    (∃ rest, s.busy = false ∧ s.agenda = .copyback :: rest ∧ t = { s with agenda := copybackMoves s ++ rest }) ∨
    (s.busy = false ∧ t = s) := by
  unfold step at h
  cases hb : s.busy <;> simp only [hb, if_true, Bool.false_eq_true, if_false] at h
  · cases ha : s.agenda with
    | nil => simp only [ha] at h; cases h; exact .inr (.inr (.inr (.inr (.inr ⟨rfl, rfl⟩))))
    | cons a rest =>
      simp only [ha] at h
      cases a with
      | act m => exact .inr (.inr (.inl ⟨m, rest, rfl, rfl, h⟩))
      | wait =>
        simp only [idleAction] at h
        split at h
        · rename_i hd; cases h; exact .inr (.inr (.inr (.inl ⟨rest, rfl, rfl, hd, rfl⟩)))
        · cases h; exact .inr (.inr (.inr (.inr (.inr ⟨rfl, rfl⟩))))
      | copyback => cases h; exact .inr (.inr (.inr (.inr (.inl ⟨rest, rfl, rfl, rfl⟩))))
  · cases ha : s.agenda with
    | nil => simp only [ha] at h; exact .inl ⟨rfl, h⟩
    | cons a rest =>
      simp only [ha] at h
      cases a with
      | act m => exact .inr (.inl ⟨m, rest, rfl, rfl, h⟩)
      | wait => exact .inl ⟨rfl, h⟩
      | copyback => cases h

/-- What the host can do while the engine works: read STATUS, or reset (R183). -/
theorem busyMove_cases {m : HostMove} {s t : State} (h : busyMove m s = .next t) :
    (m = .read (.ro .status) ∧ t = { s with rdata := some (.status s.status) }) ∨ (m = .reset ∧ t = s.hostReset) := by
  unfold busyMove at h
  split at h
  · simp only [hostRead, State.readLoc, State.readReadOnly] at h; cases h; exact .inl ⟨rfl, rfl⟩
  · cases h; exact .inr ⟨rfl, rfl⟩
  all_goals cases h

/-- What each move of the host does while the engine is idle (R140 to R144). -/
theorem idleMove_cases {m : HostMove} {s t : State} (h : idleMove m s = .next t) :
    (∃ a v, m = .writeIbuf a v ∧ a < s.cfg.maxIn ∧ t = { s with ibuf := Memory.write s.ibuf a v }) ∨
    (∃ n, m = .writeIlen n ∧ n < 2 ^ s.cfg.lenW ∧ t = { s with ilen := n }) ∨
    (∃ c, m = .writeCmd c ∧ t = s.start c) ∨
    (∃ l, m = .writeReadOnly l ∧ s.outside l = none ∧ t = s) ∨
    (∃ l v, m = .read l ∧ s.readLoc l = .ok v ∧ t = { s with rdata := some v }) ∨
    (m = .reset ∧ t = s.hostReset) := by
  cases m with
  | writeIbuf a v =>
    simp only [idleMove] at h
    split at h
    · rename_i ha; cases h; exact .inl ⟨a, v, rfl, ha, rfl⟩
    · cases h
  | writeIlen n =>
    simp only [idleMove] at h
    split at h
    · rename_i hn; cases h; exact .inr (.inl ⟨n, rfl, hn, rfl⟩)
    · cases h
  | writeCmd c => cases h; exact .inr (.inr (.inl ⟨c, rfl, rfl⟩))
  | writeReadOnly l =>
    simp only [idleMove] at h
    split at h
    · rename_i hl; cases h; exact .inr (.inr (.inr (.inl ⟨l, rfl, hl, rfl⟩)))
    · cases h
  | read l =>
    simp only [idleMove, hostRead] at h
    split at h
    · rename_i v hv; cases h; exact .inr (.inr (.inr (.inr (.inl ⟨l, v, rfl, hv, rfl⟩))))
    · cases h
  | reset => cases h; exact .inr (.inr (.inr (.inr (.inr ⟨rfl, rfl⟩))))

end Sys2Proof.Machine
end

