-- ==== Sys2Proof/Tests/Slice0.lean ====
section
/-! SUPPORT. Tests of the model against the spec's own words and vectors (95_test_vectors.md), and for each statement that has
hypotheses a concrete state and operands that meet them. -/

namespace Sys2Proof.Tests

open Sys2Proof Sys2Proof.Machine

/-! ## Well-formedness: an ill-formed term for each check -/

theorem test_wellFormed_illegal :
    (Instr.illegal04_07 0x08).wellFormed = false ∧ (Instr.illegal08_0F 0x07).wellFormed = false ∧
    (Instr.illegal10_1F 0x20).wellFormed = false ∧ (Instr.illegal20_3F 0x1F).wellFormed = false ∧
    (Instr.illegal40_7F 0x80).wellFormed = false ∧ (Instr.illegal80_FF 0x7F).wellFormed = false := by decide

theorem test_wellFormed_reserved :
    (Instr.hdrReserved08_0F 0x07).wellFormed = false ∧ (Instr.hdrReserved10_1F 0x20).wellFormed = false ∧
    (Instr.hdrReserved20_3F 0x40).wellFormed = false ∧ (Instr.hdrReserved40_7F 0x3F).wellFormed = false ∧
    (Instr.hdrReserved80_BF 0xC0).wellFormed = false ∧ (Instr.hdrReservedC0_DF 0xBF).wellFormed = false ∧
    (Instr.hdrReservedE0_EF 0xF0).wellFormed = false ∧ (Instr.hdrReservedF0_F7 0xF8).wellFormed = false ∧
    (Instr.hdrReservedF8_FB 0xFC).wellFormed = false ∧ (Instr.hdrReservedFC_FD 0xFF).wellFormed = false := by decide

/-! ## Decoding: one byte written out from the table's bit pattern for every row -/

theorem test_decode_commands :
    decodeByte .cmd 0b00000000 = some .nop ∧ decodeByte .cmd 0b00000001 = some .build ∧
    decodeByte .cmd 0b00000010 = some .encode ∧ decodeByte .cmd 0b00000011 = some .decode ∧
    decodeByte .cmd 0b00000110 = some (.illegal04_07 0b00000110) ∧
    decodeByte .cmd 0b00001011 = some (.illegal08_0F 0b00001011) ∧
    decodeByte .cmd 0b00010101 = some (.illegal10_1F 0b00010101) ∧
    decodeByte .cmd 0b00110011 = some (.illegal20_3F 0b00110011) ∧
    decodeByte .cmd 0b01011100 = some (.illegal40_7F 0b01011100) ∧
    decodeByte .cmd 0b11111111 = some (.illegal80_FF 0b11111111) := by decide

theorem test_decode_headers :
    decodeByte .frameHeader 0b00000101 = some (.hdrFC 0b101) ∧ decodeByte .frameHeader 0b11111111 = some .hdrFR ∧
    decodeByte .frameHeader 0b00001001 = some (.hdrReserved08_0F 0b00001001) ∧
    decodeByte .frameHeader 0b00011110 = some (.hdrReserved10_1F 0b00011110) ∧
    decodeByte .frameHeader 0b00100001 = some (.hdrReserved20_3F 0b00100001) ∧
    decodeByte .frameHeader 0b01000010 = some (.hdrReserved40_7F 0b01000010) ∧
    decodeByte .frameHeader 0b10111111 = some (.hdrReserved80_BF 0b10111111) ∧
    decodeByte .frameHeader 0b11000100 = some (.hdrReservedC0_DF 0b11000100) ∧
    decodeByte .frameHeader 0b11101000 = some (.hdrReservedE0_EF 0b11101000) ∧
    decodeByte .frameHeader 0b11110001 = some (.hdrReservedF0_F7 0b11110001) ∧
    decodeByte .frameHeader 0b11111010 = some (.hdrReservedF8_FB 0b11111010) ∧
    decodeByte .frameHeader 0b11111101 = some (.hdrReservedFC_FD 0b11111101) ∧
    decodeByte .frameHeader 0b11111110 = some .hdrReservedFE_FE := by decide

theorem test_decodeTableWord : decodeTableWord 8 0x03 = some .decode ∧ decodeTableWord 16 0x03 = none ∧
    decodeTableWord 8 0x100 = none := by decide

/-! ## A small block -/

/-- A vector whose first entries are listed and whose others are all d. -/
def padded {α : Type} (n : Nat) (d : α) (l : List α) : Vector α n := ⟨⟨(l ++ List.replicate n d).take n⟩, by simp⟩

/-- A tree in which five symbols have the code words that table SKEW gives them (section 2.4): `1` is 0x00, `000` 0x20, `011` 0x65,
`0101` 0x74 and `001001` 0x61. Its root is entry 0. -/
def smallArena : Arena :=
  padded 511 (.leaf 0xFF 0) [.internal 1 9 0, .internal 2 3 0, .internal 10 4 0, .internal 5 11 0, .internal 6 12 0,
    .internal 12 13 0, .internal 7 12 0, .internal 12 8 0, .leaf 0x61 0, .leaf 0x00 0, .leaf 0x20 0, .leaf 0x65 0, .leaf 0xFF 0,
    .leaf 0x74 0]

/-- The code words of those five symbols. -/
def smallCode : CodeTable :=
  ((((Vector.replicate 256 []).set 0x00 [true]).set 0x20 [false, false, false]).set 0x65 [false, true, true]).set 0x74
    [false, true, false, true] |>.set 0x61 [false, false, true, false, false, true]

/-- The small block with this STATUS, these bytes loaded (R73, LOAD), MAX_IN = 64 and MAX_OUT = 65. -/
def smallBlock (status : BitVec 16) (x : List Byte) : State :=
  { State.afterReset Config.zero 0 with
    status := status, ilen := x.length, ibuf := Memory.ofBytes 0 x, node := smallArena, root := 0, code := smallCode }

/-- STATUS, OLEN and the valid output after an instruction. -/
def result (i : Instr) (s : State) : Option (BitVec 16 × Nat × List (Option Byte)) :=
  match exec i s with
  | .next t => some (t.status, t.olen, t.output)
  | _ => none

/-- STATUS 0x0006, OLEN and output of a command that succeeds. -/
def good (out : List Byte) : Option (BitVec 16 × Nat × List (Option Byte)) := some (0x0006, out.length, out.map some)

/-- STATUS with OLEN = 0. -/
def bad (status : BitVec 16) : Option (BitVec 16 × Nat × List (Option Byte)) := some (status, 0, [])

/-! ## NOP and the illegal commands: H2 to H5 -/

theorem test_nop :
    [result .nop (smallBlock 0x0000 []),
      result .nop (smallBlock 0x0416 [])] =
    [bad 0x0002, bad 0x0006] := by decide +kernel

theorem test_illegal :
    [result (.illegal04_07 0x04) (smallBlock 0x0000 []),
      result (.illegal08_0F 0x08) (smallBlock 0x0006 [0xFF]),
      result (.illegal10_1F 0x10) (smallBlock 0x0006 [0xFF]),
      result (.illegal20_3F 0x20) (smallBlock 0x0006 [0xFF]),
      result (.illegal40_7F 0x40) (smallBlock 0x0006 [0xFF]),
      result (.illegal80_FF 0xFF) (smallBlock 0x0006 [0xFF])] =
    [bad 0x0032, bad 0x0036, bad 0x0036, bad 0x0036, bad 0x0036, bad 0x0036] := by decide +kernel

/-! ## ENCODE: E2, E4, E5, E6, E31 to E33 -/

theorem test_encode_frames :
    [result .encode (smallBlock 0x0006 [0x74, 0x65, 0x61]),
      result .encode (smallBlock 0x0006 []),
      result .encode (smallBlock 0x0006 [0x00]),
      result .encode (smallBlock 0x0006 [0x00, 0x00])] =
    [good [0x03, 0x6A, 0x12], good [0xFF], good [0xFF, 0x00], good [0x06, 0x03]] := by decide +kernel

/-- E2, E16 and E5 by the encoder that stops early, and a packer that stops at its first packed byte. -/
theorem test_encode_early_stop :
    [streamEncodeEarly smallCode [0x74, 0x65, 0x61], streamEncodeEarly smallCode [0x61, 0x61], streamEncodeEarly smallCode [0x00]] =
      [[0x03, 0x6A, 0x12], [0xFF, 0x61, 0x61], [0xFF, 0x00]] ∧
    Packer.start.pushUntil 1 (List.replicate 8 true ++ [false]) = none := by decide +kernel

theorem test_encode_errors :
    [result .encode (smallBlock 0x0000 [0x00, 0x00]),
      result .encode { smallBlock 0x0006 [] with ilen := 65 },
      result .encode { smallBlock 0x0000 [] with ilen := 65 }] =
    [bad 0x0022, bad 0x0046, bad 0x0022] := by decide +kernel

/-! ## DECODE and the header rows: D1 to D13, D16, D35 to D37 -/

theorem test_decode_frames :
    [result .decode (smallBlock 0x0006 [0xFF, 0x01, 0x02, 0x03]),
      result .decode (smallBlock 0x0006 [0x03, 0x6A, 0x12]),
      result .decode (smallBlock 0x0006 [0x00, 0x6A, 0x12]),
      result .decode (smallBlock 0x0006 [0x07, 0xFF])] =
    [good [0x01, 0x02, 0x03], good [0x74, 0x65, 0x61], good [0x74, 0x65, 0x61, 0x20], good [0x00]] := by decide +kernel

theorem test_decode_errors :
    [result .decode (smallBlock 0x0000 [0xFF, 0x41]),
      result .decode { smallBlock 0x0006 [] with ilen := 65 },
      result .decode (smallBlock 0x0006 []),
      result .decode (smallBlock 0x0006 [0x08]),
      result .decode (smallBlock 0x0006 [0x03]),
      result .decode (smallBlock 0x0006 [0x06, 0x6A, 0x12]),
      result .decode (smallBlock 0x0006 (0x06 :: List.replicate 9 0xFF))] =
    [bad 0x0022, bad 0x0046, bad 0x0116, bad 0x0216, bad 0x0316, bad 0x0416, bad 0x0056] := by decide +kernel

theorem test_header_frames :
    [result (.hdrFC 3) (smallBlock 0x0006 [0x03, 0x6A, 0x12]),
      result (.hdrFC 0) (smallBlock 0x0006 [0x00]),
      result .hdrFR (smallBlock 0x0006 [0xFF]),
      result .hdrFR (smallBlock 0x0006 [0xFF, 0xFF])] =
    [good [0x74, 0x65, 0x61], bad 0x0316, good [], good [0xFF]] := by decide +kernel

theorem test_header_reserved :
    (reservedRows 0x08).map (fun i => result i (smallBlock 0x0006 [0x08, 0xFF])) = List.replicate 11 (bad 0x0216) := by
  decide +kernel

/-! ## BUILD: the parts of the builder, on section 2's tables and the binary64 patterns of 1 to 6 -/

/-- The parameters of table ZERO with the other MERGE_SLOT and K1_BIT (section 2.5). -/
def otherParams : Params := { Params.zero with mergeSlot := .k2, k1Bit := false }

/-- The first four leaves of table RAMP: FREQ[s] = s + 1. -/
def rampArena : Arena :=
  padded 511 (.leaf 0xFF 0)
    [.leaf 0 0x3FF0000000000000, .leaf 1 0x4000000000000000, .leaf 2 0x4008000000000000, .leaf 3 0x4010000000000000]

/-- Slots 0 to 3 hold those leaves; the others are EMPTY. -/
def rampSlots : Slots := padded 256 none [some 0, some 1, some 2, some 3]

/-- Merge 0 of RAMP: NODE[256] = C0 1, C1 0, W 3; K1_BIT = 0 exchanges the children. -/
theorem test_build_mergedNode :
    mergedNode Params.zero rampArena 0 1 = .internal 1 0 0x4008000000000000 ∧
    mergedNode otherParams rampArena 0 1 = .internal 0 1 0x4008000000000000 := by decide +kernel

/-- Merge 0 of RAMP selects slots 0 and 1; the merged node goes to slot K1, or to slot K2, and the other slot becomes EMPTY. -/
theorem test_build_slots :
    (selectLowest Params.zero rampArena rampSlots none, selectLowest Params.zero rampArena rampSlots (some 0),
      (mergedSlots Params.zero rampSlots 0 1 256).toList.take 3, (mergedSlots otherParams rampSlots 0 1 256).toList.take 3) =
      (some 0, some 1, [some 256, none, some 2], [none, some 256, some 2]) := by decide +kernel

/-- The code words of the small tree, read off its traversal (R91). -/
theorem test_build_traverse :
    (traverse smallArena 8 0).lookup 0x61 = some [false, false, true, false, false, true] ∧
    (traverse smallArena 8 0).lookup 0x74 = some [false, true, false, true] := by decide +kernel

/-- R97, binary64: 0.1 + 0.2 is 0.30000000000000004; 1 + 2^-53 is a tie and goes to the even 1; binary128: 1 + 1 is 2. -/
theorem test_build_wadd :
    WFmt.binary64.wadd 0x3FB999999999999A 0x3FC999999999999A = 0x3FD3333333333334 ∧
    WFmt.binary64.wadd 0x3FF0000000000000 0x3CA0000000000000 = 0x3FF0000000000000 ∧
    (WFmt.binary { expBits := 15, fracBits := 112 }).wadd (0x3FFF * 2 ^ 112) (0x3FFF * 2 ^ 112) = 0x4000 * 2 ^ 112 := by
  decide +kernel

/-! ## Steps of the block and its host: H8, H9, H10 -/

/-- The small block with a host's script. -/
def hosted (status : BitVec 16) (x : List Byte) (script : List Action) : State := { smallBlock status x with agenda := script }

/-- STATUS, ILEN, the valid output and the last value read after some steps. -/
def after (k : Nat) (s : State) : Option (BitVec 16 × Nat × List (Option Byte) × Option ReadValue) :=
  match Host.Core.run Sys2Proof.core k s with
  | .next t => some (t.status, t.ilen, t.output, t.rdata)
  | _ => none

theorem test_step_start_and_poll :
    after 2 (hosted 0x0416 [] [.act (.writeCmd 0x02), .act (.read (.ro .status))]) =
      some (0x0415, 0, [], some (.status 0x0415)) := by decide +kernel

theorem test_step_run_encode :
    after 3 (hosted 0x0006 [0x74, 0x65, 0x61] (Script.run .encode)) = some (0x0006, 3, [some 0x03, some 0x6A, some 0x12], none) := by
  decide +kernel

theorem test_step_reset :
    after 2 (hosted 0x0005 [0x41] [.act .reset, .act (.read .ilen)]) = some (0x0000, 0, [], some (.length 0)) := by decide +kernel

/-! ## The chain: the tree and the code table that section 2.2 gives for table ZERO, as formulas -/

/-- Entry n of the chain: NODE[256] = C0 1, C1 0 and NODE[256+m] = C0 m + 1, C1 255 + m. -/
def chainEntry (n : Nat) : NodeEntry :=
  if n < 256 then .leaf (BitVec.ofNat 8 n) 0
  else .internal (Fin.ofNat 511 (n - 255)) (if n = 256 then 0 else Fin.ofNat 511 (n - 1)) 0

/-- The chain's arena. -/
def chainArena : Arena := ⟨⟨(List.range 511).map chainEntry⟩, by simp⟩

/-- The path from node 256 + m to the leaf of s. -/
def chainPath (m s : Nat) : Bits :=
  if s = 0 then List.replicate (m + 1) true else List.replicate (m + 1 - s) true ++ [false]

/-- The chain's code table. -/
def chainCode : CodeTable := ⟨⟨(List.range 256).map (chainPath 254)⟩, by simp⟩

/-- The tables of ZERO. -/
def chainTables : Tables := { node := chainArena, root := rootIdx, code := chainCode }

theorem chainArena_get (n : NodeIdx) : chainArena[n] = chainEntry n.val := by
  simp [chainArena]

theorem chainCode_get (i : SlotIdx) : chainCode[i] = chainPath 254 i.val := by
  simp [chainCode]

theorem chain_leaf (n : NodeIdx) (h : n.val < 256) : chainArena[n] = .leaf (BitVec.ofNat 8 n.val) 0 := by
  rw [chainArena_get, chainEntry, if_pos h]

/-- Below a leaf no path goes on. -/
theorem chain_descend_leaf (n k : NodeIdx) (h : n.val < 256) (b : Bits) :
    descend chainArena n b = some k ↔ k = n ∧ b = [] := by
  cases b with
  | nil => simp [descend, eq_comm]
  | cons c rest => simp [descend, chain_leaf n h]

theorem chain_descend (m : Nat) (hm : m < 255) (s : Byte) (b : Bits) :
    descend chainArena ⟨256 + m, by omega⟩ b = some (leafIdx s) ↔ s.toNat ≤ m + 1 ∧ b = chainPath m s.toNat := by
  induction m generalizing b with
  | zero =>
    cases b with
    | nil =>
      have := s.isLt
      simp only [descend, Option.some.injEq, leafIdx, Fin.ext_iff, chainPath]
      constructor
      · omega
      · rintro ⟨h, h'⟩
        split at h' <;> simp at h'
    | cons c rest =>
      have hn : chainArena[(⟨256 + 0, by omega⟩ : NodeIdx)] = .internal 1 0 0 := by rw [chainArena_get]; rfl
      simp only [descend, hn]
      have hs := s.isLt
      cases c
      · simp only [Bool.false_eq_true, if_false]
        rw [chain_descend_leaf _ _ (by decide)]
        simp only [leafIdx, Fin.ext_iff, chainPath]
        show s.toNat = 1 ∧ rest = [] ↔ _
        constructor
        · rintro ⟨h, rfl⟩; simp [h]
        · rintro ⟨h, h'⟩
          split at h'
          · simp at h'
          · have : s.toNat = 1 := by omega
            simp [this] at h'; exact ⟨this, h'⟩
      · simp only [if_true]
        rw [chain_descend_leaf _ _ (by decide)]
        simp only [leafIdx, Fin.ext_iff, chainPath]
        show s.toNat = 0 ∧ rest = [] ↔ _
        constructor
        · rintro ⟨h, rfl⟩; simp [h]
        · rintro ⟨h, h'⟩
          split at h'
          · rename_i h0; simp at h'; exact ⟨h0, h'⟩
          · have : s.toNat = 1 := by omega
            simp [this] at h'
  | succ m ih =>
    cases b with
    | nil =>
      have := s.isLt
      simp only [descend, Option.some.injEq, leafIdx, Fin.ext_iff, chainPath]
      constructor
      · omega
      · rintro ⟨h, h'⟩
        split at h' <;> simp at h'
    | cons c rest =>
      have hn : chainArena[(⟨256 + (m + 1), by omega⟩ : NodeIdx)] =
          .internal ⟨m + 2, by omega⟩ ⟨256 + m, by omega⟩ 0 := by
        rw [chainArena_get, chainEntry, if_neg (by simp)]
        have h1 : (256 + (m + 1) - 255) % 511 = m + 2 := by omega
        have h2 : (256 + (m + 1) - 1) % 511 = 256 + m := by omega
        rw [if_neg (by simp)]
        simp only [Fin.ofNat, h1, h2]
      simp only [descend, hn]
      have hs := s.isLt
      cases c
      · simp only [Bool.false_eq_true, if_false]
        rw [chain_descend_leaf _ _ (by show m + 2 < 256; omega)]
        simp only [leafIdx, Fin.ext_iff, chainPath]
        constructor
        · rintro ⟨h, rfl⟩; rw [h]; simp
        · rintro ⟨h, h'⟩
          split at h'
          · simp [List.replicate_succ] at h'
          · obtain hlt | heq : s.toNat ≤ m + 1 ∨ s.toNat = m + 2 := by omega
            · rw [show m + 1 + 1 - s.toNat = (m + 1 - s.toNat) + 1 by omega, List.replicate_succ] at h'
              simp at h'
            · rw [heq] at h' ⊢; simp at h'; exact ⟨rfl, h'⟩
      · simp only [if_true]
        rw [ih (by omega)]
        simp only [chainPath]
        constructor
        · rintro ⟨h, rfl⟩
          refine ⟨by omega, ?_⟩
          split
          · rw [← List.replicate_succ]
          · rw [show m + 1 + 1 - s.toNat = (m + 1 - s.toNat) + 1 by omega, List.replicate_succ, List.cons_append]
        · rintro ⟨h, h'⟩
          split at h'
          · rename_i h0
            rw [List.replicate_succ, List.cons.injEq] at h'
            exact ⟨by omega, by rw [if_pos h0]; exact h'.2⟩
          · rename_i h0
            obtain hlt | heq : s.toNat ≤ m + 1 ∨ s.toNat = m + 2 := by omega
            · rw [show m + 1 + 1 - s.toNat = (m + 1 - s.toNat) + 1 by omega, List.replicate_succ, List.cons_append,
                List.cons.injEq] at h'
              exact ⟨hlt, by rw [if_neg h0]; exact h'.2⟩
            · rw [heq] at h'; simp at h'

/-- How often n is a child of the first M internal nodes of the chain. -/
theorem chain_count (n : NodeIdx) (M : Nat) (h1 : 1 ≤ M) (hM : M ≤ 255) :
    ((List.range M).flatMap fun m => (chainEntry (256 + m)).children).count n =
      if n.val ≤ M ∨ (256 ≤ n.val ∧ n.val < 255 + M) then 1 else 0 := by
  induction M, h1 using Nat.le_induction with
  | base =>
    have hc : (List.range 1).flatMap (fun m => (chainEntry (256 + m)).children) = [1, 0] := by decide
    rw [hc]
    simp only [List.count_cons, List.count_nil, beq_iff_eq, Fin.ext_iff]
    show 0 + (if 0 = n.val then 1 else 0) + (if 1 = n.val then 1 else 0) = _
    split <;> split <;> split <;> omega
  | succ M h1 ih =>
    rw [List.range_succ, List.flatMap_append, List.count_append, ih (by omega)]
    have hc : (chainEntry (256 + M)).children = [⟨M + 1, by omega⟩, ⟨255 + M, by omega⟩] := by
      have e1 : (256 + M - 255) % 511 = M + 1 := by omega
      have e2 : (256 + M - 1) % 511 = 255 + M := by omega
      rw [chainEntry, if_neg (by omega), if_neg (by omega)]
      simp only [NodeEntry.children, Fin.ofNat, e1, e2]
    simp only [List.flatMap_cons, List.flatMap_nil, List.append_nil, hc, List.count_cons, List.count_nil, beq_iff_eq,
      Fin.ext_iff]
    split <;> split <;> split <;> split <;> omega

theorem chain_once (n : NodeIdx) : (childList chainArena).count n = if n = rootIdx then 0 else 1 := by
  have hl : childList chainArena = (List.range 255).flatMap fun m => (chainEntry (256 + m)).children := by
    have h0 : ∀ k ∈ List.range 256, (chainEntry k).children = [] := by
      intro k hk
      rw [chainEntry, if_pos (List.mem_range.mp hk)]; rfl
    have hr : List.range 511 = List.range 256 ++ (List.range 255).map (256 + ·) := List.range_add (n := 256) (m := 255)
    have hn : chainArena.toList = (List.range 511).map chainEntry := by simp [chainArena]
    rw [childList, hn, List.flatMap_map, hr, List.flatMap_append, List.flatMap_map, List.flatMap_eq_nil_iff.mpr h0,
      List.nil_append]
  rw [hl, chain_count n 255 (by decide) (by decide)]
  have hn := n.isLt
  simp only [Fin.ext_iff]
  show _ = if n.val = 510 then 0 else 1
  split <;> split <;> omega

/-- The chain is a tree of the configuration ZERO in the sense of R28. -/
theorem chain_treeOk : chainTables.TreeOk Params.zero where
  leaves s := by
    have hs := s.isLt
    show chainArena[leafIdx s] = _
    rw [chain_leaf _ (by show s.toNat < 256; omega)]
    have hw : Params.zero.freq[symIdx s] = 0 := Vector.getElem_replicate (symIdx s).isLt
    exact congrArg₂ NodeEntry.leaf (by simp [leafIdx]) hw.symm
  internals n hn := by
    have hlt := n.isLt
    have h1 : (n.val - 255) % 511 = n.val - 255 := by omega
    refine ⟨⟨if n.val = 256 then 0 else n.val - 1, by split <;> omega⟩, ⟨n.val - 255, by omega⟩, ?_, by show n.val - 255 < n.val; omega, ?_, ?_⟩
    · show (if n.val = 256 then 0 else n.val - 1) < n.val
      split <;> omega
    · simp only [ne_eq, Fin.ext_iff]
      split <;> omega
    · have hw : ∀ k : NodeIdx, (chainArena[k]).weight = 0 := by
        intro k
        rw [chainArena_get, chainEntry]
        split <;> rfl
      show chainArena[n] = mergedNode Params.zero chainArena _ _
      have hf : Params.zero.fmt = .binary64 := rfl
      rw [mergedNode, hw, hw, hf, WFmt.wadd_zero_zero, if_pos (by rfl), chainArena_get, chainEntry, if_neg (by omega)]
      have h2 : (n.val - 1) % 511 = n.val - 1 := by omega
      have e1 : Fin.ofNat 511 (n.val - 255) = ⟨n.val - 255, by omega⟩ := Fin.ext h1
      have e2 : (if n.val = 256 then (0 : NodeIdx) else Fin.ofNat 511 (n.val - 1)) =
          ⟨if n.val = 256 then 0 else n.val - 1, by split <;> omega⟩ := by
        apply Fin.ext
        split
        · rfl
        · exact h2
      rw [e1, e2]
  once := chain_once
  root := rfl
  codes s b := by
    have hs := s.isLt
    have hc : chainCode[symIdx s] = chainPath 254 s.toNat := chainCode_get (symIdx s)
    show descend chainArena ⟨256 + 254, by omega⟩ b = _ ↔ b = chainCode[symIdx s]
    rw [chain_descend 254 (by decide) s b, hc]
    exact ⟨fun h => h.2, fun h => ⟨by omega, h⟩⟩

/-- A block of configuration ZERO whose tables are the chain. -/
def chainBlock (x : List Byte) : State :=
  { State.afterReset Config.zero 0 with
    status := 0x0006, ilen := x.length, ibuf := Memory.ofBytes 0 x, node := chainArena, root := rootIdx, code := chainCode }

/-- E20, E22 and E24. -/
theorem test_encode_zero :
    [result .encode (chainBlock [0xFF, 0xFF, 0xFF]),
      result .encode (chainBlock [0xFF, 0xFE, 0xFD, 0xFF]),
      result .encode (chainBlock [0xF8, 0xFF, 0xFF])] =
    [good [0x05, 0x00], good [0x01, 0x1A], good [0x06, 0x7F, 0x00]] := by decide +kernel

/-- The frames of E20 and E22 (the first is D25). -/
theorem test_decode_zero :
    [result .decode (chainBlock [0x05, 0x00]), result .decode (chainBlock [0x01, 0x1A])] =
    [good [0xFF, 0xFF, 0xFF], good [0xFF, 0xFE, 0xFD, 0xFF]] := by decide +kernel

/-! ## For each statement with hypotheses, a state and operands that meet them -/

theorem witness_DecodeOfEncode :
    (Instr.illegal04_07 0x04).wellFormed = true ∧ (Instr.illegal80_FF 0xFF).wellFormed = true ∧
    (Instr.hdrFC 7).wellFormed = true ∧ (Instr.hdrReserved08_0F 0x0F).wellFormed = true := by decide

/-- A started command with no more script, and one on whose completion the host waits. -/
theorem witness_StepRunsStartedCommand : ∀ script ∈ [([] : List Action), [.wait]],
    ∃ s : State, s.busy = true ∧ s.phase = .running 0xFF ∧ (s.agenda = [] ∨ ∃ rest, s.agenda = .wait :: rest) ∧
      decodeBytes .cmd [0xFF] = .ok (.illegal80_FF 0xFF, []) := by
  intro script hs
  refine ⟨{ hosted 0x0001 [] script with phase := .running 0xFF },
    show (0x0001 : BitVec 16).getLsbD 0 = true by decide, rfl, ?_, by decide⟩
  simp only [List.mem_cons, List.not_mem_nil, or_false] at hs
  obtain rfl | rfl := hs
  · exact .inl rfl
  · exact .inr ⟨[], rfl⟩

theorem witness_StepRunsFetchWord : decodeTableWord 8 0x03 = some .decode ∧ decodeTableWord 8 0x00 = some .nop := by decide

theorem witness_WriteCmdStarts : ∃ s : State, s.busy = false ∧ s.agenda = .act (.writeCmd 0x02) :: [.wait] :=
  ⟨hosted 0x0006 [0x41] (Script.run .encode), by decide, rfl⟩

theorem witness_CommandAndWait : ∃ s t : State, s.busy = false ∧ s.agenda = .act (.writeCmd 0x02) :: .wait :: [.copyback] ∧
    decodeByte .cmd 0x02 = some .encode ∧ exec .encode s = .next t :=
  ⟨hosted 0x0006 [0x00, 0x00] (Script.run .encode ++ [.copyback]), _, by decide, rfl, by decide, rfl⟩

theorem witness_CommandsKeepInput : ∃ t, exec .encode (smallBlock 0x0006 [0x00, 0x00]) = .next t := ⟨_, rfl⟩

theorem witness_OnlyBuildWritesTables :
    Instr.decode ≠ .build ∧ ∃ t, exec .decode (smallBlock 0x0006 [0xFF]) = .next t := ⟨by decide, _, rfl⟩

/-- Two contents of IBUF that differ at index 2 = ILEN only. -/
theorem witness_BytesBeyondIlenIgnored : ∃ (s t : State) (m : List Host.Cell),
    m = Memory.write s.ibuf 2 0x55 ∧ (∀ a, a < s.ilen → ({ s with ibuf := m } : State).inputByte a = s.inputByte a) ∧
      exec .encode s = .next t := by
  refine ⟨smallBlock 0x0006 [0x41, 0x42], _, _, rfl, ?_, rfl⟩
  intro a ha
  have : a = 0 ∨ a = 1 := by change a < 2 at ha; omega
  obtain rfl | rfl := this <;> rfl

theorem witness_IllegalCommandCompletes : (4 : Byte) ≤ 0x04 ∧ (4 : Byte) ≤ 0xFF ∧ Instr.illegal80_FF 0xFF ∈ illegalRows 0xFF := by
  decide

/-- A block of configuration ZERO with these tables, BUILT = 1, OLEN = n, and a host's script. -/
def tableBlock (t : Tables) (n : Nat) (script : List Action) : State :=
  { State.afterReset Config.zero 0 with
    status := 0x0006, olen := n, ibuf := [(0, 0x41), (63, 0x42)], obuf := Memory.ofBytes 0 (List.replicate 65 0x41)
    node := t.node, root := t.root, code := t.code, agenda := script }

theorem tableBlock_status (t : Tables) (n : Nat) (script : List Action) : (tableBlock t n script).status = 0x0006 := rfl

theorem tableBlock_busy (t : Tables) (n : Nat) (script : List Action) : (tableBlock t n script).busy = false := by
  rw [State.busy, tableBlock_status]; decide

theorem tableBlock_built (t : Tables) (n : Nat) (script : List Action) : (tableBlock t n script).built = true := by
  rw [State.built, tableBlock_status]; decide

theorem tableBlock_tables (t : Tables) (n : Nat) (script : List Action) : (tableBlock t n script).tables = t := rfl

theorem tableBlock_statusOk (t : Tables) (n : Nat) (script : List Action) : (tableBlock t n script).StatusOk := by
  constructor <;>
    simp only [State.busy, State.done, State.err, State.sub, tableBlock_status] <;> decide

/-- The invariant holds in such a block when the tables are BUILD's. -/
theorem tableBlock_inv (t : Tables) (n : Nat) (script : List Action) (arena : Arena) (hn : n ≤ 65)
    (h : t = buildTables Config.zero.toParams arena) : (tableBlock t n script).Inv where
  status := tableBlock_statusOk t n script
  phase := by
    have h : (tableBlock t n script).phase = .idle := rfl
    simp [tableBlock_busy, h]
  ilen := Nat.two_pow_pos _
  olen := hn
  ibuf := by show Memory.wf 64 [(0, 0x41), (63, 0x42)] = true; decide
  obuf := by show Memory.wf 65 (Memory.ofBytes 0 (List.replicate 65 0x41)) = true; exact Memory.wf_ofBytes (by simp)
  output := by
    intro a ha
    change a < n at ha
    show (Memory.read (Memory.ofBytes 0 (List.replicate 65 0x41)) a).isSome = true
    simp [Nat.lt_of_lt_of_le ha hn]
  tables _ := ⟨arena, (tableBlock_tables t n script).trans h⟩

/-- There are tables that BUILD leaves. -/
theorem someTables : ∃ t : Tables, t = buildTables Config.zero.toParams (Config.freeArena 0) := ⟨_, rfl⟩

theorem witness_BuiltTablesAreTheTree : ∃ s : State, s.Inv ∧ s.built = true :=
  let ⟨t, h⟩ := someTables
  ⟨tableBlock t 65 [], tableBlock_inv t 65 [] _ (by decide) h, tableBlock_built t 65 []⟩

/-- Two parameter tuples that differ in MAX_IN and MAX_OUT only; and two BUILDs in a row. -/
theorem witness_BuildIsDeterministic :
    (∃ p p' : Params, p ≠ p' ∧ p.freq = p'.freq ∧ p.fmt = p'.fmt ∧ p.scanOrder = p'.scanOrder ∧ p.mergeSlot = p'.mergeSlot ∧
      p.k1Bit = p'.k1Bit) ∧
    ∃ t u, exec .build (smallBlock 0x0000 []) = .next t ∧ exec .build t = .next u :=
  ⟨⟨Params.zero, { Params.zero with maxIn := 1, maxOut := 2 }, fun h => absurd (congrArg Params.maxIn h) (by decide), rfl, rfl, rfl,
    rfl, rfl⟩, _, _, rfl, rfl⟩

/-- Slots 0 and 1 tie at weight 1, the others are EMPTY. -/
theorem witness_SelectionIsLowestFirst :
    let node : Arena := padded 511 (.leaf 0xFF 0) [.leaf 0 0x3FF0000000000000, .leaf 1 0x3FF0000000000000]
    let slot : Slots := padded 256 none [some 0, some 1]
    selectLowest Params.zero node slot none = some 0 ∧ selectLowest Params.zero node slot (some 0) = some 1 ∧
      slotWeight node slot 0 = some 0x3FF0000000000000 ∧ slotWeight node slot 1 = some 0x3FF0000000000000 ∧
      Params.zero.fmt.wlt 0x3FF0000000000000 0x3FF0000000000000 = false := by decide +kernel

theorem witness_CodeIsComplete : ∃ (p : Params) (t : Tables), t.TreeOk p := ⟨_, _, chain_treeOk⟩

theorem witness_CodeLengthBounds : ∃ (p : Params) (t : Tables), t.TreeOk p := ⟨_, _, chain_treeOk⟩

/-- A format of two exponent bits and one fraction bit: 2 + 3 quanta lie half way between the patterns 4 and 5. -/
theorem witness_WeightSumIsNearest :
    let F : BinFmt := { expBits := 2, fracBits := 1 }
    2 ≤ F.expBits ∧ 1 ≤ F.fracBits ∧ F.admits 2 = true ∧ F.admits 3 = true ∧
      F.finite (F.wadd 2 3) = true ∧ F.finite 5 = true ∧
      Nat.dist (F.quanta (F.wadd 2 3)) (F.quanta 2 + F.quanta 3) = Nat.dist (F.quanta 5) (F.quanta 2 + F.quanta 3) ∧
      F.quanta 5 ≠ F.quanta (F.wadd 2 3) := by decide

theorem witness_EncodeChecks : (smallBlock 0x0000 [0x00]).built = false ∧
    ∃ s : State, s.built = true ∧ s.cfg.maxIn < s.ilen ∧ s.ilen = 65 :=
  ⟨by decide, { smallBlock 0x0006 [] with ilen := 65 }, by decide, by decide, rfl⟩

/-- E16, on the boundary: P = 2 = N. -/
theorem witness_EncodeRawFrame :
    let s := smallBlock 0x0006 [0x61, 0x61]
    s.built = true ∧ s.ilen ≤ s.cfg.maxIn ∧ s.ilen ≤ ((codeBits s.code s.input).length + 7) / 8 ∧
      ((codeBits s.code s.input).length + 7) / 8 = 2 := by decide +kernel

/-- E6: P = 1, N = 2; bit 7 is the last bit of the payload. -/
theorem witness_EncodeCompressedFrame :
    let s := smallBlock 0x0006 [0x00, 0x00]
    s.built = true ∧ s.ilen ≤ s.cfg.maxIn ∧ 1 = ((codeBits s.code s.input).length + 7) / 8 ∧ 1 < s.ilen ∧ 7 < 8 * 1 := by
  decide +kernel

theorem witness_EncodeOutputSize : ∃ s : State, s.built = true ∧ s.ilen ≤ s.cfg.maxIn ∧ s.ilen = 64 :=
  ⟨smallBlock 0x0006 (List.replicate 64 0x41), by decide, by decide, by decide⟩

/-- One state for each line of the order of checks, and the two ends of the range of reserved headers. -/
theorem witness_DecodeOrderOfChecks :
    (smallBlock 0x0000 []).built = false ∧ ({ smallBlock 0x0006 [] with ilen := 65 } : State).cfg.maxIn < 65 ∧
    (smallBlock 0x0006 []).ilen = 0 ∧ (smallBlock 0x0006 [0x08]).inputByte 0 = 8 ∧
    (smallBlock 0x0006 [0xFE]).inputByte 0 = 0xFE ∧ (smallBlock 0x0006 [0x07]).inputByte 0 ≤ 7 ∧
    (smallBlock 0x0006 [0xFF]).inputByte 0 = 0xFF := by decide

theorem witness_RawFrameDecodes :
    let s := smallBlock 0x0006 [0xFF, 0x41]
    s.built = true ∧ 0 < s.ilen ∧ s.ilen ≤ s.cfg.maxIn ∧ s.inputByte 0 = 0xFF ∧ 0 < s.ilen - 1 := by decide

theorem witness_DecodeFollowsHeaderRow :
    decodeByte .frameHeader ((smallBlock 0x0006 [0x07]).inputByte 0) = some (.hdrFC 7) ∧
    decodeByte .frameHeader ((smallBlock 0x0006 [0xFE]).inputByte 0) = some .hdrReservedFE_FE := by decide

theorem witness_ReservedHeaderCompletes :
    let s := smallBlock 0x0006 [0x08]
    s.built = true ∧ 0 < s.ilen ∧ s.ilen ≤ s.cfg.maxIn ∧ (8 : Byte) ≤ 0x08 ∧ (8 : Byte) ≤ 0xFE ∧ (0xFE : Byte) ≤ 0xFE ∧
      Instr.hdrReserved08_0F 0x08 ∈ reservedRows 0x08 ∧ Instr.hdrReservedFE_FE ∈ reservedRows 0xFE := by decide

theorem witness_HeaderWithoutPayload : (smallBlock 0x0006 [0x07]).built = true ∧ (smallBlock 0x0006 [0x07]).ilen = 1 := by decide

theorem witness_TreeReadsBack : ∃ (p : Params) (t : Tables), t.TreeOk p := ⟨_, _, chain_treeOk⟩

/-- The small block reads 0x00, 0x61, 0x65 and 0x74 back. -/
theorem small_readsBack (status : BitVec 16) (x y : List Byte) (hy : ∀ s ∈ y, s ∈ [0x00, 0x61, 0x65, 0x74]) :
    ReadsBack (smallBlock status x).tables y := by
  intro s hs
  have hm := hy s hs
  simp only [List.mem_cons, List.not_mem_nil, or_false] at hm
  show smallCode[symIdx s] ≠ [] ∧ ∃ n w, descend smallArena 0 smallCode[symIdx s] = some n ∧ smallArena[n] = .leaf s w
  obtain rfl | rfl | rfl | rfl := hm
  · exact ⟨by decide +kernel, 9, 0, by decide +kernel, by decide +kernel⟩
  · exact ⟨by decide +kernel, 8, 0, by decide +kernel, by decide +kernel⟩
  · exact ⟨by decide +kernel, 11, 0, by decide +kernel, by decide +kernel⟩
  · exact ⟨by decide +kernel, 13, 0, by decide +kernel, by decide +kernel⟩

/-- D10: the frame `03 6a 12` holds the code words of `74 65 61`. -/
theorem witness_CompressedFrameDecodes : ∃ (s : State) (h : BitVec 3) (x : List Byte), ReadsBack s.tables x ∧ s.built = true ∧
    2 ≤ s.ilen ∧ s.ilen ≤ s.cfg.maxIn ∧ x.length ≤ s.cfg.maxOut ∧
    (stream s.payload).take (8 * (s.ilen - 1) - h.toNat) = codeBits s.code x :=
  ⟨smallBlock 0x0006 [0x03, 0x6A, 0x12], 3, [0x74, 0x65, 0x61], small_readsBack _ _ _ (by decide), by decide, by decide,
    by decide, by decide, by decide +kernel⟩

/-- D25: the frame `05 00` on the chain. -/
theorem witness_CompressedFrameSound : ∃ (s t : State) (h : BitVec 3), s.tables.TreeOk s.cfg.toParams ∧ s.built = true ∧
    2 ≤ s.ilen ∧ s.ilen ≤ s.cfg.maxIn ∧ exec (.hdrFC h) s = .next t ∧ t.err = 0 :=
  ⟨chainBlock [0x05, 0x00], _, 5, chain_treeOk, by decide, by decide, by decide, rfl, by decide +kernel⟩

/-- D12: the frame `06 6a 12`: `0101`, `011`, and then `001`, a path to node 6. -/
theorem witness_IncompletePathReported : ∃ (s : State) (h : BitVec 3) (x : List Byte) (r : Bits) (n : NodeIdx),
    ReadsBack s.tables x ∧ s.built = true ∧ 2 ≤ s.ilen ∧ s.ilen ≤ s.cfg.maxIn ∧ x.length ≤ s.cfg.maxOut ∧
    descend s.node s.root r = some n ∧ (s.node[n]).isLeaf = false ∧ n ≠ s.root ∧
    (stream s.payload).take (8 * (s.ilen - 1) - h.toNat) = codeBits s.code x ++ r :=
  ⟨smallBlock 0x0006 [0x06, 0x6A, 0x12], 6, [0x74, 0x65], [false, false, true], 4, small_readsBack _ _ _ (by decide), by decide,
    by decide, by decide, by decide, by decide +kernel, by decide +kernel, by decide, by decide +kernel⟩

/-- 66 code words `1` and MAX_OUT = 65. -/
theorem witness_OverflowReported : ∃ (s : State) (h : BitVec 3) (x : List Byte) (r : Bits), ReadsBack s.tables x ∧
    s.built = true ∧ 2 ≤ s.ilen ∧ s.ilen ≤ s.cfg.maxIn ∧ x.length = s.cfg.maxOut + 1 ∧
    (stream s.payload).take (8 * (s.ilen - 1) - h.toNat) = codeBits s.code x ++ r :=
  ⟨smallBlock 0x0006 (0x06 :: List.replicate 9 0xFF), 6, List.replicate 66 0x00, [],
    small_readsBack _ _ _ (fun s hs => by rw [List.eq_of_mem_replicate hs]; decide), by decide, by decide, by decide, by decide,
    by decide +kernel⟩

/-- D15 and D16: `07 01` and `07 ff`. -/
theorem witness_PaddingBitsIgnored : ∃ (s t : State) (m : List Host.Cell) (h : BitVec 3),
    headerKind (s.inputByte 0) = .compressed h ∧ ({ s with ibuf := m } : State).inputByte 0 = s.inputByte 0 ∧
    (stream ({ s with ibuf := m } : State).payload).take (8 * (s.ilen - 1) - h.toNat) =
      (stream s.payload).take (8 * (s.ilen - 1) - h.toNat) ∧ exec .decode s = .next t :=
  ⟨smallBlock 0x0006 [0x07, 0x01], _, Memory.ofBytes 0 [0x07, 0xFF], 7, by decide +kernel, by decide +kernel, by decide +kernel, rfl⟩

theorem witness_DecodedSizeBounds : ∃ (s t : State) (h : BitVec 3), s.tables.TreeOk s.cfg.toParams ∧ s.built = true ∧
    2 ≤ s.ilen ∧ s.ilen ≤ s.cfg.maxIn ∧ exec (.hdrFC h) s = .next t ∧ t.err = 0 := witness_CompressedFrameSound

theorem witness_LazyWalkAgrees : ∃ (p : Params) (t : Tables) (b : Bits), t.TreeOk p ∧ b.length ≤ 65 ∧ b ≠ [] :=
  ⟨_, _, [true, false], chain_treeOk, by decide, by decide⟩

theorem witness_StreamingDecoderAgrees : ([0x6A, 0x12] : List Byte) ≠ [] := by decide

/-- E20: three times 0xFF on the chain. -/
theorem witness_RoundTripGivesInput : ∃ s t : State, s.tables.TreeOk s.cfg.toParams ∧ s.built = true ∧ s.ilen ≤ s.cfg.maxIn ∧
    exec .encode s = .next t ∧ t.olen ≤ s.cfg.maxIn :=
  ⟨chainBlock [0xFF, 0xFF, 0xFF], _, chain_treeOk, by decide, by decide, rfl, by decide +kernel⟩

theorem witness_StepKeepsInv : ∃ s t : State, s.Inv ∧ step s = .next t := by
  obtain ⟨t, h⟩ := someTables
  refine ⟨tableBlock t 65 [], tableBlock t 65 [], tableBlock_inv t 65 [] _ (by decide) h, ?_⟩
  have ha : (tableBlock t 65 []).agenda = [] := rfl
  simp [step, tableBlock_busy, ha]

theorem witness_OnlyResetClearsBuilt : ∃ s t : State, step s = .next t ∧ s.built = true ∧ t.built = false :=
  ⟨hosted 0x0006 [0x41] [.act .reset], _, rfl, by decide, State.hostReset_built _⟩

/-- A reset while a command is in progress, and one while none is. -/
theorem witness_HostResetAtAnyTime : ∀ status ∈ [(0x0005 : BitVec 16), 0x0006],
    ∃ s : State, s.status = status ∧ s.agenda = .act .reset :: [] := by
  intro status _
  exact ⟨hosted status [] [.act .reset], rfl, rfl⟩

theorem witness_StepGoesOnWhenAccepted :
    (∃ s : State, s.Inv ∧ s.agenda = .act (.writeIlen 3) :: []) ∧ ∃ s : State, s.Inv ∧ s.busy = false ∧ s.agenda = [] :=
  let ⟨t, h⟩ := someTables
  ⟨⟨tableBlock t 65 [.act (.writeIlen 3)], tableBlock_inv t 65 _ _ (by decide) h, rfl⟩,
    tableBlock t 65 [], tableBlock_inv t 65 _ _ (by decide) h, tableBlock_busy .., rfl⟩

/-- H9. -/
theorem witness_BusyHazardRefused : ∃ s : State, s.busy = true ∧ s.agenda = .act (.writeIbuf 0 0x00) :: [] ∧
    HostMove.writeIbuf 0 0x00 ≠ .reset ∧ HostMove.writeIbuf 0 0x00 ≠ .read (.ro .status) :=
  ⟨hosted 0x0005 [] [.act (.writeIbuf 0 0x00)], by decide, rfl, by decide, by decide⟩

/-- The first and the last index of IBUF. -/
theorem witness_HostWritesIbuf : ∀ a ∈ [0, 63], ∃ s : State, s.busy = false ∧ s.agenda = .act (.writeIbuf a 0x41) :: [] ∧
    a < s.cfg.maxIn := by
  intro a ha
  refine ⟨hosted 0x0006 [] [.act (.writeIbuf a 0x41)], show (0x0006 : BitVec 16).getLsbD 0 = false by decide, rfl, ?_⟩
  show a < 64
  revert a; decide

/-- The least and the greatest number of LENW = 7 bits. -/
theorem witness_HostWritesIlen : ∀ n ∈ [0, 127], ∃ s : State, s.busy = false ∧ s.agenda = .act (.writeIlen n) :: [] ∧
    n < 2 ^ s.cfg.lenW := by
  intro n hn
  refine ⟨hosted 0x0006 [] [.act (.writeIlen n)], show (0x0006 : BitVec 16).getLsbD 0 = false by decide, rfl, ?_⟩
  have h : Config.zero.lenW = 7 := by decide
  show n < 2 ^ Config.zero.lenW
  rw [h]
  revert n; decide

/-- STATUS, and the last index of each table and of OBUF. -/
theorem witness_ReadOnlyWritesIgnored : ∀ l ∈ [ReadOnlyLoc.status, .obuf 64, .freq 255, .node 510, .code 255],
    ∃ s : State, s.busy = false ∧ s.agenda = .act (.writeReadOnly l) :: [] ∧ s.outside l = none := by
  intro l hl
  refine ⟨hosted 0x0006 [] [.act (.writeReadOnly l)], show (0x0006 : BitVec 16).getLsbD 0 = false by decide, rfl, ?_⟩
  simp only [List.mem_cons, List.not_mem_nil, or_false] at hl
  obtain rfl | rfl | rfl | rfl | rfl := hl <;> rfl

/-- Whatever the location is: the hypotheses, and what the ten alternatives ask for, each index at its greatest value. -/
theorem witness_HostReadsValues (l : Loc) : ∃ s : State,
    s.Inv ∧ s.busy = false ∧ s.agenda = .act (.read l) :: [] ∧ s.built = true ∧
      (63 < s.cfg.maxIn ∧ Memory.read s.ibuf 63 = some 0x42) ∧ (64 < s.olen ∧ Memory.read s.obuf 64 = some 0x41) ∧
      (255 : SlotIdx).val = 255 ∧ (510 : NodeIdx).val = 510 :=
  let ⟨t, h⟩ := someTables
  ⟨tableBlock t 65 [.act (.read l)], tableBlock_inv t 65 _ _ (by decide) h, tableBlock_busy .., rfl, tableBlock_built ..,
    ⟨show 63 < 64 by decide, rfl⟩, ⟨show 64 < 65 by decide, rfl⟩, rfl, rfl⟩

/-- H8: STATUS is read while BUSY = 1, and while it is 0. -/
theorem witness_HostReadsValues_status : ∀ status ∈ [(0x0005 : BitVec 16), 0x0006],
    ∃ s : State, s.status = status ∧ s.agenda = .act (.read (.ro .status)) :: [] := by
  intro status _
  exact ⟨hosted status [] [.act (.read (.ro .status))], rfl, rfl⟩

/-- A block after reset: the last byte of IBUF, OBUF at both ends, and the tables at their last index. -/
theorem witness_UnspecifiedReadsFault (l : Loc) :
    let s : State := { State.afterReset Config.zero 0 with agenda := [.act (.read l)] }
    s.busy = false ∧ s.agenda = .act (.read l) :: [] ∧ (63 < s.cfg.maxIn ∧ Memory.read s.ibuf 63 = none) ∧
      (s.olen ≤ 0 ∧ 0 < s.cfg.maxOut) ∧ (s.olen ≤ 64 ∧ 64 < s.cfg.maxOut) ∧ s.built = false ∧ 510 < 511 ∧ 255 < 256 :=
  ⟨show (0 : BitVec 16).getLsbD 0 = false by decide, rfl, ⟨show 63 < 64 by decide, rfl⟩, ⟨Nat.le_refl 0, show 0 < 65 by decide⟩, ⟨Nat.zero_le 64, show 64 < 65 by decide⟩,
    show (0 : BitVec 16).getLsbD 2 = false by decide, by decide, by decide⟩

/-- OLEN = 64 = MAX_IN. -/
theorem witness_CopybackCopies : ∃ s : State, s.Inv ∧ s.busy = false ∧ s.agenda = .copyback :: [] ∧ s.olen ≤ s.cfg.maxIn :=
  let ⟨t, h⟩ := someTables
  ⟨tableBlock t 64 [.copyback], tableBlock_inv t 64 _ _ (by decide) h, tableBlock_busy .., rfl, Nat.le_refl 64⟩

end Sys2Proof.Tests
end

/-! PROOFS, family 10_state, part 1: what one command does to the state (O8, O12, O13, O14, O15). -/

namespace Sys2Proof.Machine

/-! ## The 23 rows in six shapes -/

/-- DECODE is the frame decoder for the kind of header byte that stands in IBUF[0] (R118). -/
theorem exec_decode_eq (s : State) :
    exec .decode s = .next (checkFrame s (decodeBody (headerKind (s.inputByte 0)))) := by
  show Host.Outcome.next _ = _
  congr 1

/-- The illegal rows share one meaning (R137), and the header rows are the frame decoder for one kind of header each (R63). -/
theorem exec_shape (i : Instr) :
    i = .nop ∨ i = .build ∨ i = .encode ∨ i = .decode ∨
    (∀ s, exec i s = .next (s.raise .illegalCmd .none)) ∨
    (∃ k, ∀ s, exec i s = .next (checkFrame s (decodeBody k))) := by
  cases i with
  | nop => exact .inl rfl
  | build => exact .inr (.inl rfl)
  | encode => exact .inr (.inr (.inl rfl))
  | decode => exact .inr (.inr (.inr (.inl rfl)))
  | illegal04_07 | illegal08_0F | illegal10_1F | illegal20_3F | illegal40_7F | illegal80_FF =>
    exact .inr (.inr (.inr (.inr (.inl fun _ => rfl))))
  | hdrFC h => exact .inr (.inr (.inr (.inr (.inr ⟨.compressed h, fun _ => rfl⟩))))
  | hdrFR => exact .inr (.inr (.inr (.inr (.inr ⟨.raw, fun _ => rfl⟩))))
  | hdrReserved08_0F | hdrReserved10_1F | hdrReserved20_3F | hdrReserved40_7F | hdrReserved80_BF | hdrReservedC0_DF
  | hdrReservedE0_EF | hdrReservedF0_F7 | hdrReservedF8_FB | hdrReservedFC_FD | hdrReservedFE_FE =>
    exact .inr (.inr (.inr (.inr (.inr ⟨.reserved, fun _ => rfl⟩))))

/-! ## How a command ends -/

/-- The ways in which instruction i can complete from s, each with the bound that its output keeps (R21) and with SUB set exactly
by CODEC_ERROR (R17). Unlike `exec_cases` it says which codes go together and how long an output is. -/
inductive Ending (i : Instr) (s : State) : State → Prop
  | error {e : ErrCode} {c : SubCode} (fits : e = .codecError ↔ c ≠ .none) : Ending i s (s.raise e c)
  | errorWriting {e : ErrCode} {c : SubCode} (fits : e = .codecError ↔ c ≠ .none) : Ending i s (s.raiseWriting e c)
  | output {out : List Byte} (bound : out.length ≤ s.cfg.maxOut) : Ending i s (s.succeed out)
  | nop : Ending i s (s.complete s.built .ok .none 0)
  | build (h : i = .build) : Ending i s (s.completeBuild (buildTables s.cfg.toParams s.node))

/-- R4, R110: a frame of an input that ENCODE accepts fits in OBUF. -/
theorem encodeFrame_fits {s : State} (hl : s.ilen ≤ s.cfg.maxIn) : (encodeFrame s.code s.input).length ≤ s.cfg.maxOut := by
  have hlen := (encodeFrame_length s.code s.input).2
  have hcap := s.cfg.wf.output
  rw [State.input_length] at hlen
  omega

/-- R119 to R126: how decoding a frame body ends. -/
theorem decodeBody_ending (i : Instr) (k : HeaderKind) {s : State} (hl : s.ilen ≤ s.cfg.maxIn) :
    Ending i s (decodeBody k s) := by
  obtain ⟨out, e, ⟨-, rfl⟩ | ⟨_, -, -, hw⟩⟩ | ⟨-, e⟩ | ⟨_, -, -, e⟩ | ⟨_, -, -, -, e⟩ | ⟨_, -, -, -, e⟩ :=
    decodeBody_cases k s <;> rw [e]
  · have hcap := s.cfg.wf.output
    exact .output (by rw [State.payload_length]; omega)
  · exact .output (by have := walk_length hw (Nat.zero_le _); omega)
  all_goals constructor; decide

/-- R116 to R126: how decoding a frame ends, the checks before the header included. -/
theorem checkFrame_ending (i : Instr) (k : HeaderKind) (s : State) : Ending i s (checkFrame s (decodeBody k)) := by
  obtain ⟨-, e⟩ | ⟨-, -, e⟩ | ⟨-, -, -, e⟩ | ⟨-, hl, -, e⟩ := checkFrame_cases s (decodeBody k) <;> rw [e]
  · exact .error (by decide)
  · exact .error (by decide)
  · exact .error (by decide)
  · exact decodeBody_ending i k hl

/-- R101 to R108: how ENCODE ends. -/
theorem checkData_ending (i : Instr) (s : State) : Ending i s (checkData s encodeBody) := by
  obtain ⟨-, e⟩ | ⟨-, -, e⟩ | ⟨-, hl, e⟩ := checkData_cases s encodeBody <;> rw [e]
  · exact .error (by decide)
  · exact .error (by decide)
  · exact .output (encodeFrame_fits hl)

/-- Every instruction completes in one of these ways. -/
theorem exec_ending {i : Instr} {s t : State} (h : exec i s = .next t) : Ending i s t := by
  obtain rfl | rfl | rfl | rfl | hi | ⟨k, hi⟩ := exec_shape i
  · cases h; exact .nop
  · cases h; exact .build rfl
  · cases h; exact checkData_ending _ s
  · rw [exec_decode_eq] at h; cases h; exact checkFrame_ending _ _ s
  · rw [hi] at h; cases h; exact .error (by decide)
  · rw [hi] at h; cases h; exact checkFrame_ending _ k s

/-- R18, R20: no ending touches the input, the configuration or the host's records. -/
theorem Ending.sameInput {i : Instr} {s t : State} (h : Ending i s t) : SameInput s t := by
  cases h <;> exact ⟨rfl, rfl, fun _ => rfl, rfl, rfl, rfl⟩

/-- R29, R15: every ending but BUILD's leaves the tables and BUILT. -/
theorem Ending.sameTables {i : Instr} {s t : State} (h : Ending i s t) (hi : i ≠ .build) : SameTables s t := by
  cases h with
  | error => exact ⟨rfl, rfl, rfl, State.raise_built ..⟩
  | errorWriting => exact ⟨rfl, rfl, rfl, State.raiseWriting_built ..⟩
  | output => exact ⟨rfl, rfl, rfl, State.succeed_built ..⟩
  | nop => exact ⟨rfl, rfl, rfl, State.complete_built ..⟩
  | build h => exact absurd h hi

/-- R15: no command clears BUILT. -/
theorem Ending.built_of_built {i : Instr} {s t : State} (h : Ending i s t) (hb : s.built = true) : t.built = true := by
  by_cases hi : i = .build
  · subst hi
    cases h <;> simp [hb]
  · rw [(h.sameTables hi).built, hb]

/-- Settles O12: each way in which a command can end leaves the input. -/
theorem commandsKeepInput : Obligations.CommandsKeepInput :=
  fun _ _ _ h => (exec_ending h).sameInput

/-- Settles O13: of the ways in which a command can end, BUILD's alone writes the tables. -/
theorem onlyBuildWritesTables : Obligations.OnlyBuildWritesTables :=
  fun _ _ _ hi h => (exec_ending h).sameTables hi

/-! ## What a command does not depend on -/

/-- Settles O15: each of the six shapes of a meaning builds its result from the other fields. -/
theorem workRegistersHaveNoEffect : Obligations.WorkRegistersHaveNoEffect := by
  intro i s w
  obtain rfl | rfl | rfl | rfl | hi | ⟨k, hi⟩ := exec_shape i
  · rfl
  · rfl
  · rfl
  · rfl
  · rw [hi, hi]; rfl
  · rw [hi, hi]; cases k <;> rfl

section ibuf
variable {s : State} {m : List Host.Cell}

/-- The state with other contents of IBUF. -/
def State.withIbuf (s : State) (m : List Host.Cell) : State := { s with ibuf := m }

/-- R20: the input is the bytes below ILEN. -/
theorem State.input_withIbuf (h : ∀ a, a < s.ilen → (s.withIbuf m).inputByte a = s.inputByte a) :
    (s.withIbuf m).input = s.input :=
  List.map_congr_left fun a ha => h a (List.mem_range.mp ha)

/-- The checks of R101 read BUILT, ILEN and MAX_IN, and no byte of IBUF. -/
theorem checkData_withIbuf {run run' : State → State} (h : run' (s.withIbuf m) = (run s).withIbuf m) :
    checkData (s.withIbuf m) run' = (checkData s run).withIbuf m := by
  obtain ⟨hb, e⟩ | ⟨hb, hl, e⟩ | ⟨hb, hl, e⟩ := checkData_cases s run <;> rw [e]
  · exact if_pos hb
  · exact (if_neg (ne_of_eq_of_ne hb (by decide))).trans (if_pos hl)
  · rw [← h]; exact checkData_pass hb hl

/-- The checks of R116 and R117 read no byte of IBUF either; the header byte is read only where ILEN is not 0. -/
theorem checkFrame_withIbuf {run run' : State → State}
    (h : 0 < s.ilen → run' (s.withIbuf m) = (run s).withIbuf m) :
    checkFrame (s.withIbuf m) run' = (checkFrame s run).withIbuf m := by
  refine checkData_withIbuf ?_
  by_cases h0 : s.ilen = 0
  · rw [if_pos h0]; exact if_pos h0
  · rw [if_neg h0, ← h (Nat.pos_of_ne_zero h0)]; exact if_neg h0

/-- R119 to R126: the body of a frame is decoded from its payload. -/
theorem decodeBody_withIbuf (k : HeaderKind) (h : (s.withIbuf m).input = s.input) :
    decodeBody k (s.withIbuf m) = (decodeBody k s).withIbuf m := by
  have hp : (s.withIbuf m).payload = s.payload := congrArg (List.drop 1) h
  cases k with
  | raw => exact congrArg (fun x => (s.succeed x).withIbuf m) hp
  | reserved => rfl
  | compressed p =>
    simp only [decodeBody, hp]
    split
    · rfl
    · show (s.withIbuf m).finishWalk (walk s.node s.root s.cfg.maxOut s.root 0 (retained p s.payload)) = _
      match walk s.node s.root s.cfg.maxOut s.root 0 (retained p s.payload) with
      | .ok _ => rfl
      | .error .overflow => rfl
      | .error .incompletePath => rfl

/-- R102 to R108: ENCODE's frame is made from the input. -/
theorem encodeBody_withIbuf (h : (s.withIbuf m).input = s.input) :
    encodeBody (s.withIbuf m) = (encodeBody s).withIbuf m :=
  congrArg (fun x => (s.succeed (encodeFrame s.code x)).withIbuf m) h

end ibuf

/-- Settles O14: a command reads IBUF through its input alone, and DECODE its header byte only where the input has one. -/
theorem bytesBeyondIlenIgnored : Obligations.BytesBeyondIlenIgnored := by
  intro i s t m hbytes h
  have hin : (s.withIbuf m).input = s.input := State.input_withIbuf hbytes
  show exec i (s.withIbuf m) = .next (t.withIbuf m)
  obtain rfl | rfl | rfl | rfl | hi | ⟨k, hi⟩ := exec_shape i
  · cases h; rfl
  · cases h; rfl
  · cases h
    exact congrArg _ (checkData_withIbuf (encodeBody_withIbuf hin))
  · rw [exec_decode_eq] at h ⊢
    cases h
    refine congrArg _ (checkFrame_withIbuf fun h0 => ?_)
    have hhead : (s.withIbuf m).inputByte 0 = s.inputByte 0 := hbytes 0 h0
    rw [hhead]
    exact decodeBody_withIbuf _ hin
  · rw [hi] at h ⊢
    cases h; rfl
  · rw [hi] at h ⊢
    cases h
    exact congrArg _ (checkFrame_withIbuf fun _ => decodeBody_withIbuf k hin)

/-! ## The start of a command -/

/-- While the engine is idle, the host's next move is the step. -/
theorem step_move_of_idle {s : State} {m : HostMove} {rest : List Action} (hb : s.busy = false)
    (ha : s.agenda = .act m :: rest) : step s = idleMove m { s with agenda := rest } := by
  simp [step, hb, ha, idleAction]

/-- Settles O8: the step is `State.start`, whose laws say what it leaves. -/
theorem writeCmdStarts : Obligations.WriteCmdStarts := by
  intro s c rest hb ha
  let u : State := { s with agenda := rest }
  exact ⟨u.start c, step_move_of_idle hb ha, u.start_busy c, u.start_done c, u.start_built c, u.start_err c, u.start_sub c, rfl,
    rfl, ⟨rfl, rfl, rfl, u.start_built c⟩, fun _ => rfl, ⟨rfl, rfl, fun _ => rfl, rfl, rfl, rfl⟩⟩

end Sys2Proof.Machine

/-! PROOFS, family 10_state, part 2: what every step keeps (O50, O51). -/

namespace Sys2Proof.Machine

/-! ## Legal STATUS words -/

/-- R13 to R17 speak of STATUS alone. -/
theorem State.StatusOk.of_status_eq {s t : State} (h : s.StatusOk) (e : t.status = s.status) : t.StatusOk := by
  obtain ⟨h3, h15, hbd, herr, hsub, hse⟩ := h
  constructor <;> simp only [State.busy, State.done, State.err, State.sub, e]
  exacts [h3, h15, hbd, herr, hsub, hse]

/-- R16, R17: the word of a completion is legal when SUB goes with ERR. -/
theorem statusOk_of_completion {t : State} {b : Bool} {e : ErrCode} {c : SubCode}
    (h : t.status = statusWord false true b e.code c.code) (fits : e = .codecError ↔ c ≠ .none) : t.StatusOk where
  reserved3 := by rw [h]; exact statusWord_reserved3 ..
  reserved15 := by rw [h]; exact statusWord_reserved15 ..
  busyDone := by rw [State.busy, h, statusWord_busy]; rfl
  err := by rw [State.err, h, statusWord_err]; cases e <;> decide
  sub := by rw [State.sub, h, statusWord_sub]; cases c <;> decide
  subErr := by
    rw [State.err, State.sub, h, statusWord_err, statusWord_sub]
    have hc : c.code = 0 ↔ c = .none := by cases c <;> decide
    have he : e.code = 1 ↔ e = .codecError := by cases e <;> decide
    rw [hc, ne_eq, he, fits, not_not]

/-- R14: the start of a command leaves ERR and SUB, so a legal STATUS stays legal. -/
theorem State.StatusOk.start {s : State} (h : s.StatusOk) (c : Byte) : (s.start c).StatusOk where
  reserved3 := (startedStatus_reserved3 _).trans h.reserved3
  reserved15 := (startedStatus_field _ 12 (by decide)).trans h.reserved15
  busyDone := by simp
  err := by rw [State.start_err]; exact h.err
  sub := by rw [State.start_sub]; exact h.sub
  subErr := by rw [State.start_err, State.start_sub]; exact h.subErr

/-! ## The invariant under each shared update -/

namespace State.Inv
variable {s : State}

/-- The host's script and what it has read are no part of the invariant. -/
theorem withHost (h : s.Inv) (agenda : List Action) (rdata : Option ReadValue) :
    ({ s with agenda := agenda, rdata := rdata } : State).Inv where
  status := h.status.of_status_eq rfl
  phase := h.phase
  ilen := h.ilen
  olen := h.olen
  ibuf := h.ibuf
  obuf := h.obuf
  output := h.output
  tables := h.tables

theorem withAgenda (h : s.Inv) (agenda : List Action) : ({ s with agenda := agenda } : State).Inv :=
  h.withHost agenda s.rdata

/-- R140: the host's write of a byte below MAX_IN. -/
theorem writeIbuf (h : s.Inv) {a : Nat} (ha : a < s.cfg.maxIn) (v : Byte) :
    ({ s with ibuf := Memory.write s.ibuf a v } : State).Inv where
  status := h.status.of_status_eq rfl
  phase := h.phase
  ilen := h.ilen
  olen := h.olen
  ibuf := Memory.wf_write h.ibuf ha
  obuf := h.obuf
  output := h.output
  tables := h.tables

/-- R141: the host's write of LENW bits to ILEN. -/
theorem writeIlen (h : s.Inv) {n : Nat} (hn : n < 2 ^ s.cfg.lenW) : ({ s with ilen := n } : State).Inv where
  status := h.status.of_status_eq rfl
  phase := h.phase
  ilen := hn
  olen := h.olen
  ibuf := h.ibuf
  obuf := h.obuf
  output := h.output
  tables := h.tables

/-- R135: the start of a command. -/
theorem start (h : s.Inv) (c : Byte) : (s.start c).Inv where
  status := h.status.start c
  phase := by simp
  ilen := h.ilen
  olen := h.olen
  ibuf := h.ibuf
  obuf := h.obuf
  output := h.output
  tables := by rw [State.start_built]; exact h.tables

/-- R175: the invariant holds after every reset, whatever held before it. -/
theorem hostReset (s : State) : s.hostReset.Inv where
  status := by constructor <;> simp
  phase := by simp
  ilen := Nat.two_pow_pos _
  olen := Nat.zero_le _
  ibuf := rfl
  obuf := rfl
  output a ha := absurd ha (Nat.not_lt_zero a)
  tables := by simp

/-- R156: a completion with OLEN = 0 that leaves BUILT, the tables and OBUF: an error, or NOP. -/
theorem raise (h : s.Inv) {e : ErrCode} {c : SubCode} (fits : e = .codecError ↔ c ≠ .none) : (s.raise e c).Inv where
  status := statusOk_of_completion rfl fits
  phase := by simp
  ilen := h.ilen
  olen := Nat.zero_le _
  ibuf := h.ibuf
  obuf := h.obuf
  output a ha := absurd ha (Nat.not_lt_zero a)
  tables := by rw [State.raise_built]; exact h.tables

/-- R127, R156: an error found while OBUF was being written. -/
theorem raiseWriting (h : s.Inv) {e : ErrCode} {c : SubCode} (fits : e = .codecError ↔ c ≠ .none) :
    (s.raiseWriting e c).Inv where
  status := statusOk_of_completion rfl fits
  phase := by simp
  ilen := h.ilen
  olen := Nat.zero_le _
  ibuf := h.ibuf
  obuf := rfl
  output a ha := absurd ha (Nat.not_lt_zero a)
  tables := by rw [State.raiseWriting_built]; exact h.tables

/-- R19, R21: a success with an output that fits in OBUF. -/
theorem succeed (h : s.Inv) {out : List Byte} (bound : out.length ≤ s.cfg.maxOut) : (s.succeed out).Inv where
  status := statusOk_of_completion (e := .ok) (c := .none) rfl (by decide)
  phase := by simp
  ilen := h.ilen
  olen := bound
  ibuf := h.ibuf
  obuf := Memory.wf_ofBytes bound
  output a ha := by simpa using ha
  tables := by rw [State.succeed_built]; exact h.tables

/-- R92: BUILD's completion makes the tables BUILD's. -/
theorem completeBuild (h : s.Inv) (arena : Arena) : (s.completeBuild (buildTables s.cfg.toParams arena)).Inv where
  status := statusOk_of_completion (e := .ok) (c := .none) rfl (by decide)
  phase := by simp
  ilen := h.ilen
  olen := Nat.zero_le _
  ibuf := h.ibuf
  obuf := h.obuf
  output a ha := absurd ha (Nat.not_lt_zero a)
  tables _ := ⟨arena, rfl⟩

/-- However a command ends, the invariant holds then. -/
theorem ending {i : Instr} {t : State} (h : s.Inv) (e : Ending i s t) : t.Inv := by
  cases e with
  | error fits => exact h.raise fits
  | errorWriting fits => exact h.raiseWriting fits
  | output bound => exact h.succeed bound
  | nop => exact h.raise (e := .ok) (c := .none) (by decide)
  | build => exact h.completeBuild s.node

/-- R183: the host's two moves while the engine works. -/
theorem busyMove {m : HostMove} {t : State} (h : s.Inv) (e : busyMove m s = .next t) : t.Inv := by
  obtain ⟨-, rfl⟩ | ⟨-, rfl⟩ := busyMove_cases e
  · exact h.withHost s.agenda _
  · exact hostReset s

/-- R140 to R144: the host's moves while the engine is idle. -/
theorem idleMove {m : HostMove} {t : State} (h : s.Inv) (e : idleMove m s = .next t) : t.Inv := by
  obtain ⟨a, v, -, ha, rfl⟩ | ⟨n, -, hn, rfl⟩ | ⟨c, -, rfl⟩ | ⟨l, -, -, rfl⟩ | ⟨l, v, -, -, rfl⟩ | ⟨-, rfl⟩ :=
    idleMove_cases e
  · exact h.writeIbuf ha v
  · exact h.writeIlen hn
  · exact h.start c
  · exact h
  · exact h.withHost s.agenda _
  · exact hostReset s

end State.Inv

/-! ## Steps -/

/-- When the engine completes a command, it does so as one of the instructions does. -/
theorem runEngine_ending {s t : State} (h : runEngine s = .next t) : ∃ i, Ending i s t := by
  unfold runEngine at h
  split at h
  · exact ⟨_, exec_ending h⟩
  · cases h

/-- Settles O50: every way in which a step can answer keeps the invariant. -/
theorem stepKeepsInv : Obligations.StepKeepsInv := by
  intro s t hs h
  obtain ⟨-, h⟩ | ⟨m, rest, -, -, h⟩ | ⟨m, rest, -, -, h⟩ | ⟨rest, -, -, -, rfl⟩ | ⟨rest, -, -, rfl⟩ | ⟨-, rfl⟩ := step_cases h
  · obtain ⟨i, hi⟩ := runEngine_ending h
    exact hs.ending hi
  · exact (hs.withAgenda rest).busyMove h
  · exact (hs.withAgenda rest).idleMove h
  · exact hs.withAgenda rest
  · exact hs.withAgenda _
  · exact hs

/-- R15: of the host's moves while the engine works, only a reset changes BUILT. -/
theorem busyMove_built {m : HostMove} {s t : State} (h : busyMove m s = .next t) (hm : m ≠ .reset) : t.built = s.built := by
  obtain ⟨-, rfl⟩ | ⟨rfl, -⟩ := busyMove_cases h
  · rfl
  · exact absurd rfl hm

/-- R15: of the host's moves while the engine is idle, only a reset changes BUILT. -/
theorem idleMove_built {m : HostMove} {s t : State} (h : idleMove m s = .next t) (hm : m ≠ .reset) : t.built = s.built := by
  obtain ⟨_, _, -, -, rfl⟩ | ⟨_, -, -, rfl⟩ | ⟨c, -, rfl⟩ | ⟨_, -, -, rfl⟩ | ⟨_, _, -, -, rfl⟩ | ⟨rfl, -⟩ := idleMove_cases h
  · rfl
  · rfl
  · exact s.start_built c
  · rfl
  · rfl
  · exact absurd rfl hm

/-- Settles O51: commands do not clear BUILT, and of the host's moves only a reset changes it. -/
theorem onlyResetClearsBuilt : Obligations.OnlyResetClearsBuilt := by
  intro s t h hb ht
  have kept (e : t.built = s.built) : False := by simp [e, hb] at ht
  obtain ⟨-, h⟩ | ⟨m, rest, -, ha, h⟩ | ⟨m, rest, -, ha, h⟩ | ⟨rest, -, -, -, rfl⟩ | ⟨rest, -, -, rfl⟩ | ⟨-, rfl⟩ := step_cases h
  · obtain ⟨i, hi⟩ := runEngine_ending h
    exact absurd (hi.built_of_built hb) (by simp [ht])
  · by_cases hm : m = .reset
    · exact ⟨rest, hm ▸ ha⟩
    · have e := busyMove_built h hm
      exact (kept e).elim
  · by_cases hm : m = .reset
    · exact ⟨rest, hm ▸ ha⟩
    · have e := idleMove_built h hm
      exact (kept e).elim
  · exact (kept rfl).elim
  · exact (kept rfl).elim
  · exact (kept rfl).elim

end Sys2Proof.Machine

/-! PROOFS, family 10_state, part 3: an arena that is a tree in the sense of R28 (a) to (c) has exactly one path from the root to
each node, and the traversal of R91 finds it (O38; O19 uses it). -/

namespace Sys2Proof

/-! ## Edges and paths -/

section paths
variable {node : Arena}

/-- The field of entry m that bit c selects names n (R123). -/
def Edge (node : Arena) (m : NodeIdx) (c : Bool) (n : NodeIdx) : Prop :=
  ∃ c0 c1 w, node[m] = .internal c0 c1 w ∧ (if c then c1 else c0) = n

theorem mem_children_iff {m n : NodeIdx} : n ∈ (node[m]).children ↔ ∃ c, Edge node m c n := by
  unfold Edge
  cases node[m] with
  | leaf s w => simp [NodeEntry.children]
  | internal c0 c1 w => simp [NodeEntry.children, eq_comm]

theorem mem_childList_iff {n : NodeIdx} : n ∈ childList node ↔ ∃ m c, Edge node m c n := by
  simp only [← mem_children_iff, childList, List.mem_flatMap, Vector.mem_toList_iff, Vector.mem_iff_getElem]
  constructor
  · rintro ⟨_, ⟨i, hi, rfl⟩, h⟩; exact ⟨⟨i, hi⟩, h⟩
  · rintro ⟨m, h⟩; exact ⟨_, ⟨m, m.isLt, rfl⟩, h⟩

@[simp] theorem descend_nil (n : NodeIdx) : descend node n [] = some n := rfl

/-- The first bit of a path follows an edge. -/
theorem descend_cons {n k : NodeIdx} {c : Bool} {b : Bits} :
    descend node n (c :: b) = some k ↔ ∃ m, Edge node n c m ∧ descend node m b = some k := by
  unfold Edge
  rw [descend]
  cases node[n] with
  | leaf s w => simp
  | internal c0 c1 w => simp

/-- So does the last one. -/
theorem descend_concat {n k : NodeIdx} {b : Bits} {c : Bool} :
    descend node n (b ++ [c]) = some k ↔ ∃ m, descend node n b = some m ∧ Edge node m c k := by
  induction b generalizing n with
  | nil => simp [descend_cons]
  | cons d rest ih =>
    simp only [List.cons_append, descend_cons, ih]
    constructor
    · rintro ⟨m, hm, m', h, e⟩; exact ⟨m', ⟨m, hm, h⟩, e⟩
    · rintro ⟨m', ⟨m, hm, h⟩, e⟩; exact ⟨m, hm, m', h, e⟩

/-- R91: the traversal lists the leaves below n, each with its path, down to its depth bound. -/
theorem mem_traverse {fuel : Nat} {n : NodeIdx} {s : Byte} {b : Bits} :
    (s, b) ∈ traverse node fuel n ↔ b.length < fuel ∧ ∃ k w, descend node n b = some k ∧ node[k] = .leaf s w := by
  induction fuel generalizing n b with
  | zero => simp [traverse]
  | succ fuel ih =>
    rw [traverse]
    cases hn : node[n] with
    | leaf s' w =>
      cases b with
      | nil => simp [hn, eq_comm, -Fin.getElem_fin]
      | cons c rest => simp [descend, hn]
    | internal c0 c1 w =>
      cases b with
      | nil => simp [hn, -Fin.getElem_fin]
      | cons c rest => cases c <;> simp [descend, hn, ih]

end paths

/-! ## Trees -/

/-- R28 (a) and (b): the leaves, and internal nodes above their children. -/
structure ArenaNodes (p : Params) (node : Arena) : Prop where
  leaves : ∀ s : Byte, node[leafIdx s] = .leaf s p.freq[symIdx s]
  internals : ∀ n : NodeIdx, 256 ≤ n.val →
    ∃ n1 n2 : NodeIdx, n1.val < n.val ∧ n2.val < n.val ∧ n1 ≠ n2 ∧ node[n] = mergedNode p node n1 n2

/-- R28 (a) to (c): what `Tables.TreeOk` says of the arena alone. -/
structure ArenaTree (p : Params) (node : Arena) : Prop extends ArenaNodes p node where
  once : ∀ n : NodeIdx, (childList node).count n = if n = rootIdx then 0 else 1

/-- R86: whichever way round, the children of a merged node are the two nodes merged. -/
theorem mergedNode_eq (p : Params) (node : Arena) (n1 n2 : NodeIdx) :
    ∃ w, mergedNode p node n1 n2 = .internal n2 n1 w ∨ mergedNode p node n1 n2 = .internal n1 n2 w := by
  unfold mergedNode
  cases p.k1Bit
  · exact ⟨_, .inr rfl⟩
  · exact ⟨_, .inl rfl⟩

/-- The indices below 256 are those of the leaves (R89). -/
theorem exists_eq_leafIdx {n : NodeIdx} (h : n.val < 256) : ∃ s, n = leafIdx s :=
  ⟨BitVec.ofNat 8 n.val, Fin.ext (by simp [leafIdx, Nat.mod_eq_of_lt h])⟩

theorem leafIdx_ne_rootIdx (s : Byte) : leafIdx s ≠ rootIdx := by
  have := s.isLt
  intro h
  have hv : s.toNat = 510 := congrArg Fin.val h
  omega

namespace ArenaNodes
variable {p : Params} {node : Arena}

theorem leaf_or_merged (h : ArenaNodes p node) (n : NodeIdx) :
    (∃ s, n = leafIdx s ∧ node[n] = .leaf s p.freq[symIdx s]) ∨
    ∃ n1 n2 w, n1.val < n.val ∧ n2.val < n.val ∧ node[n] = .internal n1 n2 w := by
  obtain hn | hn := Nat.lt_or_ge n.val 256
  · obtain ⟨s, rfl⟩ := exists_eq_leafIdx hn
    exact .inl ⟨s, rfl, h.leaves s⟩
  · obtain ⟨n1, n2, h1, h2, -, e⟩ := h.internals n hn
    obtain ⟨w, e' | e'⟩ := mergedNode_eq p node n1 n2
    · exact .inr ⟨n2, n1, w, h2, h1, e.trans e'⟩
    · exact .inr ⟨n1, n2, w, h1, h2, e.trans e'⟩

/-- Every leaf entry stands at its symbol's index. -/
theorem eq_leafIdx_of_leaf (h : ArenaNodes p node) {n : NodeIdx} {s : Byte} {w : Weight} (e : node[n] = .leaf s w) :
    n = leafIdx s := by
  obtain ⟨s', rfl, e'⟩ | ⟨_, _, _, -, -, e'⟩ := h.leaf_or_merged n <;> rw [e'] at e
  · cases e; rfl
  · cases e

/-- Edges lead to smaller indices. -/
theorem edge_lt (h : ArenaNodes p node) {m n : NodeIdx} {c : Bool} (e : Edge node m c n) : n.val < m.val := by
  obtain ⟨c0, c1, w, e, rfl⟩ := e
  obtain ⟨_, -, e'⟩ | ⟨_, _, _, h1, h2, e'⟩ := h.leaf_or_merged m <;> rw [e'] at e <;> cases e
  cases c
  · exact h1
  · exact h2

/-- R28 (c): the root has no parent, since it has the greatest index. -/
theorem not_edge_root (h : ArenaNodes p node) {m : NodeIdx} {c : Bool} : ¬ Edge node m c rootIdx := by
  intro e
  have hlt : 510 < m.val := h.edge_lt e
  omega

end ArenaNodes

namespace ArenaTree
variable {p : Params} {node : Arena}

/-- The two children of a node are different. -/
theorem edge_bit_unique (h : ArenaTree p node) {m n : NodeIdx} {c c' : Bool} (e : Edge node m c n) (e' : Edge node m c' n) :
    c = c' := by
  by_contra hc
  obtain ⟨c0, c1, w, e, hn⟩ := e
  obtain ⟨c0', c1', w', e', hn'⟩ := e'
  rw [e] at e'
  cases e'
  have hm : (childList node).count n ≥ (node[m]).children.count n :=
    (List.sublist_flatten_of_mem (List.mem_map_of_mem (by simp))).count_le n
  have htwo : (node[m]).children.count n = 2 := by
    cases c <;> cases c' <;> simp_all [NodeEntry.children]
  have hone := h.once n
  split at hone <;> omega

/-- R28 (c): a node has one parent only. -/
theorem edge_unique (h : ArenaTree p node) {m m' n : NodeIdx} {c c' : Bool} (e : Edge node m c n) (e' : Edge node m' c' n) :
    m = m' ∧ c = c' := by
  have hnodup : (childList node).Nodup := List.nodup_iff_count_le_one.mpr fun n => by rw [h.once]; split <;> omega
  have hdisj := List.pairwise_iff_getElem.mp (List.nodup_flatMap.mp hnodup).2
  have apart (i j : NodeIdx) (hij : i.val < j.val) : (node[i]).children.Disjoint (node[j]).children := by
    simpa using hdisj i.val j.val (by simp) (by simp) hij
  have hm : m = m' := by
    obtain hlt | heq | hlt := lt_trichotomy m.val m'.val
    · exact (apart m m' hlt (mem_children_iff.mpr ⟨c, e⟩) (mem_children_iff.mpr ⟨c', e'⟩)).elim
    · exact Fin.ext heq
    · exact (apart m' m hlt (mem_children_iff.mpr ⟨c', e'⟩) (mem_children_iff.mpr ⟨c, e⟩)).elim
  subst hm
  exact ⟨rfl, h.edge_bit_unique e e'⟩

/-- R28 (c): every other node has a parent. -/
theorem exists_edge (h : ArenaTree p node) {n : NodeIdx} (hn : n ≠ rootIdx) : ∃ m c, Edge node m c n := by
  rw [← mem_childList_iff, ← List.count_pos_iff, h.once, if_neg hn]
  exact Nat.one_pos

/-- From the root a path leads to every node: up from parent to parent. -/
theorem exists_path (h : ArenaTree p node) (n : NodeIdx) : ∃ b, descend node rootIdx b = some n := by
  by_cases hn : n = rootIdx
  · exact ⟨[], by rw [hn]; rfl⟩
  · obtain ⟨m, c, e⟩ := h.exists_edge hn
    have := h.edge_lt e
    obtain ⟨b, hb⟩ := h.exists_path m
    exact ⟨b ++ [c], descend_concat.mpr ⟨m, hb, e⟩⟩
termination_by 511 - n.val

/-- Two paths from the root to the same node are equal: their last edges are, and then the paths before these. -/
theorem path_unique (h : ArenaTree p node) {n : NodeIdx} {b b' : Bits} (hb : descend node rootIdx b = some n)
    (hb' : descend node rootIdx b' = some n) : b = b' := by
  have root_only {c : Bool} {b : Bits} (e : descend node rootIdx (b ++ [c]) = some rootIdx) : False :=
    let ⟨_, _, e⟩ := descend_concat.mp e
    h.not_edge_root e
  induction b using List.reverseRecOn generalizing n b' with
  | nil =>
    cases hb
    cases b' using List.reverseRecOn with
    | nil => rfl
    | append_singleton d c => exact (root_only hb').elim
  | append_singleton d c ih =>
    cases b' using List.reverseRecOn with
    | nil => cases hb'; exact (root_only hb).elim
    | append_singleton d' c' =>
      obtain ⟨m, hm, e⟩ := descend_concat.mp hb
      obtain ⟨m', hm', e'⟩ := descend_concat.mp hb'
      obtain ⟨rfl, rfl⟩ := h.edge_unique e e'
      rw [ih hm hm']

/-- A path is no longer than the index it starts from. -/
theorem path_length (h : ArenaTree p node) {n k : NodeIdx} {b : Bits} (hb : descend node n b = some k) :
    b.length ≤ n.val := by
  induction b generalizing n with
  | nil => exact Nat.zero_le _
  | cons c rest ih =>
    obtain ⟨m, e, hm⟩ := descend_cons.mp hb
    have := h.edge_lt e
    have := ih hm
    rw [List.length_cons]; omega

/-- R91: the traversal from the root pairs each symbol with the path to its leaf. -/
theorem mem_traverse_root (h : ArenaTree p node) {s : Byte} {b : Bits} :
    (s, b) ∈ traverse node 511 rootIdx ↔ descend node rootIdx b = some (leafIdx s) := by
  rw [mem_traverse]
  constructor
  · rintro ⟨-, k, w, hk, e⟩; rw [hk, h.eq_leafIdx_of_leaf e]
  · intro hb
    exact ⟨Nat.lt_succ_of_le (h.path_length hb), _, _, hb, h.leaves s⟩

end ArenaTree

/-- A key that a list pairs with one value only is looked up as that value. -/
theorem lookup_eq_some_of_unique {α β : Type} [BEq α] [LawfulBEq α] {l : List (α × β)} {a : α} {b : β}
    (hmem : (a, b) ∈ l) (huniq : ∀ b', (a, b') ∈ l → b' = b) : l.lookup a = some b := by
  cases hl : l.lookup a with
  | none => simpa using List.lookup_eq_none_iff.mp hl _ hmem
  | some b' =>
    obtain ⟨l₁, l₂, rfl, -⟩ := List.lookup_eq_some_iff.mp hl
    rw [huniq b' (by simp)]

/-- R91: the entry of a symbol is what the traversal pairs with it. -/
theorem codeTable_symIdx (node : Arena) (root : NodeIdx) (s : Byte) :
    (codeTable node root)[symIdx s] = ((traverse node 511 root).lookup s).getD [] := by
  simp [codeTable, symIdx]

/-- R28 (e): the code word of a symbol is the one path from the root to its leaf. -/
theorem ArenaTree.descend_eq_leaf_iff {p : Params} {node : Arena} (h : ArenaTree p node) (s : Byte) (b : Bits) :
    descend node rootIdx b = some (leafIdx s) ↔ b = (codeTable node rootIdx)[symIdx s] := by
  obtain ⟨b₀, hb₀⟩ := h.exists_path (leafIdx s)
  have hword : (codeTable node rootIdx)[symIdx s] = b₀ := by
    rw [codeTable_symIdx, lookup_eq_some_of_unique (h.mem_traverse_root.mpr hb₀)
      fun b' hb' => h.path_unique (h.mem_traverse_root.mp hb') hb₀, Option.getD_some]
  rw [hword]
  exact ⟨fun hb => h.path_unique hb hb₀, fun e => e ▸ hb₀⟩

/-- R28: the code table of R91 and the root's index complete a tree. -/
theorem ArenaTree.treeOk {p : Params} {node : Arena} (h : ArenaTree p node) :
    Tables.TreeOk p { node := node, root := rootIdx, code := codeTable node rootIdx } where
  leaves := h.leaves
  internals := h.internals
  once := h.once
  root := rfl
  codes := h.descend_eq_leaf_iff

/-- Settles O38: by R28 (e) the code word is a path to the symbol's leaf, and it is not empty since the leaf is not the root. -/
theorem treeReadsBack : Obligations.TreeReadsBack := by
  intro p t x h s _
  have hpath : descend t.node rootIdx t.code[symIdx s] = some (leafIdx s) := (h.codes s _).mpr rfl
  refine ⟨fun hnil => ?_, leafIdx s, _, by rw [h.root]; exact hpath, h.leaves s⟩
  rw [hnil] at hpath
  exact leafIdx_ne_rootIdx s (Option.some.inj hpath).symm

end Sys2Proof

/-! PROOFS, family 10_state, part 4: the 255 merges of BUILD make such a tree (O19). After m merges the live slots hold the roots of
a forest of 256 - m trees over the nodes 0 to 255 + m; the last merge leaves one tree, with root 510. -/

namespace Sys2Proof

/-! ## The two selections find a slot -/

/-- The slots among which `select_lowest` chooses (R83). -/
def Eligible (slot : Slots) (excl : Option SlotIdx) (j : SlotIdx) : Prop :=
  (slot[j]).isSome = true ∧ excl ≠ some j

section select
variable {F : WFmt} {node : Arena} {slot : Slots} {excl best : Option SlotIdx} {j : SlotIdx}

/-- R80: one slot of the scan keeps the best so far or takes the slot. -/
theorem betterSlot_cases :
    (betterSlot F node slot excl best j = best ∧ (Eligible slot excl j → best.isSome = true)) ∨
    (betterSlot F node slot excl best j = some j ∧ Eligible slot excl j) := by
  unfold betterSlot
  by_cases hx : excl = some j
  · exact .inl ⟨if_pos hx, fun h => absurd hx h.2⟩
  · rw [if_neg hx]
    cases hj : slot[j] with
    | none => exact .inl ⟨by simp only [slotWeight, hj, Option.map_none], fun h => by simp [Eligible, hj, -Fin.getElem_fin] at h⟩
    | some n =>
      have he : Eligible slot excl j := ⟨by rw [hj]; rfl, hx⟩
      have hw : slotWeight node slot j = some (node[n]).weight := by rw [slotWeight, hj]; rfl
      rw [hw]
      cases hb : best.bind (slotWeight node slot) with
      | none => exact .inr ⟨rfl, he⟩
      | some v =>
        have hsome : best.isSome = true := by
          cases best with
          | none => cases hb
          | some _ => rfl
        cases hlt : F.wlt (node[n]).weight v with
        | true => exact .inr ⟨if_pos hlt, he⟩
        | false => exact .inl ⟨by simp only [hlt, Bool.false_eq_true, if_false], fun _ => hsome⟩

/-- R80: the scan of a list of slots ends with an eligible slot, if it starts with one or meets one. -/
theorem exists_foldl_betterSlot (l : List SlotIdx) (hbest : ∀ k, best = some k → Eligible slot excl k)
    (hl : best.isSome = true ∨ ∃ j ∈ l, Eligible slot excl j) :
    ∃ k, l.foldl (betterSlot F node slot excl) best = some k ∧ Eligible slot excl k := by
  induction l generalizing best with
  | nil =>
    obtain hb | ⟨_, hj, -⟩ := hl
    · obtain ⟨k, rfl⟩ := Option.isSome_iff_exists.mp hb
      exact ⟨k, rfl, hbest k rfl⟩
    · cases hj
  | cons j rest ih =>
    rw [List.foldl_cons]
    obtain ⟨e, hj⟩ | ⟨e, hj⟩ := betterSlot_cases (F := F) (node := node) (slot := slot) (excl := excl) (best := best) (j := j) <;>
      rw [e]
    · refine ih hbest ?_
      obtain hb | ⟨i, hi, he⟩ := hl
      · exact .inl hb
      · obtain rfl | hi := List.mem_cons.mp hi
        · exact .inl (hj he)
        · exact .inr ⟨i, hi, he⟩
    · exact ih (fun k hk => Option.some.inj hk ▸ hj) (.inl rfl)

/-- R83: where a slot is eligible, `select_lowest` selects an eligible one. -/
theorem exists_selectLowest (p : Params) (h : ∃ j, Eligible slot excl j) :
    ∃ k, selectLowest p node slot excl = some k ∧ Eligible slot excl k := by
  obtain ⟨j, hj⟩ := h
  refine exists_foldl_betterSlot _ (by simp) (.inr ⟨j, ?_, hj⟩)
  cases p.scanOrder
  exact List.mem_finRange j

end select

/-! ## Counting slots -/

/-- Writing an entry takes the old one out of a count and the new one in. -/
theorem countP_set_add {α : Type} {n : Nat} (q : α → Bool) (xs : Vector α n) (i : Nat) (a : α) (h : i < n) :
    (xs.set i a h).countP q + (q xs[i]).toNat = xs.countP q + (q a).toNat := by
  have hpos : q xs[i] = true → 0 < xs.countP q := fun hq => Vector.countP_pos_iff.mpr ⟨_, Vector.getElem_mem h, hq⟩
  rw [Vector.countP_set]
  cases hq : q xs[i] with
  | true =>
    have := hpos hq
    cases q a <;> simp <;> omega
  | false => cases q a <;> simp

theorem liveCount_eq (slot : Slots) : liveCount slot = slot.countP Option.isSome := Vector.countP_toList

/-- One live slot is eligible when none is excluded. -/
theorem exists_eligible_none {slot : Slots} (h : 1 ≤ liveCount slot) : ∃ j, Eligible slot none j := by
  rw [liveCount_eq] at h
  obtain ⟨a, ha, hlive⟩ := Vector.countP_pos_iff.mp h
  obtain ⟨j, hj, rfl⟩ := Vector.mem_iff_getElem.mp ha
  exact ⟨⟨j, hj⟩, hlive, by simp⟩

/-- Of two live slots one is not the excluded one: it is still live when that one has been emptied. -/
theorem exists_eligible_some {slot : Slots} (h : 2 ≤ liveCount slot) (k : SlotIdx) : ∃ j, Eligible slot (some k) j := by
  have hset := countP_set_add Option.isSome slot k none k.isLt
  have hone : (slot[k.val].isSome).toNat ≤ 1 := Bool.toNat_le _
  obtain ⟨j, hlive, -⟩ := exists_eligible_none (slot := slot.set k none) (by
    rw [liveCount_eq] at h ⊢
    simp only [Option.isSome_none, Bool.toNat_false] at hset
    omega)
  have hj : (slot.set k none)[j] = if k.val = j.val then none else slot[j] := Vector.getElem_set ..
  rw [hj] at hlive
  by_cases hkj : k.val = j.val
  · rw [if_pos hkj] at hlive; cases hlive
  · rw [if_neg hkj] at hlive
    exact ⟨j, hlive, fun e => hkj (congrArg Fin.val (Option.some.inj e))⟩

/-- R87: a merge takes the two merged nodes out of the slots and puts the new one in, whichever slot MERGE_SLOT names. -/
theorem countP_mergedSlots (p : Params) {slot : Slots} {k1 k2 : SlotIdx} {n1 n2 : NodeIdx} (new : NodeIdx)
    (q : Option NodeIdx → Bool) (hq : q none = false) (hk : k1 ≠ k2) (h1 : slot[k1] = some n1) (h2 : slot[k2] = some n2) :
    (mergedSlots p slot k1 k2 new).countP q + (q (some n1)).toNat + (q (some n2)).toNat =
      slot.countP q + (q (some new)).toNat := by
  have write_clear {i j : SlotIdx} {a b : NodeIdx} (hij : i ≠ j) (ha : slot[i] = some a) (hb : slot[j] = some b) :
      ((slot.set i (some new)).set j none).countP q + (q (some a)).toNat + (q (some b)).toNat =
        slot.countP q + (q (some new)).toNat := by
    have hwrite := countP_set_add q slot i (some new) i.isLt
    have hclear := countP_set_add q (slot.set i (some new)) j none j.isLt
    have hj : (slot.set i (some new))[j.val] = some b := by
      rw [Vector.getElem_set, if_neg (Fin.val_ne_of_ne hij)]; exact hb
    rw [show slot[i.val] = some a from ha] at hwrite
    rw [hj, hq, Bool.toNat_false] at hclear
    omega
  unfold mergedSlots
  cases p.mergeSlot with
  | k1 => exact write_clear hk h1 h2
  | k2 =>
    have := write_clear hk.symm h2 h1
    show ((slot.set k2 (some new)).set k1 none).countP q + _ + _ = _
    omega

/-- Slots that hold one of two different nodes are live. -/
theorem countP_two_le_live (slot : Slots) {a b : NodeIdx} (h : a ≠ b) :
    slot.countP (· == some a) + slot.countP (· == some b) ≤ liveCount slot := by
  rw [liveCount, ← Vector.countP_toList, ← Vector.countP_toList]
  induction slot.toList with
  | nil => simp
  | cons x rest ih =>
    simp only [List.countP_cons, beq_iff_eq]
    cases x with
    | none => simpa using ih
    | some c =>
      have hone : (if c = a then 1 else 0) + (if c = b then 1 else 0) ≤ 1 := by
        by_cases ha : c = a
        · rw [if_pos ha, if_neg (ha ▸ h)]
        · rw [if_neg ha]; split <;> omega
      simp only [Option.some.injEq, Option.isSome_some, if_true]
      omega

/-! ## Counting children -/

/-- The C0 and C1 fields of the entries below k. -/
def childrenBelow (node : Arena) (k : Nat) : List NodeIdx := (node.toList.take k).flatMap NodeEntry.children

theorem childrenBelow_all (node : Arena) : childrenBelow node 511 = childList node := by
  rw [childrenBelow, List.take_of_length_le (by simp), childList]

/-- The leaves name no children. -/
theorem childrenBelow_leaves {node : Arena} (h : ∀ n : NodeIdx, n.val < 256 → (node[n]).children = []) :
    childrenBelow node 256 = [] := by
  refine List.flatMap_eq_nil_iff.mpr fun x hx => ?_
  obtain ⟨i, hi, rfl⟩ := List.mem_take_iff_getElem.mp hx
  simp only [Vector.length_toList] at hi
  simpa using h ⟨i, by omega⟩ (by show i < 256; omega)

/-- A node written at n adds its children to those of the entries below n. -/
theorem childrenBelow_set (node : Arena) {n : NodeIdx} {k : Nat} (hk : n.val = k) (e : NodeEntry) :
    childrenBelow (node.set n e) (k + 1) = childrenBelow node k ++ e.children := by
  subst hk
  have hn : n.val < (node.set n e).toList.length := by simp
  rw [childrenBelow, List.take_succ_eq_append_getElem hn, List.flatMap_append]
  simp [childrenBelow, Vector.toList_set, List.take_set_of_le]

/-- R86: the children of a merged node are the two nodes merged, once each. -/
theorem count_mergedNode_children (p : Params) (node : Arena) (n1 n2 n : NodeIdx) :
    (mergedNode p node n1 n2).children.count n = (n1 == n).toNat + (n2 == n).toNat := by
  obtain ⟨w, e | e⟩ := mergedNode_eq p node n1 n2 <;> rw [e] <;>
    simp only [NodeEntry.children, List.count_cons, List.count_nil, Bool.toNat, Bool.cond_eq_ite] <;> omega

/-- R86: a merged node depends on the arena through the weights of the two nodes merged. -/
theorem mergedNode_congr (p : Params) {node node' : Arena} {n1 n2 : NodeIdx} (h1 : node'[n1] = node[n1])
    (h2 : node'[n2] = node[n2]) : mergedNode p node' n1 n2 = mergedNode p node n1 n2 := by
  rw [mergedNode, h1, h2, mergedNode]

/-! ## The forest after m merges -/

/-- R82, R89: what holds of the builder after m merges: each of the nodes 0 to 255 + m is either in one slot or the child of one
node, and no other node is; 256 - m slots are live. -/
structure Builder.Forest (p : Params) (m : Nat) (b : Builder) : Prop where
  mcnt : b.mcnt = m
  leaves : ∀ s : Byte, b.node[leafIdx s] = .leaf s p.freq[symIdx s]
  internals : ∀ n : NodeIdx, 256 ≤ n.val → n.val < 256 + m →
    ∃ n1 n2 : NodeIdx, n1.val < n.val ∧ n2.val < n.val ∧ n1 ≠ n2 ∧ b.node[n] = mergedNode p b.node n1 n2
  owned : ∀ n : NodeIdx, b.slot.countP (· == some n) + (childrenBelow b.node (256 + m)).count n =
    if n.val < 256 + m then 1 else 0
  live : liveCount b.slot = 256 - m

/-- R81: the slots after initialisation hold the leaves. -/
theorem Builder.countP_init_slot (p : Params) (node : Arena) (n : NodeIdx) :
    (Builder.init p node).slot.countP (· == some n) = if n.val < 256 then 1 else 0 := by
  have hinj : Function.Injective fun s : Fin 256 => some (⟨s.val, by omega⟩ : NodeIdx) :=
    fun a b h => by simpa [Fin.ext_iff] using h
  have hcount := (List.nodup_ofFn.mpr hinj).count (a := some n)
  rw [← Vector.countP_toList, Builder.init, Vector.toList_ofFn]
  refine hcount.trans (if_congr ?_ rfl rfl)
  rw [List.mem_ofFn]
  constructor
  · rintro ⟨s, hs⟩; rw [← Option.some.inj hs]; exact s.isLt
  · intro h; exact ⟨⟨n.val, h⟩, rfl⟩

/-- R81: after initialisation each leaf is a tree of its own. -/
theorem Builder.init_forest (p : Params) (node : Arena) : (Builder.init p node).Forest p 0 := by
  have hleaves (s : Byte) : (Builder.init p node).node[leafIdx s] = .leaf s p.freq[symIdx s] := by
    simp [Builder.init, leafIdx, symIdx, s.isLt]
  refine ⟨rfl, hleaves, fun n h h' => by omega, fun n => ?_, ?_⟩
  · have hnone : childrenBelow (Builder.init p node).node 256 = [] := childrenBelow_leaves fun n hn => by
      obtain ⟨s, rfl⟩ := exists_eq_leafIdx hn
      rw [hleaves]; rfl
    rw [Builder.countP_init_slot, hnone, List.count_nil]
    rfl
  · rw [liveCount_eq]
    refine Vector.countP_eq_size.mpr fun x hx => ?_
    obtain ⟨s, rfl⟩ := Vector.mem_ofFn.mp hx
    rfl

namespace Builder.Forest
variable {p : Params} {m : Nat} {b : Builder}

/-- R82: below 255 merges both selections succeed, and the merge joins the nodes of two different slots. -/
theorem exists_merge (h : b.Forest p m) (hm : m < 255) :
    ∃ (k1 k2 : SlotIdx) (n1 n2 new : NodeIdx), k1 ≠ k2 ∧ b.slot[k1] = some n1 ∧ b.slot[k2] = some n2 ∧ new.val = 256 + m ∧
      b.merge p = { node := b.node.set new (mergedNode p b.node n1 n2), slot := mergedSlots p b.slot k1 k2 new
                    mcnt := b.mcnt + 1, k1 := k1, k2 := k2 } := by
  have hlive := h.live
  obtain ⟨k1, e1, live1, -⟩ := exists_selectLowest (node := b.node) p (exists_eligible_none (slot := b.slot) (by omega))
  obtain ⟨k2, e2, live2, hk⟩ := exists_selectLowest (node := b.node) p (exists_eligible_some (slot := b.slot) (by omega) k1)
  obtain ⟨e, -⟩ | ⟨k, e, e', -⟩ | ⟨k, k', e, e', hnone, -⟩ | ⟨k, k', n1, n2, e, e', hn1, hn2, hmerge⟩ := b.merge_cases p
  · rw [e1] at e; cases e
  · rw [e1] at e; cases e
    rw [e2] at e'; cases e'
  · rw [e1] at e; cases e
    rw [e2] at e'; cases e'
    obtain hnone | hnone := hnone
    · rw [hnone] at live1; cases live1
    · rw [hnone] at live2; cases live2
  · rw [e1] at e; cases e
    rw [e2] at e'; cases e'
    have hnew : (mergedIdx b.mcnt).val = 256 + m := by
      rw [h.mcnt]; exact Nat.mod_eq_of_lt (by omega)
    exact ⟨k1, k2, n1, n2, _, fun e => hk (congrArg some e), hn1, hn2, hnew, hmerge⟩

/-- A node in a slot is one of those made so far. -/
theorem lt_of_slot (h : b.Forest p m) {k : SlotIdx} {n : NodeIdx} (hk : b.slot[k] = some n) : n.val < 256 + m := by
  have hpos : 0 < b.slot.countP (· == some n) :=
    Vector.countP_pos_iff.mpr ⟨_, Vector.getElem_mem k.isLt, by rw [beq_iff_eq]; exact hk⟩
  have hown := h.owned n
  split at hown
  · assumption
  · omega

/-- No node is in two slots. -/
theorem ne_of_slots (h : b.Forest p m) {k1 k2 : SlotIdx} {n1 n2 : NodeIdx} (hk : k1 ≠ k2) (h1 : b.slot[k1] = some n1)
    (h2 : b.slot[k2] = some n2) : n1 ≠ n2 := by
  rintro rfl
  have hcount := countP_mergedSlots p n1 (· == some n1) rfl hk h1 h2
  have hown := h.owned n1
  have hpos : 0 < (mergedSlots p b.slot k1 k2 n1).countP (· == some n1) := by
    refine Vector.countP_pos_iff.mpr ⟨some n1, Vector.mem_iff_getElem.mpr ?_, by simp⟩
    unfold mergedSlots
    cases p.mergeSlot with
    | k1 => exact ⟨k1, k1.isLt, by simp [Fin.val_ne_of_ne hk.symm]⟩
    | k2 => exact ⟨k2, k2.isLt, by simp [Fin.val_ne_of_ne hk]⟩
  simp only [beq_self_eq_true, Bool.toNat_true] at hcount
  split at hown <;> omega

section join
variable {k1 k2 : SlotIdx} {n1 n2 new : NodeIdx}

/-- R89: the nodes made before are not written again. -/
theorem get_set_of_lt (hnew : new.val = 256 + m) (e : NodeEntry) {n : NodeIdx} (hn : n.val < 256 + m) :
    (b.node.set new e)[n] = b.node[n] :=
  Vector.getElem_set_ne _ _ (by omega)

/-- R86: the new node joins two different nodes made before it; the others keep their children. -/
theorem internals_join (h : b.Forest p m) (hk : k1 ≠ k2) (h1 : b.slot[k1] = some n1) (h2 : b.slot[k2] = some n2)
    (hnew : new.val = 256 + m) (n : NodeIdx) (hn : 256 ≤ n.val) (hn' : n.val < 256 + (m + 1)) :
    ∃ c1 c2 : NodeIdx, c1.val < n.val ∧ c2.val < n.val ∧ c1 ≠ c2 ∧
      (b.node.set new (mergedNode p b.node n1 n2))[n] = mergedNode p (b.node.set new (mergedNode p b.node n1 n2)) c1 c2 := by
  have same {k : NodeIdx} (hk : k.val < 256 + m) := get_set_of_lt (b := b) hnew (mergedNode p b.node n1 n2) hk
  have hlt1 := h.lt_of_slot h1
  have hlt2 := h.lt_of_slot h2
  obtain hlt | heq : n.val < 256 + m ∨ n.val = 256 + m := by omega
  · obtain ⟨c1, c2, hc1, hc2, hc, e⟩ := h.internals n hn hlt
    exact ⟨c1, c2, hc1, hc2, hc, (same hlt).trans (e.trans (mergedNode_congr p (same (by omega)) (same (by omega))).symm)⟩
  · obtain rfl : n = new := Fin.ext (by omega)
    exact ⟨n1, n2, by omega, by omega, h.ne_of_slots hk h1 h2,
      (Vector.getElem_set_self _).trans (mergedNode_congr p (same hlt1) (same hlt2)).symm⟩

/-- R87: the two nodes leave the slots and become children of the new node, which takes their place. -/
theorem owned_join (h : b.Forest p m) (hk : k1 ≠ k2) (h1 : b.slot[k1] = some n1) (h2 : b.slot[k2] = some n2)
    (hnew : new.val = 256 + m) (n : NodeIdx) :
    (mergedSlots p b.slot k1 k2 new).countP (· == some n) +
      (childrenBelow (b.node.set new (mergedNode p b.node n1 n2)) (256 + m + 1)).count n =
        if n.val < 256 + (m + 1) then 1 else 0 := by
  have hslots := countP_mergedSlots p new (· == some n) rfl hk h1 h2
  have hown := h.owned n
  rw [childrenBelow_set _ hnew, List.count_append, count_mergedNode_children]
  simp only [Option.some_beq_some] at hslots
  by_cases hn : n = new
  · subst hn
    simp only [beq_self_eq_true, Bool.toNat_true] at hslots
    rw [if_neg (by omega)] at hown
    rw [if_pos (by omega)]
    omega
  · have hne : n.val ≠ 256 + m := fun e => hn (Fin.ext (by omega))
    rw [beq_eq_false_iff_ne.mpr (Ne.symm hn), Bool.toNat_false] at hslots
    have hif : (if n.val < 256 + (m + 1) then 1 else 0) = if n.val < 256 + m then 1 else 0 := if_congr (by omega) rfl rfl
    omega

/-- R82: two live slots become one. -/
theorem live_join (h : b.Forest p m) (hk : k1 ≠ k2) (h1 : b.slot[k1] = some n1) (h2 : b.slot[k2] = some n2) :
    liveCount (mergedSlots p b.slot k1 k2 new) = 256 - (m + 1) := by
  have hslots := countP_mergedSlots p new Option.isSome rfl hk h1 h2
  have hlive := h.live
  rw [liveCount_eq] at hlive ⊢
  simp only [Option.isSome_some, Bool.toNat_true] at hslots
  omega

end join

/-- R82 to R89: a merge of a forest of more than one tree makes a forest of one tree fewer. -/
theorem merge (h : b.Forest p m) (hm : m < 255) : (b.merge p).Forest p (m + 1) := by
  obtain ⟨k1, k2, n1, n2, new, hk, h1, h2, hnew, hmerge⟩ := h.exists_merge hm
  rw [hmerge]
  refine ⟨congrArg (· + 1) h.mcnt, fun s => ?_, h.internals_join hk h1 h2 hnew, h.owned_join hk h1 h2 hnew, h.live_join hk h1 h2⟩
  have := s.isLt
  exact (get_set_of_lt hnew _ (by show s.toNat < _; omega)).trans (h.leaves s)

/-- After the last merge the one live slot holds node 510, and every other node is a child: one tree. -/
theorem arenaTree (h : b.Forest p 255) : ArenaTree p b.node := by
  have nodes : ArenaNodes p b.node := ⟨h.leaves, fun n hn => h.internals n hn n.isLt⟩
  refine ⟨nodes, fun n => ?_⟩
  have owned (n : NodeIdx) : b.slot.countP (· == some n) + (childList b.node).count n = 1 := by
    rw [← childrenBelow_all, h.owned n, if_pos n.isLt]
  have hroot : (childList b.node).count rootIdx = 0 := by
    rw [List.count_eq_zero, mem_childList_iff]
    rintro ⟨m, c, e⟩
    exact nodes.not_edge_root e
  by_cases hn : n = rootIdx
  · rw [if_pos hn, hn, hroot]
  · rw [if_neg hn]
    have hlive := countP_two_le_live b.slot hn
    rw [h.live] at hlive
    have := owned n
    have := owned rootIdx
    omega

end Builder.Forest

/-- R82: after m merges, up to the 255 that BUILD makes. -/
theorem Builder.merges_forest (p : Params) (node : Arena) (m : Nat) (hm : m ≤ 255) :
    (Builder.merges p m (Builder.init p node)).Forest p m := by
  induction m with
  | zero => exact Builder.init_forest p node
  | succ m ih =>
    rw [Builder.merges_succ]
    exact (ih (by omega)).merge (by omega)

/-- R28: what BUILD leaves is a tree over the configured weights, and its code table. -/
theorem buildTables_treeOk (p : Params) (node : Arena) : (buildTables p node).TreeOk p := by
  unfold buildTables
  exact (Builder.merges_forest p node 255 (Nat.le_refl _)).arenaTree.treeOk

namespace Machine

/-- Settles O19: while BUILT = 1 the invariant says that the tables are those of BUILD. -/
theorem builtTablesAreTheTree : Obligations.BuiltTablesAreTheTree := by
  intro s hs hb
  obtain ⟨arena, e⟩ := hs.tables hb
  rw [e]
  exact buildTables_treeOk _ arena

end Machine

end Sys2Proof

/-! PROOFS, family 20_memory: the bit order inside a byte (O5). -/

namespace Sys2Proof

theorem bitsToNat_lt (b : Bits) : bitsToNat b < 2 ^ b.length := by
  induction b with
  | nil => simp [bitsToNat]
  | cons c rest ih =>
    have := c.toNat_le
    rw [bitsToNat, List.length_cons, Nat.pow_succ]
    omega

/-- R41: at most eight bits fit in the byte, so `lsb8` drops nothing of their number. -/
theorem lsb8_toNat (b : Bits) (h : b.length ≤ 8) : (lsb8 b).toNat = bitsToNat b := by
  have hlt : bitsToNat b < 2 ^ 8 := (bitsToNat_lt b).trans_le (Nat.pow_le_pow_right (by decide) h)
  rw [lsb8, BitVec.toNat_ofNat, Nat.mod_eq_of_lt hlt]

/-- Settles O5: the nested doublings of `bitsToNat` give stream bit k the weight 2^k. -/
theorem bitOrderInByte : Obligations.BitOrderInByte := by
  refine ⟨fun b0 b1 b2 b3 b4 b5 b6 b7 => ?_, bits8_getElem?, by decide⟩
  rw [lsb8_toNat [b0, b1, b2, b3, b4, b5, b6, b7] (Nat.le_refl 8)]
  simp only [bitsToNat]
  omega

end Sys2Proof

/-! PROOFS, family 30_encoding, part 1: the decoder and the encoder (O1, O2, O4, O35). -/

namespace Sys2Proof

/-! ## No byte hits two rows of one space -/

/-- Two rows ask for different values of a bit that both fix. -/
def Row.Apart (r r' : Row) : Prop := (r.mtch ^^^ r'.mtch) &&& (r.mask &&& r'.mask) ≠ 0#8

theorem Row.Apart.symm {r r' : Row} (h : r.Apart r') : r'.Apart r := by
  rwa [Row.Apart, BitVec.xor_comm, BitVec.and_comm r'.mask]

/-- Two rows that a byte hits agree on every bit that both fix, since both agree with the byte there. -/
theorem Row.not_apart_of_hit {r r' : Row} {b : Byte} (h : r.hit b = true) (h' : r'.hit b = true) : ¬ r.Apart r' := by
  have e : b &&& r.mask = r.mtch := beq_iff_eq.mp h
  have e' : b &&& r'.mask = r'.mtch := beq_iff_eq.mp h'
  rw [Row.Apart, not_not, ← e, ← e']
  ext k hk
  have bit : ∀ x m m' : Bool, ((x && m ^^ x && m') && (m && m')) = false := by decide
  simp [bit]

theorem rowsOf_pairwise_apart (sp : Space) : (rowsOf sp).Pairwise Row.Apart := by
  unfold Row.Apart
  cases sp <;> decide

theorem row_eq_of_hit {sp : Space} {r r' : Row} {b : Byte} (hr : r ∈ rowsOf sp) (hr' : r' ∈ rowsOf sp)
    (h : r.hit b = true) (h' : r'.hit b = true) : r = r' := by
  by_contra hne
  have : Std.Symm Row.Apart := ⟨fun _ _ => Row.Apart.symm⟩
  exact Row.not_apart_of_hit h h' ((rowsOf_pairwise_apart sp).forall hr hr' hne)

/-! ## What the decoder answers -/

/-- The decoder searches the rows in order, but the order does not matter: what any row that the byte hits makes is the answer. -/
theorem decodeByte_eq_some_iff {sp : Space} {b : Byte} {i : Instr} :
    decodeByte sp b = some i ↔ ∃ r ∈ rowsOf sp, r.hit b = true ∧ r.make b = i := by
  rw [decodeByte, Option.map_eq_some_iff]
  constructor
  · rintro ⟨r, hf, hi⟩
    have h := List.find?_some hf
    exact ⟨r, List.mem_of_find?_eq_some hf, h, hi⟩
  · rintro ⟨r, hr, h, hi⟩
    have found : ((rowsOf sp).find? fun r => r.hit b).isSome = true := List.find?_isSome.mpr ⟨r, hr, h⟩
    obtain ⟨r', hf⟩ := Option.isSome_iff_exists.mp found
    have h' := List.find?_some hf
    cases row_eq_of_hit hr (List.mem_of_find?_eq_some hf) h h'
    exact ⟨r, hf, hi⟩

/-- 30_encoding.md section 5: the rows of a space leave no byte out, and what a row makes of its byte keeps the byte. -/
theorem exists_row (sp : Space) : ∀ b, ∃ r ∈ rowsOf sp, r.hit b = true ∧
    (r.make b).space = sp ∧ (r.make b).wellFormed = true ∧ encodeByte (r.make b) = b := by
  cases sp <;> decide

theorem decodeByte_total (sp : Space) (b : Byte) :
    ∃ i, decodeByte sp b = some i ∧ i.space = sp ∧ i.wellFormed = true ∧ encodeByte i = b := by
  obtain ⟨r, hr, hb, hmake⟩ := exists_row sp b
  exact ⟨r.make b, decodeByte_eq_some_iff.mpr ⟨r, hr, hb, rfl⟩, hmake⟩

theorem decodeByte_sound {sp : Space} {b : Byte} {i : Instr} (h : decodeByte sp b = some i) :
    i.space = sp ∧ i.wellFormed = true ∧ encodeByte i = b := by
  obtain ⟨j, hj, hmake⟩ := decodeByte_total sp b
  cases h.symm.trans hj
  exact hmake

/-- The byte of a well-formed instruction hits a row of its space that makes the instruction. -/
theorem encodingHitsRow (i : Instr) : Laws.EncodingHitsRow.Statement i := by
  cases i with
  | nop => exact Laws.EncodingHitsRow.nop
  | build => exact Laws.EncodingHitsRow.build
  | encode => exact Laws.EncodingHitsRow.encode
  | decode => exact Laws.EncodingHitsRow.decode
  | illegal04_07 c => exact Laws.EncodingHitsRow.illegal04_07 c
  | illegal08_0F c => exact Laws.EncodingHitsRow.illegal08_0F c
  | illegal10_1F c => exact Laws.EncodingHitsRow.illegal10_1F c
  | illegal20_3F c => exact Laws.EncodingHitsRow.illegal20_3F c
  | illegal40_7F c => exact Laws.EncodingHitsRow.illegal40_7F c
  | illegal80_FF c => exact Laws.EncodingHitsRow.illegal80_FF c
  | hdrFC h => exact Laws.EncodingHitsRow.hdrFC h
  | hdrFR => exact Laws.EncodingHitsRow.hdrFR
  | hdrReserved08_0F b => exact Laws.EncodingHitsRow.hdrReserved08_0F b
  | hdrReserved10_1F b => exact Laws.EncodingHitsRow.hdrReserved10_1F b
  | hdrReserved20_3F b => exact Laws.EncodingHitsRow.hdrReserved20_3F b
  | hdrReserved40_7F b => exact Laws.EncodingHitsRow.hdrReserved40_7F b
  | hdrReserved80_BF b => exact Laws.EncodingHitsRow.hdrReserved80_BF b
  | hdrReservedC0_DF b => exact Laws.EncodingHitsRow.hdrReservedC0_DF b
  | hdrReservedE0_EF b => exact Laws.EncodingHitsRow.hdrReservedE0_EF b
  | hdrReservedF0_F7 b => exact Laws.EncodingHitsRow.hdrReservedF0_F7 b
  | hdrReservedF8_FB b => exact Laws.EncodingHitsRow.hdrReservedF8_FB b
  | hdrReservedFC_FD b => exact Laws.EncodingHitsRow.hdrReservedFC_FD b
  | hdrReservedFE_FE => exact Laws.EncodingHitsRow.hdrReservedFE_FE

theorem decodeByte_encodeByte {i : Instr} (h : i.wellFormed = true) : decodeByte i.space (encodeByte i) = some i :=
  decodeByte_eq_some_iff.mpr (encodingHitsRow i h)

/-- Settles O1: an encoding is the one byte of `decodeByte_encodeByte`. -/
theorem decodeOfEncode : Obligations.DecodeOfEncode := by
  intro i rest h
  show decodeBytes i.space (encodeByte i :: rest) = _
  rw [decodeBytes, decodeByte_encodeByte h]

/-- Settles O2: what the decoder makes of a byte is encoded by that one byte. -/
theorem encodeOfDecode : Obligations.EncodeOfDecode := by
  intro sp b
  obtain ⟨i, hi, hsp, hw, he⟩ := decodeByte_total sp b
  exact ⟨i, hi, hsp, hw, by rw [encode, he]⟩

/-- Settles O4: eight bytes of the spec, evaluated. -/
theorem specBytesDecode : Obligations.SpecBytesDecode := by
  unfold Obligations.SpecBytesDecode
  decide

/-! ## DECODE and the header rows -/

/-- R63: the header bytes 0x08 to 0xFE are the reserved ones. -/
theorem headerKind_eq_reserved {lo hi b : Byte} (h : inRange lo hi b = true) (hlo : 7 < lo) (hhi : hi < 0xFF) :
    headerKind b = .reserved := by
  simp only [inRange, Bool.and_eq_true, decide_eq_true_eq] at h
  obtain ⟨hlb, hbh⟩ := h
  rw [headerKind, if_neg (by bv_omega), if_pos (by bv_omega)]

theorem headerKind_zeroExtend (h : BitVec 3) : headerKind (h.zeroExtend 8) = .compressed h := by
  revert h
  decide

namespace Machine

/-- R63: a header row decodes a frame as the kind of its own byte asks. -/
theorem exec_header_eq {i : Instr} (hsp : i.space = .frameHeader) (hw : i.wellFormed = true) (s : State) :
    exec i s = .next (checkFrame s (decodeBody (headerKind (encodeByte i)))) := by
  cases i with
  | hdrFC h => rw [encodeByte, headerKind_zeroExtend]; rfl
  | hdrFR => rfl
  | hdrReservedFE_FE => rfl
  | hdrReserved08_0F | hdrReserved10_1F | hdrReserved20_3F | hdrReserved40_7F | hdrReserved80_BF | hdrReservedC0_DF
  | hdrReservedE0_EF | hdrReservedF0_F7 | hdrReservedF8_FB | hdrReservedFC_FD =>
    rw [encodeByte, headerKind_eq_reserved hw (by decide) (by decide)]; rfl
  | nop | build | encode | decode | illegal04_07 | illegal08_0F | illegal10_1F | illegal20_3F | illegal40_7F
  | illegal80_FF => cases hsp

/-- Settles O35: both decode the frame by the kind of the byte in IBUF[0]. -/
theorem decodeFollowsHeaderRow : Obligations.DecodeFollowsHeaderRow := by
  intro s i h
  obtain ⟨hsp, hw, he⟩ := decodeByte_sound h
  rw [exec_decode_eq, exec_header_eq hsp hw, he]

end Machine

end Sys2Proof

/-! PROOFS, family 30_encoding, part 2: the moves of COPYBACK (O60). -/

namespace Sys2Proof.Machine

/-! ## Runs of several steps -/

/-- A run of m + n steps whose first m answer t goes on with n steps from t. -/
theorem run_add_of_run {M : Host.Core} {m : Nat} {s t : M.State} (h : M.run m s = .next t) (n : Nat) :
    M.run (m + n) s = M.run n t := by
  induction m generalizing s with
  | zero => cases h; rw [Nat.zero_add]
  | succ m ih =>
    rw [Nat.succ_add, Host.Core.run]
    rw [Host.Core.run] at h
    cases hs : M.step s with
    | next u => rw [hs] at h; exact ih h
    | fault r => rw [hs] at h; cases h
    | refused r => rw [hs] at h; cases h

theorem run_succ_of_step {M : Host.Core} {s t : M.State} (h : M.step s = .next t) (k : Nat) :
    M.run (k + 1) s = M.run k t := by
  rw [Host.Core.run, h]

theorem run_one_of_step {s t : State} (h : step s = .next t) : Host.Core.run core 1 s = .next t :=
  run_succ_of_step (M := core) h 0

/-! ## The moves that COPYBACK makes, while the engine is idle -/

section moves
variable {s : State} {rest : List Action}

theorem step_copyback (hb : s.busy = false) (ha : s.agenda = .copyback :: rest) :
    step s = .next { s with agenda := copybackMoves s ++ rest } := by
  simp [step, hb, ha, idleAction]

theorem step_readObuf {a : Nat} {v : Byte} (hb : s.busy = false) (ha : s.agenda = .act (.read (.ro (.obuf a))) :: rest)
    (hlen : a < s.olen) (hcap : a < s.cfg.maxOut) (hv : Memory.read s.obuf a = some v) :
    step s = .next { s with agenda := rest, rdata := some (.byte v) } := by
  rw [step_move_of_idle hb ha]
  simp [idleMove, hostRead, State.readLoc, State.readReadOnly, readByte, hv, Nat.not_le.mpr hlen, Nat.not_le.mpr hcap]

theorem step_writeIbuf {a : Nat} {v : Byte} (hb : s.busy = false) (ha : s.agenda = .act (.writeIbuf a v) :: rest)
    (hcap : a < s.cfg.maxIn) : step s = .next { s with agenda := rest, ibuf := Memory.write s.ibuf a v } :=
  (step_move_of_idle hb ha).trans (if_pos hcap)

theorem step_writeIlen {n : Nat} (hb : s.busy = false) (ha : s.agenda = .act (.writeIlen n) :: rest)
    (hn : n < 2 ^ s.cfg.lenW) : step s = .next { s with agenda := rest, ilen := n } :=
  (step_move_of_idle hb ha).trans (if_pos hn)

end moves

/-! ## The copy -/

/-- IBUF when OBUF[0..n-1] has been copied to it (R47). -/
def copiedIbuf (s : State) (n : Nat) : List Host.Cell :=
  (List.range n).foldl (fun m a => Memory.write m a ((Memory.read s.obuf a).getD 0)) s.ibuf

theorem copiedIbuf_succ (s : State) (n : Nat) :
    copiedIbuf s (n + 1) = Memory.write (copiedIbuf s n) n ((Memory.read s.obuf n).getD 0) := by
  simp [copiedIbuf, List.range_succ]

theorem copiedBack_eq (s : State) : s.copiedBack = { s with ibuf := copiedIbuf s s.olen, ilen := s.olen } := rfl

/-- R73: the moves that copy the first n valid bytes of OBUF. -/
def copyMoves (s : State) (n : Nat) : List Action := (List.range n).flatMap (copyByte s)

theorem copybackMoves_eq (s : State) : copybackMoves s = copyMoves s s.olen ++ [.act (.writeIlen s.olen)] := rfl

theorem copyMoves_succ {s : State} {n : Nat} {v : Byte} (hv : Memory.read s.obuf n = some v) :
    copyMoves s (n + 1) = copyMoves s n ++ [.act (.read (.ro (.obuf n))), .act (.writeIbuf n v)] := by
  simp [copyMoves, List.range_succ, copyByte, hv]

/-- R73: the two moves for one byte of OBUF. -/
theorem run_copyByte {s : State} {rest : List Action} {a : Nat} {v : Byte} (hb : s.busy = false)
    (ha : s.agenda = .act (.read (.ro (.obuf a))) :: .act (.writeIbuf a v) :: rest) (hlen : a < s.olen)
    (hout : a < s.cfg.maxOut) (hin : a < s.cfg.maxIn) (hv : Memory.read s.obuf a = some v) :
    Host.Core.run core 2 s =
      .next { s with agenda := rest, ibuf := Memory.write s.ibuf a v, rdata := some (.byte v) } :=
  (run_succ_of_step (M := core) (step_readObuf hb ha hlen hout hv) 1).trans (run_one_of_step (step_writeIbuf hb rfl hin))

/-- R73: 2n moves copy the first n valid bytes, whatever the script goes on with. -/
theorem run_copyMoves {s : State} (h : s.Inv) (hb : s.busy = false) (hcap : s.olen ≤ s.cfg.maxIn) {n : Nat} (hn : n ≤ s.olen)
    (rest : List Action) : ∃ r, Host.Core.run core (2 * n) { s with agenda := copyMoves s n ++ rest } =
      .next { s with agenda := rest, ibuf := copiedIbuf s n, rdata := r } := by
  induction n generalizing rest with
  | zero => exact ⟨s.rdata, rfl⟩
  | succ n ih =>
    obtain ⟨v, hv⟩ := Option.isSome_iff_exists.mp (h.output n hn)
    obtain ⟨r, hr⟩ := ih (Nat.le_of_lt hn) (.act (.read (.ro (.obuf n))) :: .act (.writeIbuf n v) :: rest)
    refine ⟨some (.byte v), ?_⟩
    rw [copyMoves_succ hv, List.append_assoc, copiedIbuf_succ, hv]
    exact (run_add_of_run hr 2).trans (run_copyByte hb rfl hn (Nat.lt_of_lt_of_le hn h.olen) (Nat.lt_of_lt_of_le hn hcap) hv)

/-- R18, R21: OLEN fits in the LENW bits of ILEN. -/
theorem State.Inv.olen_lt {s : State} (h : s.Inv) : s.olen < 2 ^ s.cfg.lenW :=
  h.olen.trans_lt Nat.lt_log2_self

/-- Settles O60: the line expands into its moves, which copy every valid byte and then write OLEN to ILEN. -/
theorem copybackCopies : Obligations.CopybackCopies := by
  intro s rest h hb ha hcap
  obtain ⟨r, hcopy⟩ := run_copyMoves h hb hcap (Nat.le_refl s.olen) (.act (.writeIlen s.olen) :: rest)
  have hexpand := step_copyback hb ha
  rw [copybackMoves_eq, List.append_assoc] at hexpand
  refine ⟨r, ?_⟩
  rw [copiedBack_eq]
  calc Host.Core.run core (2 * s.olen + 2) s
    _ = Host.Core.run core (2 * s.olen + 1) { s with agenda := copyMoves s s.olen ++ .act (.writeIlen s.olen) :: rest } :=
      run_succ_of_step (M := core) hexpand _
    _ = Host.Core.run core 1
          { s with agenda := .act (.writeIlen s.olen) :: rest, ibuf := copiedIbuf s s.olen, rdata := r } :=
      run_add_of_run hcopy 1
    _ = .next { s with agenda := rest, ibuf := copiedIbuf s s.olen, ilen := s.olen, rdata := r } :=
      run_one_of_step (step_writeIlen hb rfl h.olen_lt)

end Sys2Proof.Machine

/-! PROOFS, family 40_build, part 1: BUILD as a command (O18), and the sum and the order of weights (O26, O27). -/

namespace Sys2Proof

namespace Machine

theorem State.completeBuild_tables (s : State) (t : Tables) : (s.completeBuild t).tables = t := rfl

/-- R80: BUILD ends in its one way. -/
theorem exec_build_eq (s : State) : exec .build s = .next (s.completeBuild (buildTables s.cfg.toParams s.node)) := rfl

/-- Settles O18: BUILD's one ending is the completion with the tables of `buildTables`. -/
theorem buildCompletes : Obligations.BuildCompletes := fun s =>
  ⟨_, exec_build_eq s, ⟨s.completeBuild_status _, s.completeBuild_olen _, s.completeBuild_phase _⟩, s.completeBuild_tables _,
    (exec_ending (exec_build_eq s)).sameInput, fun a => congrArg (Memory.read · a) (s.completeBuild_obuf _)⟩

end Machine

namespace BinFmt
variable (F : BinFmt)

/-! ## Zeros -/

/-- A pattern of magnitude 0 is a zero of either sign (R97). -/
theorem quanta_of_magnitude_zero {w : Weight} (h : F.magnitude w = 0) : F.quanta w = 0 := by
  simp [quanta, h]

@[simp] theorem quanta_negZero : F.quanta F.negZero = 0 :=
  F.quanta_of_magnitude_zero (Nat.mod_self _)

@[simp] theorem quanta_zero : F.quanta 0 = 0 :=
  F.quanta_of_magnitude_zero (Nat.zero_mod _)

/-- R97: the two operands enter the sum through their signs and their quanta, in no order. -/
theorem wadd_comm (a b : Weight) : F.wadd a b = F.wadd b a := by
  rw [wadd, wadd, Bool.and_comm, Nat.add_comm]

end BinFmt

/-- Settles O26: the sum is symmetric in its operands, and both zeros have no quanta. -/
theorem weightSumCommutes : Obligations.WeightSumCommutes := by
  intro F
  refine ⟨F.wadd_comm, ?_, ?_⟩ <;> simp [WFmt.wlt, BinFmt.wlt]

/-! ## Magnitudes and quanta -/

namespace BinFmt
variable {F : BinFmt}

/-- The quanta of a magnitude pattern, whether or not the exponent fits in its field. -/
def magQuanta (F : BinFmt) (m : Nat) : Nat :=
  if m / 2 ^ F.fracBits = 0 then m % 2 ^ F.fracBits
  else (2 ^ F.fracBits + m % 2 ^ F.fracBits) * 2 ^ (m / 2 ^ F.fracBits - 1)

theorem quanta_eq_magQuanta (w : Weight) : F.quanta w = F.magQuanta (F.magnitude w) := rfl

/-- The magnitude pattern of exponent k + 1 and significand q, or of exponent 0 and fraction q where k = 0 and q is small; a
significand that fills up moves into the next exponent, with the same quanta. -/
theorem magQuanta_significand {k q : Nat} (hlow : 0 < k → 2 ^ F.fracBits ≤ q) (hhigh : q ≤ 2 ^ (F.fracBits + 1)) :
    F.magQuanta (k * 2 ^ F.fracBits + q) = q * 2 ^ k := by
  have hpos : 0 < 2 ^ F.fracBits := Nat.two_pow_pos _
  rw [Nat.pow_succ] at hhigh
  obtain hsmall | hfull | ⟨f, hf, rfl⟩ :
      q < 2 ^ F.fracBits ∨ q = 2 ^ F.fracBits * 2 ∨ ∃ f, f < 2 ^ F.fracBits ∧ q = 2 ^ F.fracBits + f := by
    by_cases h : q < 2 ^ F.fracBits
    · exact .inl h
    · by_cases h' : q = 2 ^ F.fracBits * 2
      · exact .inr (.inl h')
      · exact .inr (.inr ⟨q - 2 ^ F.fracBits, by omega, by omega⟩)
  · obtain rfl : k = 0 := by
      by_contra hk
      have := hlow (by omega)
      omega
    simp [magQuanta, Nat.div_eq_of_lt hsmall, Nat.mod_eq_of_lt hsmall]
  · have e : k * 2 ^ F.fracBits + q = 2 ^ F.fracBits * (k + 2) := by rw [hfull]; ring
    rw [e, magQuanta, Nat.mul_div_cancel_left _ hpos, Nat.mul_mod_right, if_neg (by omega), hfull]
    simp [Nat.pow_succ]
    ring
  · have e : k * 2 ^ F.fracBits + (2 ^ F.fracBits + f) = f + 2 ^ F.fracBits * (k + 1) := by ring
    rw [e, magQuanta, Nat.add_mul_div_left _ _ hpos, Nat.add_mul_mod_self_left, Nat.div_eq_of_lt hf, Nat.mod_eq_of_lt hf,
      if_neg (by omega)]
    simp

/-- Magnitudes of an exponent below another's are below it: their quanta stay below the power at which the next exponent starts. -/
theorem magQuanta_lt (m : Nat) : F.magQuanta m < 2 ^ F.fracBits * 2 ^ (m / 2 ^ F.fracBits) := by
  have hf : m % 2 ^ F.fracBits < 2 ^ F.fracBits := Nat.mod_lt _ (Nat.two_pow_pos _)
  unfold magQuanta
  cases m / 2 ^ F.fracBits with
  | zero => simpa using hf
  | succ e =>
    rw [if_neg (by omega), Nat.add_sub_cancel, Nat.pow_succ', ← Nat.mul_assoc]
    exact Nat.mul_lt_mul_of_pos_right (by omega) (Nat.two_pow_pos _)

/-- The magnitude pattern grows with the number. -/
theorem magQuanta_mono : Monotone F.magQuanta := by
  intro m m' hm
  obtain hlt | heq := lt_or_eq_of_le (Nat.div_le_div_right (c := 2 ^ F.fracBits) hm)
  · calc F.magQuanta m
      _ ≤ 2 ^ F.fracBits * 2 ^ (m / 2 ^ F.fracBits) := (magQuanta_lt m).le
      _ ≤ 2 ^ F.fracBits * 2 ^ (m' / 2 ^ F.fracBits - 1) :=
        Nat.mul_le_mul_left _ (Nat.pow_le_pow_right (by omega) (Nat.le_sub_one_of_lt hlt))
      _ ≤ F.magQuanta m' := by
        rw [magQuanta, if_neg (Nat.ne_zero_of_lt hlt)]
        exact Nat.mul_le_mul_right _ (Nat.le_add_right _ _)
  · have hf : m % 2 ^ F.fracBits ≤ m' % 2 ^ F.fracBits := by
      have := Nat.div_add_mod m (2 ^ F.fracBits)
      have := Nat.div_add_mod m' (2 ^ F.fracBits)
      rw [← heq] at this
      omega
    unfold magQuanta
    rw [heq]
    split
    · exact hf
    · exact Nat.mul_le_mul_right _ (by omega)

/-! ## Rounding -/

/-- How many low bits of n quanta do not fit in the significand (R97). -/
def dropped (F : BinFmt) (n : Nat) : Nat := Nat.log2 n - F.fracBits

/-- The magnitude pattern of n quanta rounded down. -/
def floorMag (F : BinFmt) (n : Nat) : Nat := F.dropped n * 2 ^ F.fracBits + n / 2 ^ F.dropped n

/-- The significand that is left has the format's length, or less where no bit is dropped. -/
theorem significand_bounds (n : Nat) :
    (0 < F.dropped n → 2 ^ F.fracBits ≤ n / 2 ^ F.dropped n) ∧ n / 2 ^ F.dropped n + 1 ≤ 2 ^ (F.fracBits + 1) := by
  have hlt : n < 2 ^ (Nat.log2 n + 1) := Nat.lt_log2_self
  constructor
  · intro hk
    have hn : n ≠ 0 := by rintro rfl; simp [dropped] at hk
    rw [Nat.le_div_iff_mul_le (Nat.two_pow_pos _), ← Nat.pow_add]
    calc 2 ^ (F.fracBits + F.dropped n)
      _ = 2 ^ Nat.log2 n := congrArg (2 ^ ·) (by unfold dropped at hk ⊢; omega)
      _ ≤ n := Nat.log2_self_le hn
  · rw [Nat.succ_le_iff, Nat.div_lt_iff_lt_mul (Nat.two_pow_pos _), ← Nat.pow_add]
    exact hlt.trans_le (Nat.pow_le_pow_right (by omega) (by unfold dropped; omega))

theorem magQuanta_floorMag (n : Nat) : F.magQuanta (F.floorMag n) = n / 2 ^ F.dropped n * 2 ^ F.dropped n := by
  obtain ⟨hlow, hhigh⟩ := significand_bounds (F := F) n
  exact magQuanta_significand hlow (by omega)

theorem magQuanta_floorMag_succ (n : Nat) :
    F.magQuanta (F.floorMag n + 1) = n / 2 ^ F.dropped n * 2 ^ F.dropped n + 2 ^ F.dropped n := by
  obtain ⟨hlow, hhigh⟩ := significand_bounds (F := F) n
  rw [floorMag, Nat.add_assoc, magQuanta_significand (fun hk => Nat.le_succ_of_le (hlow hk)) hhigh, Nat.succ_mul]

/-- The fraction field holds the lowest bit of the significand. -/
theorem floorMag_parity (hfrac : 1 ≤ F.fracBits) (n : Nat) : F.floorMag n % 2 = n / 2 ^ F.dropped n % 2 := by
  obtain ⟨f, hf⟩ : ∃ f, F.fracBits = f + 1 := ⟨F.fracBits - 1, by omega⟩
  rw [floorMag, hf, Nat.pow_succ, ← Nat.mul_assoc, Nat.add_comm, Nat.add_mul_mod_self_right]

/-- The bits dropped are more than half of the last place, or half of it above an odd significand (R97, ties to even). -/
def RoundsUp (F : BinFmt) (n : Nat) : Prop :=
  2 ^ F.dropped n < 2 * (n % 2 ^ F.dropped n) ∨
    (2 * (n % 2 ^ F.dropped n) = 2 ^ F.dropped n ∧ n / 2 ^ F.dropped n % 2 = 1)

/-- Short of infinity, `pack` gives the magnitude rounded down or the next one. -/
theorem pack_cases {n : Nat} (hfin : F.pack n < F.infMagnitude) :
    (F.pack n = F.floorMag n + 1 ∧ F.RoundsUp n) ∨ (F.pack n = F.floorMag n ∧ ¬ F.RoundsUp n) := by
  by_cases h : F.RoundsUp n
  · have e : F.pack n = min (F.floorMag n + 1) F.infMagnitude :=
      congrArg (fun q => min (F.dropped n * 2 ^ F.fracBits + q) F.infMagnitude) (if_pos h)
    exact .inl ⟨by omega, h⟩
  · have e : F.pack n = min (F.floorMag n) F.infMagnitude :=
      congrArg (fun q => min (F.dropped n * 2 ^ F.fracBits + q) F.infMagnitude) (if_neg h)
    exact .inr ⟨by omega, h⟩

/-- n lies between the quanta of two neighbouring magnitudes; short of infinity R97 rounds it to the nearer one, and from half way
to the even one. -/
theorem pack_rounds (hfrac : 1 ≤ F.fracBits) {n : Nat} (hfin : F.pack n < F.infMagnitude) :
    F.magQuanta (F.floorMag n) ≤ n ∧ n < F.magQuanta (F.floorMag n + 1) ∧
    (F.pack n = F.floorMag n ∧ n - F.magQuanta (F.floorMag n) ≤ F.magQuanta (F.floorMag n + 1) - n ∨
      F.pack n = F.floorMag n + 1 ∧ F.magQuanta (F.floorMag n + 1) - n ≤ n - F.magQuanta (F.floorMag n)) ∧
    (n - F.magQuanta (F.floorMag n) = F.magQuanta (F.floorMag n + 1) - n → F.pack n % 2 = 0) := by
  have hparity := floorMag_parity hfrac n
  have hsplit : n / 2 ^ F.dropped n * 2 ^ F.dropped n + n % 2 ^ F.dropped n = n := Nat.div_add_mod' ..
  have hrem : n % 2 ^ F.dropped n < 2 ^ F.dropped n := Nat.mod_lt _ (Nat.two_pow_pos _)
  have hcases := pack_cases hfin
  unfold RoundsUp at hcases
  rw [magQuanta_floorMag, magQuanta_floorMag_succ]
  generalize n / 2 ^ F.dropped n * 2 ^ F.dropped n = lo at *
  generalize n % 2 ^ F.dropped n = rem at *
  generalize 2 ^ F.dropped n = ulp at *
  obtain ⟨e, hup⟩ | ⟨e, hdown⟩ := hcases <;> omega

/-- R97, rounding to nearest: no magnitude's quanta are nearer to n, and where others are as near, the pattern is even. -/
theorem pack_nearest (hfrac : 1 ≤ F.fracBits) {n : Nat} (hfin : F.pack n < F.infMagnitude) (m : Nat) :
    Nat.dist (F.magQuanta (F.pack n)) n ≤ Nat.dist (F.magQuanta m) n ∧
    (Nat.dist (F.magQuanta (F.pack n)) n = Nat.dist (F.magQuanta m) n → F.magQuanta m ≠ F.magQuanta (F.pack n) →
      F.pack n % 2 = 0) := by
  obtain ⟨hlo, hhi, hround, heven⟩ := pack_rounds hfrac hfin
  have hside : F.magQuanta m ≤ F.magQuanta (F.floorMag n) ∨ F.magQuanta (F.floorMag n + 1) ≤ F.magQuanta m :=
    (le_or_gt m (F.floorMag n)).imp (magQuanta_mono ·) (magQuanta_mono ·)
  unfold Nat.dist
  obtain ⟨e, hnear⟩ | ⟨e, hnear⟩ := hround <;> rw [e] at heven ⊢ <;> omega

/-! ## The sum -/

/-- Every pattern that rounding gives, infinity too, fits in the magnitude field. -/
theorem magnitude_pack (n : Nat) : F.magnitude (F.pack n) = F.pack n := by
  have hinf : F.infMagnitude < 2 ^ (F.expBits + F.fracBits) := by
    rw [infMagnitude, Nat.pow_add]
    exact Nat.mul_lt_mul_of_pos_right (Nat.sub_one_lt (Nat.two_pow_pos _).ne') (Nat.two_pow_pos _)
  exact Nat.mod_eq_of_lt (lt_of_le_of_lt (min_le_right _ _) hinf)

/-- R3: the only number with a sign that is admitted is negative zero. -/
theorem quanta_of_admits_sign {w : Weight} (h : F.admits w = true) (hs : F.sign w = true) : F.quanta w = 0 := by
  simp only [admits, hs, Bool.not_true, Bool.false_or, Bool.and_eq_true, beq_iff_eq] at h
  exact F.quanta_of_magnitude_zero h.2

end BinFmt

/-- Settles O27: two negative zeros have the exact sum 0; any other sum is packed. -/
theorem weightSumIsNearest : Obligations.WeightSumIsNearest := by
  intro F a b c _ hfrac ha hb hfin _
  by_cases hs : (F.sign a && F.sign b) = true
  · obtain ⟨hsa, hsb⟩ := Bool.and_eq_true_iff.mp hs
    have hsum : F.wadd a b = F.negZero := if_pos hs
    rw [hsum, F.quanta_negZero, BinFmt.quanta_of_admits_sign ha hsa, BinFmt.quanta_of_admits_sign hb hsb]
    unfold Nat.dist
    omega
  · have hsum : F.wadd a b = F.pack (F.quanta a + F.quanta b) := if_neg hs
    rw [hsum] at hfin ⊢
    rw [BinFmt.finite, BinFmt.magnitude_pack, decide_eq_true_eq] at hfin
    rw [BinFmt.quanta_eq_magQuanta (F.pack _), BinFmt.magnitude_pack]
    exact BinFmt.pack_nearest hfrac hfin (F.magnitude c)

end Sys2Proof

/-! PROOFS, family 40_build, part 2: the code of a tree in the sense of R28 is complete, and how long its words are (O24, O25). -/

namespace Sys2Proof

/-! ## Paths to leaves -/

/-- R28: the arena of such tables is a tree. -/
theorem Tables.TreeOk.arenaTree {p : Params} {t : Tables} (h : t.TreeOk p) : ArenaTree p t.node where
  leaves := h.leaves
  internals := h.internals
  once := h.once

/-- R25: every index is that of a symbol. -/
theorem exists_eq_symIdx (i : SlotIdx) : ∃ s, i = symIdx s :=
  ⟨BitVec.ofNat 8 i.val, Fin.ext (by simp [symIdx])⟩

theorem leafIdx_injective {s s' : Byte} (h : leafIdx s = leafIdx s') : s = s' :=
  BitVec.eq_of_toNat_eq (congrArg (fun n : NodeIdx => n.val) h)

section descend
variable {node : Arena}

/-- A longer path goes on from where the shorter one ends. -/
theorem descend_append {n k : NodeIdx} {b b' : Bits} (hb : descend node n b = some k) :
    descend node n (b ++ b') = descend node k b' := by
  induction b generalizing n with
  | nil => cases hb; rfl
  | cons c rest ih =>
    obtain ⟨m, ⟨c0, c1, w, e, rfl⟩, hm⟩ := descend_cons.mp hb
    rw [List.cons_append, descend, e]
    exact ih hm

/-- No path goes on below a leaf. -/
theorem descend_leaf {n k : NodeIdx} {s : Byte} {w : Weight} {b : Bits} (e : node[n] = .leaf s w)
    (hb : descend node n b = some k) : b = [] := by
  cases b with
  | nil => rfl
  | cons c rest =>
    obtain ⟨m, ⟨c0, c1, w', e', -⟩, -⟩ := descend_cons.mp hb
    rw [e] at e'
    cases e'

end descend

namespace ArenaNodes
variable {p : Params} {node : Arena}

/-- Only nodes from index 256 on have children (R89). -/
theorem le_of_edge (h : ArenaNodes p node) {m n : NodeIdx} {c : Bool} (e : Edge node m c n) : 256 ≤ m.val := by
  by_contra hm
  obtain ⟨s, rfl⟩ := exists_eq_leafIdx (n := m) (by omega)
  obtain ⟨c0, c1, w, e, -⟩ := e
  rw [h.leaves] at e
  cases e

/-- R94: a path goes through internal nodes of falling index, of which there are n - 255 from n down. -/
theorem path_length_le (h : ArenaNodes p node) {n k : NodeIdx} {b : Bits} (hb : descend node n b = some k) :
    b.length ≤ n.val - 255 := by
  induction b generalizing n with
  | nil => exact Nat.zero_le _
  | cons c rest ih =>
    obtain ⟨m, e, hm⟩ := descend_cons.mp hb
    have hmn := h.edge_lt e
    have hn := h.le_of_edge e
    have hrest := ih hm
    rw [List.length_cons]
    omega

end ArenaNodes

namespace Tables.TreeOk
variable {p : Params} {t : Tables}

/-- R28 (e), R91: the code word of a symbol leads to its leaf. -/
theorem descend_code (h : t.TreeOk p) (s : Byte) : descend t.node rootIdx t.code[symIdx s] = some (leafIdx s) :=
  (h.codes s _).mpr rfl

/-- R93: a code word ends at a leaf, where no other code word goes on. -/
theorem noneBeginsAnother (h : t.TreeOk p) : t.code.NoneBeginsAnother := by
  intro i j hij hbegins
  obtain ⟨s, rfl⟩ := exists_eq_symIdx i
  obtain ⟨s', rfl⟩ := exists_eq_symIdx j
  obtain ⟨rest, hrest⟩ := hbegins
  have hs' := h.descend_code s'
  rw [← hrest, descend_append (h.descend_code s)] at hs'
  obtain rfl := descend_leaf (h.leaves s) hs'
  exact hij (congrArg symIdx (leafIdx_injective (Option.some.inj hs')))

end Tables.TreeOk

/-- Settles O25: a code word is a path from node 510 to a leaf, which is another node. -/
theorem codeLengthBounds : Obligations.CodeLengthBounds := by
  intro p t h i
  obtain ⟨s, rfl⟩ := exists_eq_symIdx i
  have hpath := h.descend_code s
  have hroot : rootIdx.val = 510 := rfl
  have hle := h.arenaTree.path_length_le hpath
  refine ⟨List.length_pos_iff.mpr fun hnil => ?_, by omega⟩
  rw [hnil] at hpath
  exact leafIdx_ne_rootIdx s (Option.some.inj hpath).symm

/-! ## Infinite bit sequences -/

theorem firstBits_succ (f : Nat → Bool) (k : Nat) : firstBits f (k + 1) = f 0 :: firstBits (fun i => f (i + 1)) k := by
  simp [firstBits, List.range_succ_eq_map, Function.comp_def]

@[simp] theorem firstBits_length (f : Nat → Bool) (k : Nat) : (firstBits f k).length = k := by
  simp [firstBits]

/-- The longer beginning of a sequence begins with the shorter one. -/
theorem firstBits_isPrefix (f : Nat → Bool) {k l : Nat} (h : k ≤ l) : firstBits f k <+: firstBits f l := by
  have htake : firstBits f k = (firstBits f l).take k := by
    rw [firstBits, firstBits, ← List.map_take, List.take_range, Nat.min_eq_left h]
  rw [htake]
  exact List.take_prefix k _

/-- R93: from any node the bits of a sequence lead down to some leaf, as indices fall along edges. -/
theorem ArenaNodes.exists_leaf_along {p : Params} {node : Arena} (h : ArenaNodes p node) (n : NodeIdx) (f : Nat → Bool) :
    ∃ k s, descend node n (firstBits f k) = some (leafIdx s) := by
  obtain ⟨s, rfl, -⟩ | ⟨c0, c1, w, h0, h1, e⟩ := h.leaf_or_merged n
  · exact ⟨0, s, rfl⟩
  · have hchild : (if f 0 then c1 else c0).val < n.val := by split <;> assumption
    obtain ⟨k, s, hk⟩ := h.exists_leaf_along (if f 0 then c1 else c0) fun i => f (i + 1)
    exact ⟨k + 1, s, by rw [firstBits_succ]; exact descend_cons.mpr ⟨_, ⟨c0, c1, w, e, rfl⟩, hk⟩⟩
termination_by n.val

/-- R93: every infinite bit sequence begins with exactly one code word. -/
theorem Tables.TreeOk.existsUnique_code {p : Params} {t : Tables} (h : t.TreeOk p) (f : Nat → Bool) :
    ∃! i : SlotIdx, t.code[i] = firstBits f (t.code[i]).length := by
  obtain ⟨k, s, hk⟩ := h.arenaTree.exists_leaf_along rootIdx f
  have hword : t.code[symIdx s] = firstBits f k := ((h.codes s _).mp hk).symm
  refine ⟨symIdx s, ?_, fun j hj => ?_⟩
  · show t.code[symIdx s] = firstBits f (t.code[symIdx s]).length
    rw [hword, firstBits_length]
  · by_contra hne
    obtain hle | hle := Nat.le_total k (t.code[j]).length
    · exact h.noneBeginsAnother _ _ (Ne.symm hne) (by rw [hword, hj]; exact firstBits_isPrefix f hle)
    · exact h.noneBeginsAnother _ _ hne (by rw [hword, hj]; exact firstBits_isPrefix f hle)

/-! ## The sum of 2^(-LEN) -/

/-- R93: below a node the sum over the leaves of 2^(-path length) is 1: an internal node has two halves. The scale d is at least the
length of every path, by R94. -/
theorem ArenaNodes.traverse_sum {p : Params} {node : Arena} (h : ArenaNodes p node) {fuel d : Nat} {n : NodeIdx}
    (hfuel : n.val < fuel) (hd : n.val ≤ d + 255) :
    ((traverse node fuel n).map fun e => 2 ^ (d - e.2.length)).sum = 2 ^ d := by
  induction fuel generalizing n d with
  | zero => omega
  | succ fuel ih =>
    obtain ⟨s, -, e⟩ | ⟨c0, c1, w, h0, h1, e⟩ := h.leaf_or_merged n
    · simp [traverse, e, -Fin.getElem_fin]
    · have hn : 256 ≤ n.val := h.le_of_edge (c := false) ⟨c0, c1, w, e, rfl⟩
      obtain ⟨d, rfl⟩ : ∃ d', d = d' + 1 := ⟨d - 1, by omega⟩
      have half {c : NodeIdx} (hc : c.val < n.val) (x : Bool) :
          (((traverse node fuel c).map fun e => (e.1, x :: e.2)).map fun e : Byte × Bits => 2 ^ (d + 1 - e.2.length)).sum =
            2 ^ d := by
        rw [List.map_map, ← ih (n := c) (d := d) (by omega) (by omega)]
        simp [Function.comp_def, Nat.add_sub_add_right]
      rw [traverse, e]
      simp only [List.map_append, List.sum_append]
      rw [half h0, half h1, Nat.pow_succ]
      omega

/-- The traversal lists no path twice. -/
theorem traverse_nodup (node : Arena) (fuel : Nat) (n : NodeIdx) : (traverse node fuel n).Nodup := by
  induction fuel generalizing n with
  | zero => exact List.nodup_nil
  | succ fuel ih =>
    have below (c : NodeIdx) (x : Bool) : ((traverse node fuel c).map fun e => (e.1, x :: e.2)).Nodup :=
      (ih c).map fun a b hab => by simpa [Prod.ext_iff] using hab
    rw [traverse]
    cases node[n] with
    | leaf s w => exact List.nodup_singleton _
    | internal c0 c1 w =>
      refine List.nodup_append.mpr ⟨below c0 false, below c1 true, fun a ha b hb hab => ?_⟩
      obtain ⟨e, -, rfl⟩ := List.mem_map.mp ha
      obtain ⟨e', -, rfl⟩ := List.mem_map.mp hb
      simp at hab

/-- R91: the traversal from the root lists each symbol once, with its code word. -/
theorem Tables.TreeOk.traverse_perm {p : Params} {t : Tables} (h : t.TreeOk p) :
    (traverse t.node 511 rootIdx).Perm ((List.finRange 256).map fun i => (BitVec.ofNat 8 i.val, t.code[i])) := by
  have hinj : Function.Injective fun i : SlotIdx => (BitVec.ofNat 8 i.val, t.code[i]) := fun i j hij => by
    have hval := congrArg BitVec.toNat (Prod.ext_iff.mp hij).1
    simpa [Fin.ext_iff] using hval
  refine (List.perm_ext_iff_of_nodup (traverse_nodup ..) ((List.nodup_finRange 256).map hinj)).mpr fun ⟨s, b⟩ => ?_
  rw [h.arenaTree.mem_traverse_root, h.codes, List.mem_map]
  constructor
  · rintro rfl
    exact ⟨symIdx s, List.mem_finRange _, by simp [symIdx]⟩
  · rintro ⟨i, -, e⟩
    obtain ⟨rfl, rfl⟩ := Prod.ext_iff.mp e
    simp [symIdx]

/-- R93: the sum of 2^(-LEN), multiplied by 2^255. -/
theorem Tables.TreeOk.code_sum {p : Params} {t : Tables} (h : t.TreeOk p) :
    ((List.finRange 256).map fun i : SlotIdx => 2 ^ (255 - (t.code[i]).length)).sum = 2 ^ 255 := by
  have hsum := (h.traverse_perm.map fun e => 2 ^ (255 - e.2.length)).sum_eq
  rw [h.arenaTree.traverse_sum (by decide) (by decide), List.map_map] at hsum
  exact hsum.symm

/-- Settles O24: no word goes on below the leaf of another, every descent ends at a leaf, and the traversal gives the sum. -/
theorem codeIsComplete : Obligations.CodeIsComplete :=
  fun _ _ h => ⟨h.noneBeginsAnother, h.existsUnique_code, h.code_sum⟩

end Sys2Proof

/-! PROOFS, family 40_build, part 3: both scans of the slots keep the first of the lightest (O22, O23). -/

namespace Sys2Proof

section scan
variable {F : WFmt} {node : Arena} {slot : Slots} {excl best : Option SlotIdx} {l : List SlotIdx} {i j k : SlotIdx} {w : Weight}

/-! ## The order of selection -/

/-- R83: live slot k comes before live slot j: it is lighter, or not heavier and of lower index. -/
def Precedes (F : WFmt) (node : Arena) (slot : Slots) (k j : SlotIdx) : Prop :=
  ∃ v w, slotWeight node slot k = some v ∧ slotWeight node slot j = some w ∧
    (F.wlt v w = true ∨ (F.wlt w v = false ∧ k < j))

theorem Precedes.asymm (h : Precedes F node slot k j) : ¬ Precedes F node slot j k := by
  obtain ⟨v, w, hv, hw, h⟩ := h
  rintro ⟨w', v', hw', hv', h'⟩
  rw [hv] at hv'; rw [hw] at hw'
  cases hv'; cases hw'
  obtain hlt | ⟨hnot, hkj⟩ := h <;> obtain hlt' | ⟨hnot', hjk⟩ := h'
  · rw [WFmt.wlt_asymm hlt] at hlt'; cases hlt'
  · rw [hlt] at hnot'; cases hnot'
  · rw [hlt'] at hnot; cases hnot
  · exact absurd hkj (lt_asymm hjk)

theorem Precedes.trans (h : Precedes F node slot i j) (h' : Precedes F node slot j k) : Precedes F node slot i k := by
  obtain ⟨u, v, hu, hv, h⟩ := h
  obtain ⟨v', w, hv', hw, h'⟩ := h'
  rw [hv] at hv'; cases hv'
  refine ⟨u, w, hu, hw, ?_⟩
  obtain ⟨r, hr⟩ := F.wlt_rank
  simp only [hr, decide_eq_true_eq, decide_eq_false_iff_not, not_lt] at h h' ⊢
  obtain hlt | ⟨hle, hij⟩ := h <;> obtain hlt' | ⟨hle', hjk⟩ := h'
  · exact .inl (hlt.trans hlt')
  · exact .inl (hlt.trans_le hle')
  · exact .inl (hle.trans_lt hlt')
  · exact .inr ⟨hle.trans hle', hij.trans hjk⟩

/-- A slot is live when it has a weight. -/
theorem live_iff_weight : (slot[j]).isSome = true ↔ ∃ w, slotWeight node slot j = some w := by
  rw [← Option.isSome_iff_exists, slotWeight, Option.isSome_map]

theorem eligible_of_weight (hw : slotWeight node slot j = some w) (hx : excl ≠ some j) : Eligible slot excl j :=
  ⟨live_iff_weight.mpr ⟨w, hw⟩, hx⟩

theorem not_eligible_of_weight_none (hw : slotWeight node slot j = none) : ¬ Eligible slot excl j := by
  intro h
  obtain ⟨w, e⟩ := live_iff_weight (node := node).mp h.1
  rw [hw] at e
  cases e

/-! ## The first of a list of slots -/

/-- The first in the order of selection among the eligible slots of a list; `none` where the list has no such slot. -/
def IsFirst (F : WFmt) (node : Arena) (slot : Slots) (l : List SlotIdx) (excl : Option SlotIdx) : Option SlotIdx → Prop
  | none => ∀ j ∈ l, ¬ Eligible slot excl j
  | some k => k ∈ l ∧ Eligible slot excl k ∧ ∀ j ∈ l, Eligible slot excl j → j ≠ k → Precedes F node slot k j

namespace IsFirst

theorem unique {best' : Option SlotIdx} (h : IsFirst F node slot l excl best) (h' : IsFirst F node slot l excl best') :
    best = best' := by
  cases best with
  | none =>
    cases best' with
    | none => rfl
    | some k' => exact absurd h'.2.1 (h k' h'.1)
  | some k =>
    cases best' with
    | none => exact absurd h.2.1 (h' k h.1)
    | some k' =>
      obtain ⟨hmem, helig, hfirst⟩ := h
      obtain ⟨hmem', helig', hfirst'⟩ := h'
      by_contra hne
      have hk : k ≠ k' := fun e => hne (congrArg some e)
      exact (hfirst k' hmem' helig' hk.symm).asymm (hfirst' k hmem helig hk)

/-- A slot that is not eligible changes nothing. -/
theorem skip (h : IsFirst F node slot l excl best) (hj : ¬ Eligible slot excl j) : IsFirst F node slot (l ++ [j]) excl best := by
  cases best with
  | none =>
    intro i hi
    obtain hi | rfl := List.mem_append.mp hi |>.imp_right List.mem_singleton.mp
    · exact h i hi
    · exact hj
  | some k =>
    obtain ⟨hmem, helig, hfirst⟩ := h
    refine ⟨List.mem_append_left _ hmem, helig, fun i hi he hne => ?_⟩
    obtain hi | rfl := List.mem_append.mp hi |>.imp_right List.mem_singleton.mp
    · exact hfirst i hi he hne
    · exact absurd he hj

/-- A lighter slot, or the first eligible one, becomes the first. -/
theorem take (h : IsFirst F node slot l excl best) (hw : slotWeight node slot j = some w) (hx : excl ≠ some j)
    (hlt : lighterThan F node slot w best = true) : IsFirst F node slot (l ++ [j]) excl (some j) := by
  refine ⟨by simp, eligible_of_weight hw hx, fun i hi he hne => ?_⟩
  have hi : i ∈ l := (List.mem_append.mp hi).resolve_right fun e => hne (List.mem_singleton.mp e)
  cases best with
  | none => exact absurd he (h i hi)
  | some k =>
    obtain ⟨-, ⟨hlive, -⟩, hfirst⟩ := h
    obtain ⟨v, hv⟩ := live_iff_weight (node := node).mp hlive
    rw [lighterThan, Option.bind_some, hv] at hlt
    have hjk : Precedes F node slot j k := ⟨w, v, hw, hv, .inl hlt⟩
    by_cases hik : i = k
    · exact hik ▸ hjk
    · exact hjk.trans (hfirst i hi he hik)

/-- Against a slot that is not lighter and of higher index the first stays. -/
theorem keep (h : IsFirst F node slot l excl best) (hlast : ∀ i ∈ l, i < j) (hw : slotWeight node slot j = some w)
    (hlt : lighterThan F node slot w best = false) : IsFirst F node slot (l ++ [j]) excl best := by
  cases best with
  | none => cases hlt
  | some k =>
    obtain ⟨hmem, helig, hfirst⟩ := h
    obtain ⟨v, hv⟩ := live_iff_weight (node := node).mp helig.1
    rw [lighterThan, Option.bind_some, hv] at hlt
    refine ⟨List.mem_append_left _ hmem, helig, fun i hi he hne => ?_⟩
    obtain hi | rfl := List.mem_append.mp hi |>.imp_right List.mem_singleton.mp
    · exact hfirst i hi he hne
    · exact ⟨v, w, hv, hw, .inr ⟨hlt, hlast k hmem⟩⟩

/-- Excluding a slot that is not in the list changes nothing. -/
theorem exclude (h : IsFirst F node slot l none best) (hj : j ∉ l) : IsFirst F node slot l (some j) best := by
  have same {i : SlotIdx} (hi : i ∈ l) : Eligible slot (some j) i ↔ Eligible slot none i := by
    have hij : j ≠ i := fun e => hj (e ▸ hi)
    simp [Eligible, hij]
  cases best with
  | none => exact fun i hi he => h i hi ((same hi).mp he)
  | some k =>
    obtain ⟨hmem, helig, hfirst⟩ := h
    exact ⟨hmem, (same hmem).mpr helig, fun i hi he => hfirst i hi ((same hi).mp he)⟩

end IsFirst

/-! ## The scan of one selection -/

/-- R80: the test of `select_lowest` is that of R85's scan. -/
theorem betterSlot_of_weight (hw : slotWeight node slot j = some w) (hx : excl ≠ some j) :
    betterSlot F node slot excl best j = if lighterThan F node slot w best then some j else best := by
  rw [betterSlot, if_neg hx, hw, lighterThan]
  cases best.bind (slotWeight node slot) <;> rfl

theorem betterSlot_of_not_eligible (h : ¬ Eligible slot excl j) : betterSlot F node slot excl best j = best :=
  betterSlot_cases.elim And.left fun h' => absurd h'.2 h

theorem IsFirst.betterSlot (h : IsFirst F node slot l excl best) (hlast : ∀ i ∈ l, i < j) :
    IsFirst F node slot (l ++ [j]) excl (betterSlot F node slot excl best j) := by
  by_cases he : Eligible slot excl j
  · obtain ⟨w, hw⟩ := live_iff_weight (node := node).mp he.1
    rw [betterSlot_of_weight hw he.2]
    split
    next hlt => exact h.take hw he.2 hlt
    next hlt => exact h.keep hlast hw (Bool.eq_false_of_not_eq_true hlt)
  · rw [betterSlot_of_not_eligible he]
    exact h.skip he

theorem isFirst_foldl_betterSlot (l : List SlotIdx) (hl : l.Pairwise (· < ·)) :
    IsFirst F node slot l excl (l.foldl (betterSlot F node slot excl) none) := by
  induction l using List.reverseRecOn with
  | nil => exact fun j hj => absurd hj List.not_mem_nil
  | append_singleton l j ih =>
    obtain ⟨hinit, -, hlast⟩ := List.pairwise_append.mp hl
    rw [List.foldl_append]
    exact (ih hinit).betterSlot fun i hi => hlast i hi j (List.mem_singleton_self j)

/-! ## The one-pass scan -/

/-- R85: what the scan has found in a list: the first slot, and the first of the others. -/
def AreFirstTwo (F : WFmt) (node : Arena) (slot : Slots) (l : List SlotIdx) : Option SlotIdx × Option SlotIdx → Prop
  | (none, b) => IsFirst F node slot l none none ∧ b = none
  | (some k, b) => IsFirst F node slot l none (some k) ∧ IsFirst F node slot l (some k) b

theorem AreFirstTwo.first {ab : Option SlotIdx × Option SlotIdx} (h : AreFirstTwo F node slot l ab) :
    IsFirst F node slot l none ab.1 := by
  obtain ⟨_ | k, b⟩ := ab
  · exact h.1
  · exact h.1

theorem onePassStep_of_weight (ab : Option SlotIdx × Option SlotIdx) (hw : slotWeight node slot j = some w) :
    onePassStep F node slot ab j =
      if lighterThan F node slot w ab.1 then (some j, ab.1) else if lighterThan F node slot w ab.2 then (ab.1, some j) else ab := by
  rw [onePassStep, hw]

theorem onePassStep_of_weight_none (ab : Option SlotIdx × Option SlotIdx) (hw : slotWeight node slot j = none) :
    onePassStep F node slot ab j = ab := by
  rw [onePassStep, hw]

/-- R85: a slot becomes the first and the first the second, or it becomes the second, or neither. -/
theorem AreFirstTwo.step {ab : Option SlotIdx × Option SlotIdx} (h : AreFirstTwo F node slot l ab) (hlast : ∀ i ∈ l, i < j) :
    AreFirstTwo F node slot (l ++ [j]) (onePassStep F node slot ab j) := by
  obtain ⟨a, b⟩ := ab
  have hnew : j ∉ l := fun hj => lt_irrefl j (hlast j hj)
  cases hw : slotWeight node slot j with
  | none =>
    have hj {excl : Option SlotIdx} : ¬ Eligible slot excl j := not_eligible_of_weight_none hw
    rw [onePassStep_of_weight_none _ hw]
    cases a with
    | none => exact ⟨h.1.skip hj, h.2⟩
    | some k => exact ⟨h.1.skip hj, h.2.skip hj⟩
  | some w =>
    rw [onePassStep_of_weight _ hw]
    split
    next hlt => exact ⟨h.first.take hw (by simp) hlt, (h.first.exclude hnew).skip fun he => he.2 rfl⟩
    next hlt =>
      cases a with
      | none => exact absurd rfl hlt
      | some k =>
        have hk : some k ≠ some j := fun e => hnew (Option.some.inj e ▸ h.1.1)
        have hfirst := h.1.keep hlast hw (Bool.eq_false_of_not_eq_true hlt)
        split
        next hlt' => exact ⟨hfirst, h.2.take hw hk hlt'⟩
        next hlt' => exact ⟨hfirst, h.2.keep hlast hw (Bool.eq_false_of_not_eq_true hlt')⟩

theorem areFirstTwo_foldl_onePassStep (l : List SlotIdx) (hl : l.Pairwise (· < ·)) :
    AreFirstTwo F node slot l (l.foldl (onePassStep F node slot) (none, none)) := by
  induction l using List.reverseRecOn with
  | nil => exact ⟨fun j hj => absurd hj List.not_mem_nil, rfl⟩
  | append_singleton l j ih =>
    obtain ⟨hinit, -, hlast⟩ := List.pairwise_append.mp hl
    rw [List.foldl_append]
    exact (ih hinit).step fun i hi => hlast i hi j (List.mem_singleton_self j)

end scan

/-! ## Both scans over all slots -/

/-- D4: slots are scanned in ascending order. -/
theorem ScanOrder.slots_pairwise (o : ScanOrder) : o.slots.Pairwise (· < ·) := by
  cases o
  exact List.pairwise_lt_finRange 256

theorem ScanOrder.mem_slots (o : ScanOrder) (j : SlotIdx) : j ∈ o.slots := by
  cases o
  exact List.mem_finRange j

theorem isFirst_selectLowest (p : Params) (node : Arena) (slot : Slots) (excl : Option SlotIdx) :
    IsFirst p.fmt node slot p.scanOrder.slots excl (selectLowest p node slot excl) :=
  isFirst_foldl_betterSlot _ p.scanOrder.slots_pairwise

/-- R83's formal condition, of the whole range of slots. -/
theorem lowestSlot_iff_isFirst {p : Params} {node : Arena} {slot : Slots} {excl : Option SlotIdx} {k : SlotIdx} :
    LowestSlot p.fmt node slot excl k ↔ IsFirst p.fmt node slot p.scanOrder.slots excl (some k) := by
  constructor
  · intro h
    refine ⟨p.scanOrder.mem_slots k, ⟨h.live, h.allowed⟩, fun j _ ⟨hlive, hx⟩ hne => ?_⟩
    obtain ⟨v, hv⟩ := live_iff_weight (node := node).mp h.live
    obtain ⟨w, hw⟩ := live_iff_weight (node := node).mp hlive
    exact ⟨v, w, hv, hw, h.least j v w hne hx hw hv⟩
  · rintro ⟨-, ⟨hlive, hx⟩, hfirst⟩
    refine ⟨hlive, hx, fun j v w hne hxj hw hv => ?_⟩
    obtain ⟨v', w', hv', hw', h⟩ := hfirst j (p.scanOrder.mem_slots j) (eligible_of_weight hw hxj) hne
    rw [hv] at hv'; rw [hw] at hw'
    cases hv'; cases hw'
    exact h

/-- R83, R84: `select_lowest` finds the slot of the formal condition. -/
theorem selectLowest_eq_some_iff {p : Params} {node : Arena} {slot : Slots} {excl : Option SlotIdx} {k : SlotIdx} :
    selectLowest p node slot excl = some k ↔ LowestSlot p.fmt node slot excl k := by
  have hsel := isFirst_selectLowest p node slot excl
  rw [lowestSlot_iff_isFirst]
  exact ⟨fun e => e ▸ hsel, fun h => hsel.unique h⟩

/-- Settles O22; its second part is the condition on k1, read for the slot k2. -/
theorem selectionIsLowestFirst : Obligations.SelectionIsLowestFirst := by
  intro p node slot
  refine ⟨fun excl k => selectLowest_eq_some_iff, fun k1 k2 w1 w2 e1 e2 hw1 hw2 => ?_⟩
  have h1 := selectLowest_eq_some_iff.mp e1
  have h2 := selectLowest_eq_some_iff.mp e2
  have hne : k2 ≠ k1 := fun e => h2.allowed (congrArg some e.symm)
  obtain hlt | ⟨hnot, hlow⟩ := h1.least k2 w1 w2 hne (by simp) hw2 hw1
  · exact ⟨WFmt.wlt_asymm hlt, fun hnot => by rw [hlt] at hnot; cases hnot⟩
  · exact ⟨hnot, fun _ => hlow⟩

/-- Settles O23: both forms find the first slot and the first of the others, and these are unique. -/
theorem onePassScanAgrees : Obligations.OnePassScanAgrees := by
  intro p node slot
  have htwo : AreFirstTwo p.fmt node slot p.scanOrder.slots (onePass p node slot) :=
    areFirstTwo_foldl_onePassStep _ p.scanOrder.slots_pairwise
  have e1 : selectLowest p node slot none = (onePass p node slot).1 := (isFirst_selectLowest ..).unique htwo.first
  rw [e1]
  generalize onePass p node slot = ab at htwo ⊢
  obtain ⟨_ | k, b⟩ := ab
  · rw [htwo.2]; rfl
  · rw [Option.bind_some, ← htwo.2.unique (isFirst_selectLowest p node slot (some k))]

end Sys2Proof

/-! PROOFS, family 40_build, part 4: what each merge does (O21), and that BUILD depends on the five parameters alone (O20). -/

namespace Sys2Proof

/-! ## One merge -/

section merged
variable {p : Params} {slot : Slots} {k1 k2 j : SlotIdx} {new : NodeIdx}

theorem mergedSlots_k1 (h : p.mergeSlot = .k1) : mergedSlots p slot k1 k2 new = (slot.set k1 (some new)).set k2 none := by
  rw [mergedSlots, h]

theorem mergedSlots_k2 (h : p.mergeSlot = .k2) : mergedSlots p slot k1 k2 new = (slot.set k2 (some new)).set k1 none := by
  rw [mergedSlots, h]

/-- R87: a slot that receives a node and another that becomes EMPTY. -/
theorem get_set_set {i : SlotIdx} (x y : Option NodeIdx) (hij : i ≠ j) :
    ((slot.set i x).set j y)[i] = x ∧ ((slot.set i x).set j y)[j] = y := by
  have hval : i.val ≠ j.val := Fin.val_ne_of_ne hij
  simp [hval.symm]

/-- R87: every other slot stays. -/
theorem get_mergedSlots_of_ne (h1 : j ≠ k1) (h2 : j ≠ k2) : (mergedSlots p slot k1 k2 new)[j] = slot[j] := by
  have h1' : k1.val ≠ j.val := Fin.val_ne_of_ne h1.symm
  have h2' : k2.val ≠ j.val := Fin.val_ne_of_ne h2.symm
  cases h : p.mergeSlot with
  | k1 => rw [mergedSlots_k1 h]; simp [h1', h2']
  | k2 => rw [mergedSlots_k2 h]; simp [h1', h2']

end merged

namespace Builder

/-- What `merge` leaves when it joins the nodes n1 and n2 of the slots k1 and k2 (R86, R87). -/
def joined (p : Params) (b : Builder) (k1 k2 : SlotIdx) (n1 n2 : NodeIdx) : Builder where
  node := b.node.set (mergedIdx b.mcnt) (mergedNode p b.node n1 n2)
  slot := mergedSlots p b.slot k1 k2 (mergedIdx b.mcnt)
  mcnt := b.mcnt + 1
  k1 := k1
  k2 := k2

section joined
variable {p : Params} {b : Builder} {k1 k2 : SlotIdx} {n1 n2 n : NodeIdx}

/-- R86: the new entry is the merged node. -/
theorem get_joined_new (hn : n = mergedIdx b.mcnt) : (b.joined p k1 k2 n1 n2).node[n] = mergedNode p b.node n1 n2 := by
  subst hn
  exact Vector.getElem_set_self _

/-- R86: every other entry stays. -/
theorem get_joined_of_ne (hn : n ≠ mergedIdx b.mcnt) : (b.joined p k1 k2 n1 n2).node[n] = b.node[n] :=
  Vector.getElem_set_ne (mergedIdx b.mcnt).isLt n.isLt (Fin.val_ne_of_ne hn.symm)

theorem joined_slot : (b.joined p k1 k2 n1 n2).slot = mergedSlots p b.slot k1 k2 (mergedIdx b.mcnt) := rfl

end joined

namespace Forest
variable {p : Params} {m : Nat} {b : Builder}

theorem mergedIdx_val (h : b.Forest p m) (hm : m < 255) : (mergedIdx b.mcnt).val = 256 + m := by
  rw [h.mcnt]
  exact Nat.mod_eq_of_lt (by omega)

/-- R82 to R87: below 255 merges, the merge joins the nodes of the two selected slots. -/
theorem exists_joined (h : b.Forest p m) (hm : m < 255) :
    ∃ k1 k2 n1 n2, selectLowest p b.node b.slot none = some k1 ∧ selectLowest p b.node b.slot (some k1) = some k2 ∧
      b.slot[k1] = some n1 ∧ b.slot[k2] = some n2 ∧ b.merge p = b.joined p k1 k2 n1 n2 := by
  have hcount : (b.merge p).mcnt ≠ b.mcnt := by
    rw [(h.merge hm).mcnt, h.mcnt]
    exact Nat.succ_ne_self m
  obtain ⟨-, e⟩ | ⟨k1, -, -, e⟩ | ⟨k1, k2, -, -, -, e⟩ | hjoin := b.merge_cases p
  · exact absurd (congrArg Builder.mcnt e) hcount
  · exact absurd (congrArg Builder.mcnt e) hcount
  · exact absurd (congrArg Builder.mcnt e) hcount
  · exact hjoin

/-- R82 to R87, R89: the merge is the one that the rules describe. -/
theorem mergeOk (h : b.Forest p m) (hm : m < 255) : MergeOk p m b (b.merge p) := by
  obtain ⟨k1, k2, n1, n2, e1, e2, hn1, hn2, e⟩ := h.exists_joined hm
  have hlow1 := selectLowest_eq_some_iff.mp e1
  have hlow2 := selectLowest_eq_some_iff.mp e2
  have hk : k1 ≠ k2 := fun e => hlow2.allowed (congrArg some e)
  rw [e]
  refine ⟨k1, k2, n1, n2, mergedIdx b.mcnt, hlow1, hlow2, hn1, hn2, h.mergedIdx_val hm, get_joined_new rfl,
    fun n hn => get_joined_of_ne hn, fun hs => ?_, fun hs => ?_, fun j h1 h2 => get_mergedSlots_of_ne h1 h2,
    congrArg (· + 1) h.mcnt, rfl, rfl⟩
  · rw [joined_slot, mergedSlots_k1 hs]
    exact get_set_set _ _ hk
  · rw [joined_slot, mergedSlots_k2 hs]
    exact get_set_set _ _ hk.symm

/-- R82, R89: after the last merge the root is in a slot, since it is no node's child. -/
theorem exists_root_slot (h : b.Forest p 255) : ∃ j : SlotIdx, b.slot[j] = some rootIdx := by
  have hone : b.slot.countP (· == some rootIdx) = 1 := by
    have hchild := h.arenaTree.once rootIdx
    have howned := h.owned rootIdx
    rw [childrenBelow_all, hchild, if_pos rfl, if_pos (by decide)] at howned
    exact howned
  obtain ⟨x, hx, heq⟩ := Vector.countP_pos_iff.mp (Nat.lt_of_lt_of_eq Nat.one_pos hone.symm)
  obtain ⟨i, hi, rfl⟩ := Vector.mem_iff_getElem.mp hx
  exact ⟨⟨i, hi⟩, beq_iff_eq.mp heq⟩

end Forest

end Builder

/-- The tables of a builder that has made its merges (R80). -/
def Builder.tables (b : Builder) : Tables where
  node := b.node
  root := rootIdx
  code := codeTable b.node rootIdx

theorem Builder.tables_node (b : Builder) : b.tables.node = b.node := rfl

theorem buildTables_eq (p : Params) (a : Arena) : buildTables p a = (Builder.merges p 255 (Builder.init p a)).tables := by
  unfold buildTables
  generalize Builder.merges p 255 (Builder.init p a) = b
  rfl

/-- Settles O21: the forest after m merges says which slots are live, and each further merge is the described one. -/
theorem liveSlotsAtMerge : Obligations.LiveSlotsAtMerge := by
  intro p a
  have hforest := Builder.merges_forest p a
  refine ⟨fun m hm => (hforest m hm).live, fun m hm => ?_, (hforest 255 (Nat.le_refl _)).exists_root_slot, ?_⟩
  · rw [Builder.merges_succ]
    exact (hforest m (by omega)).mergeOk hm
  · rw [buildTables_eq, Builder.tables_node]

/-! ## The parameters that BUILD reads -/

/-- The tuple with other capacities MAX_IN and MAX_OUT (R2). -/
def Params.withCapacity (p : Params) (maxIn maxOut : Nat) : Params := { p with maxIn := maxIn, maxOut := maxOut }

theorem Params.exists_eq_withCapacity {p p' : Params} (hfreq : p.freq = p'.freq) (hfmt : p.fmt = p'.fmt)
    (hscan : p.scanOrder = p'.scanOrder) (hslot : p.mergeSlot = p'.mergeSlot) (hbit : p.k1Bit = p'.k1Bit) :
    ∃ i o, p' = p.withCapacity i o := by
  cases p
  cases p'
  cases hfreq; cases hfmt; cases hscan; cases hslot; cases hbit
  exact ⟨_, _, rfl⟩

section capacity
variable (p : Params) (i o : Nat)

theorem Builder.init_withCapacity (a : Arena) : Builder.init (p.withCapacity i o) a = Builder.init p a := rfl

theorem Builder.merge_withCapacity (b : Builder) : b.merge (p.withCapacity i o) = b.merge p := rfl

theorem Builder.merges_withCapacity (n : Nat) (b : Builder) :
    Builder.merges (p.withCapacity i o) n b = Builder.merges p n b := by
  induction n generalizing b with
  | zero => rfl
  | succ n ih => rw [Builder.merges, Builder.merges, Builder.merge_withCapacity, ih]

/-- R95: the capacities do not enter the tables. -/
theorem buildTables_withCapacity (a : Arena) : buildTables (p.withCapacity i o) a = buildTables p a := by
  rw [buildTables_eq, buildTables_eq, Builder.init_withCapacity, Builder.merges_withCapacity]

end capacity

/-! ## The arena that BUILD starts from -/

/-- R83: a selection depends on the arena through the weights of the live slots. -/
theorem selectLowest_congr (p : Params) {node node' : Arena} {slot : Slots} (excl : Option SlotIdx)
    (h : ∀ j, slotWeight node' slot j = slotWeight node slot j) :
    selectLowest p node' slot excl = selectLowest p node slot excl := by
  have hweight : slotWeight node' slot = slotWeight node slot := funext h
  have hbetter : betterSlot p.fmt node' slot excl = betterSlot p.fmt node slot excl := by
    funext best j
    rw [betterSlot, betterSlot, hweight]
  rw [selectLowest, selectLowest, hbetter]

/-- Two builders that agree on all that m merges have written. -/
structure Builder.Agree (m : Nat) (b b' : Builder) : Prop where
  node : ∀ n : NodeIdx, n.val < 256 + m → b'.node[n] = b.node[n]
  slot : b'.slot = b.slot
  mcnt : b'.mcnt = b.mcnt

namespace Builder.Agree
variable {p : Params} {m : Nat} {b b' : Builder}

/-- R81: initialisation writes the leaves and the slots. -/
theorem init (p : Params) (a a' : Arena) : (Builder.init p a).Agree 0 (Builder.init p a') where
  node n hn := by
    obtain ⟨s, rfl⟩ := exists_eq_leafIdx hn
    rw [(Builder.init_forest p a').leaves, (Builder.init_forest p a).leaves]
  slot := rfl
  mcnt := rfl

/-- The live slots hold nodes already written, so both builders select the same slots. -/
theorem selectLowest_eq (h : b.Agree m b') (hf : b.Forest p m) (excl : Option SlotIdx) :
    selectLowest p b'.node b'.slot excl = selectLowest p b.node b.slot excl := by
  rw [h.slot]
  refine selectLowest_congr p excl fun j => ?_
  cases hj : b.slot[j] with
  | none => rw [slotWeight, slotWeight, hj]; rfl
  | some n =>
    rw [slotWeight, slotWeight, hj]
    exact congrArg (fun e => some e.weight) (h.node n (hf.lt_of_slot hj))

/-- A merge joins the same nodes in both builders, and writes the same new node. -/
theorem merge (h : b.Agree m b') (hf : b.Forest p m) (hf' : b'.Forest p m) (hm : m < 255) :
    (b.merge p).Agree (m + 1) (b'.merge p) := by
  obtain ⟨k1, k2, n1, n2, e1, e2, hn1, hn2, e⟩ := hf.exists_joined hm
  obtain ⟨k1', k2', n1', n2', e1', e2', hn1', hn2', e'⟩ := hf'.exists_joined hm
  rw [h.selectLowest_eq hf, e1] at e1'
  cases e1'
  rw [h.selectLowest_eq hf, e2] at e2'
  cases e2'
  rw [h.slot, hn1] at hn1'
  cases hn1'
  rw [h.slot, hn2] at hn2'
  cases hn2'
  rw [e, e']
  have hidx : mergedIdx b'.mcnt = mergedIdx b.mcnt := congrArg mergedIdx h.mcnt
  refine ⟨fun n hn => ?_, ?_, congrArg (· + 1) h.mcnt⟩
  · by_cases hnew : n = mergedIdx b.mcnt
    · rw [get_joined_new hnew, get_joined_new (hnew.trans hidx.symm)]
      exact mergedNode_congr p (h.node n1 (hf.lt_of_slot hn1)) (h.node n2 (hf.lt_of_slot hn2))
    · have hval := Fin.val_ne_of_ne hnew
      rw [hf.mergedIdx_val hm] at hval
      rw [get_joined_of_ne hnew, get_joined_of_ne (hidx ▸ hnew)]
      exact h.node n (by omega)
  · rw [joined_slot, joined_slot, h.slot, hidx]

/-- R95: from any two arenas, m merges leave the same. -/
theorem merges (p : Params) (a a' : Arena) (m : Nat) (hm : m ≤ 255) :
    (Builder.merges p m (Builder.init p a)).Agree m (Builder.merges p m (Builder.init p a')) := by
  induction m with
  | zero => exact init p a a'
  | succ m ih =>
    rw [Builder.merges_succ, Builder.merges_succ]
    exact (ih (by omega)).merge (Builder.merges_forest p a m (by omega)) (Builder.merges_forest p a' m (by omega)) (by omega)

end Builder.Agree

/-- R95: BUILD writes every node, so the arena that it starts from leaves no trace. -/
theorem buildTables_arena (p : Params) (a a' : Arena) : buildTables p a = buildTables p a' := by
  have hagree := Builder.Agree.merges p a a' 255 (Nat.le_refl _)
  have hnode : (Builder.merges p 255 (Builder.init p a')).node = (Builder.merges p 255 (Builder.init p a)).node :=
    Vector.ext fun i hi => hagree.node ⟨i, hi⟩ hi
  rw [buildTables_eq, buildTables_eq, Builder.tables, Builder.tables, hnode]

/-- Settles O20: neither the capacities nor the arena that a BUILD finds enter its tables. -/
theorem buildIsDeterministic : Obligations.BuildIsDeterministic := by
  refine ⟨fun p p' a a' hfreq hfmt hscan hslot hbit => ?_, fun s t u ht hu => ?_⟩
  · obtain ⟨i, o, rfl⟩ := Params.exists_eq_withCapacity hfreq hfmt hscan hslot hbit
    rw [buildTables_withCapacity, buildTables_arena]
  · cases ht
    cases hu
    rw [Machine.State.completeBuild_tables, Machine.State.completeBuild_tables, Machine.State.completeBuild_cfg]
    exact buildTables_arena ..

end Sys2Proof

/-! PROOFS, family 41_encode, part 1: the frame that ENCODE makes (O28, O29, O30, O31). -/

namespace Sys2Proof

/-! ## The packed bytes -/

/-- R103: P is L / 8, rounded up. -/
theorem packedLen_eq (l : Nat) : packedLen l = (l + 7) / 8 := by
  unfold packedLen padBits; omega

theorem padBits_eq (l : Nat) : padBits l = 8 * packedLen l - l := by
  have := packedLen_spec l; omega

/-- Past its end a string reads as 0, so zeros appended to it change no bit. -/
theorem getD_append_replicate (b : Bits) (n k : Nat) : (b ++ List.replicate n false).getD k false = b.getD k false := by
  obtain hk | hk := Nat.lt_or_ge k b.length
  · exact List.getD_append _ _ _ _ hk
  · rw [List.getD_append_right _ _ _ _ hk, List.getD_eq_default _ _ hk, List.getD_eq_getElem?_getD,
      List.getElem?_getD_replicate_default_eq]

/-- R106: bit k of the padded string is code bit k, and 0 from L on. -/
theorem paddedBits_getD (b : Bits) (k : Nat) : (paddedBits b).getD k false = b.getD k false :=
  getD_append_replicate b _ k

/-- R104: code bit k stands in packed byte k div 8 at bit position k mod 8. -/
theorem packBits_getElem? (b : Bits) {k : Nat} (hk : k < 8 * packedLen b.length) :
    ∃ v, (packBits b)[k / 8]? = some v ∧ v.getLsbD (k % 8) = b.getD k false := by
  have hq : k / 8 < packedLen b.length := by omega
  have hr : k % 8 < 8 := Nat.mod_lt k (by decide)
  refine ⟨lsb8 (((paddedBits b).drop (8 * (k / 8))).take 8), by simp [packBits, hq], ?_⟩
  rw [lsb8_getLsbD _ _ hr, ← paddedBits_getD b k]
  simp [List.getD_eq_getElem?_getD, hr, Nat.div_add_mod]

/-! ## The frame -/

theorem encodeFrame_raw {code : CodeTable} {x : List Byte} (h : x.length ≤ packedLen (codeBits code x).length) :
    encodeFrame code x = sentinel :: x := if_pos h

theorem encodeFrame_compressed {code : CodeTable} {x : List Byte} (h : packedLen (codeBits code x).length < x.length) :
    encodeFrame code x = BitVec.ofNat 8 (padBits (codeBits code x).length) :: packBits (codeBits code x) :=
  if_neg (Nat.not_le.mpr h)

/-- R64: a padding count is a header byte of a compressed frame. -/
theorem headerKind_padBits (l : Nat) :
    headerKind (BitVec.ofNat 8 (padBits l)) = .compressed (BitVec.ofNat 3 (padBits l)) := by
  have hpad : BitVec.ofNat 8 (padBits l) = (BitVec.ofNat 3 (padBits l)).zeroExtend 8 := by
    have := padBits_lt l
    apply BitVec.eq_of_toNat_eq
    simp
    omega
  rw [hpad, headerKind_zeroExtend]

theorem headerKind_sentinel : headerKind sentinel = .raw := rfl

/-- R70: the header byte of a frame that ENCODE makes is of a row that DECODE accepts. -/
theorem encodeFrame_header (code : CodeTable) (x : List Byte) :
    ∃ h payload, encodeFrame code x = h :: payload ∧ headerKind h ≠ .reserved := by
  obtain ⟨-, e⟩ | ⟨-, e⟩ := encodeFrame_cases code x
  · exact ⟨_, _, e, by rw [headerKind_sentinel]; nofun⟩
  · exact ⟨_, _, e, by rw [headerKind_padBits]; nofun⟩

namespace Machine
variable {s : State}

/-! ## Completions -/

theorem State.raise_completed (s : State) (e : ErrCode) (c : SubCode) : Completed (s.raise e c) s.built e c 0 :=
  ⟨s.raise_status e c, s.raise_olen e c, s.raise_phase e c⟩

theorem State.succeed_completed (s : State) (out : List Byte) : Completed (s.succeed out) s.built .ok .none out.length :=
  ⟨s.succeed_status out, s.succeed_olen out, s.succeed_phase out⟩

/-- R156: an error that is found before the command writes leaves OBUF. -/
theorem State.raise_sameObuf (s : State) (e : ErrCode) (c : SubCode) : SameObuf s (s.raise e c) :=
  fun a => congrArg (Memory.read · a) (s.raise_obuf e c)

/-! ## The command -/

/-- R100: ENCODE is its checks and then the frame. -/
theorem exec_encode_eq (s : State) : exec .encode s = .next (checkData s encodeBody) := rfl

/-- R101: ENCODE's first check. -/
theorem exec_encode_notBuilt (hb : s.built = false) : exec .encode s = .next (s.raise .notBuilt .none) := by
  rw [exec_encode_eq, checkData, if_pos hb]

/-- R101: ENCODE's second check. -/
theorem exec_encode_lenRange (hb : s.built = true) (hl : s.cfg.maxIn < s.ilen) :
    exec .encode s = .next (s.raise .lenRange .none) := by
  rw [exec_encode_eq, checkData, if_neg (by simp [hb]), if_pos hl]

/-- R102 to R108: with both checks passed, ENCODE leaves the frame of the input. -/
theorem exec_encode_frame (hb : s.built = true) (hl : s.ilen ≤ s.cfg.maxIn) :
    exec .encode s = .next (s.succeed (encodeFrame s.code s.input)) := by
  rw [exec_encode_eq, checkData_pass hb hl, encodeBody]

/-- R18, R29: ENCODE leaves the input and the tables. -/
theorem exec_encode_keeps {t : State} (h : exec .encode s = .next t) : SameInput s t ∧ SameTables s t :=
  ⟨(exec_ending h).sameInput, (exec_ending h).sameTables (by decide)⟩

/-- R109: ENCODE's one way to succeed, whichever frame it makes. -/
theorem encode_completes {frame : List Byte} (hb : s.built = true) (hl : s.ilen ≤ s.cfg.maxIn)
    (e : encodeFrame s.code s.input = frame) :
    exec .encode s = .next (s.succeed frame) ∧ Completed (s.succeed frame) true .ok .none frame.length ∧
      SameInput s (s.succeed frame) ∧ SameTables s (s.succeed frame) := by
  have h := exec_encode_frame hb hl
  rw [e] at h
  exact ⟨h, hb ▸ s.succeed_completed frame, exec_encode_keeps h⟩

/-- R20: byte i of the input is the byte that the engine reads at IBUF[i]. -/
theorem State.input_getElem? {i : Nat} (h : i < s.ilen) : s.input[i]? = some (s.inputByte i) := by
  simp [State.input, h]

/-- Settles O28: the state fails one of the two checks, in their order. -/
theorem encodeChecks : Obligations.EncodeChecks := by
  intro s
  constructor
  · intro hb
    have h := exec_encode_notBuilt hb
    obtain ⟨hin, htab⟩ := exec_encode_keeps h
    exact ⟨_, h, hb ▸ s.raise_completed .notBuilt .none, hin, htab, s.raise_sameObuf _ _⟩
  · intro hb hl
    have h := exec_encode_lenRange hb hl
    obtain ⟨hin, htab⟩ := exec_encode_keeps h
    exact ⟨_, h, hb ▸ s.raise_completed .lenRange .none, hin, htab, s.raise_sameObuf _ _⟩

/-- Settles O29: the frame is the raw one, and OBUF holds the frame byte for byte. -/
theorem encodeRawFrame : Obligations.EncodeRawFrame := by
  intro s hb hl hP
  rw [← packedLen_eq, ← s.input_length] at hP
  obtain ⟨h, hdone, hin, htab⟩ := encode_completes hb hl (encodeFrame_raw hP)
  rw [List.length_cons, State.input_length] at hdone
  refine ⟨_, h, hdone, hin, htab, by simp [sentinel], fun i hi => ?_⟩
  rw [State.succeed_obuf, Memory.read_ofBytes, Nat.add_comm, List.getElem?_cons_succ, State.input_getElem? hi]

/-- Settles O30: the frame is the compressed one, whose packed bytes `packBits_getElem?` describes bit by bit. -/
theorem encodeCompressedFrame : Obligations.EncodeCompressedFrame := by
  intro s P hb hl hP hlt
  rw [← packedLen_eq] at hP
  subst hP
  have hpad := padBits_eq (codeBits s.code s.input).length
  obtain ⟨h, hdone, hin, htab⟩ := encode_completes hb hl (encodeFrame_compressed (by rwa [State.input_length]))
  rw [List.length_cons, packBits_length] at hdone
  refine ⟨_, h, hdone, hin, htab, ?_, ?_, fun k hk => ?_⟩
  · rw [← hpad, State.succeed_obuf, Memory.read_ofBytes, List.getElem?_cons_zero]
  · rw [← hpad]
    exact Nat.le_of_lt_succ (padBits_lt _)
  · obtain ⟨v, hv, hbit⟩ := packBits_getElem? (codeBits s.code s.input) hk
    exact ⟨v, by rw [State.succeed_obuf, Memory.read_ofBytes, Nat.add_comm, List.getElem?_cons_succ, hv], hbit⟩

/-- Settles O31: the bounds are those of the frame's length, and the header byte is its first. -/
theorem encodeOutputSize : Obligations.EncodeOutputSize := by
  intro s hb hl
  obtain ⟨header, payload, e, hkind⟩ := encodeFrame_header s.code s.input
  obtain ⟨hpos, hlen⟩ := encodeFrame_length s.code s.input
  rw [State.input_length] at hlen
  refine ⟨_, header, exec_encode_frame hb hl, s.succeed_err _, hpos, hlen, ?_, ?_, hkind⟩
  · exact (Nat.succ_le_succ hl).trans s.cfg.wf.output
  · rw [State.succeed_obuf, Memory.read_ofBytes, e, List.getElem?_cons_zero]

end Machine

end Sys2Proof

/-! PROOFS, family 41_encode, part 2: packing by stream, and the streaming encoder (O32). -/

namespace Sys2Proof

/-! ## Bytes and their streams -/

theorem bits8_injective {v v' : Byte} (h : bits8 v = bits8 v') : v = v' := by
  rw [← lsb8_bits8 v, h, lsb8_bits8]

theorem stream_append (v w : List Byte) : stream (v ++ w) = stream v ++ stream w := List.flatMap_append

/-- R41: every byte has eight bits, so a stream can be cut into its bytes in one way. -/
theorem stream_injective {v w : List Byte} (h : stream v = stream w) : v = w := by
  induction v generalizing w with
  | nil =>
    cases w with
    | nil => rfl
    | cons c w => exact absurd (congrArg List.length h) (by simp; omega)
  | cons b v ih =>
    cases w with
    | nil => exact absurd (congrArg List.length h) (by simp)
    | cons c w =>
      obtain ⟨hhead, htail⟩ := List.append_inj h (by simp)
      rw [bits8_injective hhead, ih htail]

/-- R104: bytes cut from a string of 8n bits stream that string. -/
theorem stream_chunks (n : Nat) (b : Bits) (h : b.length = 8 * n) :
    stream ((List.range n).map fun q => lsb8 ((b.drop (8 * q)).take 8)) = b := by
  induction n generalizing b with
  | zero => exact (List.length_eq_zero_iff.mp h).symm
  | succ n ih =>
    have hhead : bits8 (lsb8 (b.take 8)) = b.take 8 := bits8_lsb8 _ (by simp; omega)
    have htail := ih (b.drop 8) (by simp; omega)
    simp only [List.drop_drop] at htail
    rw [List.range_succ_eq_map, List.map_cons, List.map_map, stream_cons, Nat.mul_zero, List.drop_zero, hhead]
    simp only [Function.comp_def, Nat.mul_succ, Nat.add_comm _ 8]
    rw [htail, List.take_append_drop]

/-- R104, R106: the packed bytes stream the padded string. -/
theorem stream_packBits (b : Bits) : stream (packBits b) = paddedBits b :=
  stream_chunks _ _ (paddedBits_length b)

/-- R104: and no other bytes do. -/
theorem packBits_eq_of_stream {b : Bits} {v : List Byte} (h : stream v = paddedBits b) : packBits b = v :=
  stream_injective ((stream_packBits b).trans h.symm)

/-- R41: a position beyond the string holds a 0, as does one that is filled up with a 0. -/
theorem lsb8_append_replicate (b : Bits) (n : Nat) : lsb8 (b ++ List.replicate n false) = lsb8 b := by
  apply BitVec.eq_of_getLsbD_eq
  intro k hk
  rw [lsb8_getLsbD _ _ hk, lsb8_getLsbD _ _ hk, getD_append_replicate]

/-- R41: a string of at most eight bits, filled up with 0. -/
theorem bits8_lsb8_of_le {b : Bits} (h : b.length ≤ 8) : bits8 (lsb8 b) = b ++ List.replicate (8 - b.length) false := by
  rw [← lsb8_append_replicate b (8 - b.length), bits8_lsb8 _ (by simp; omega)]

/-- R113: `ACC[NACC] <- c` appends c to the bits that the accumulator holds. -/
theorem lsb8_concat {r : Bits} (h : r.length < 8) (c : Bool) :
    lsb8 (r ++ [c]) = if c then lsb8 r ||| (1#8 <<< r.length) else lsb8 r := by
  cases c
  · exact lsb8_append_replicate r 1
  · apply BitVec.eq_of_getLsbD_eq
    intro k hk
    rw [if_pos rfl, BitVec.getLsbD_or, lsb8_getLsbD _ _ hk, lsb8_getLsbD _ _ hk, BitVec.getLsbD_shiftLeft, BitVec.getLsbD_one]
    obtain hr | rfl | hr := Nat.lt_trichotomy k r.length
    · rw [List.getD_append _ _ _ _ hr]
      simp [hr]
    · simp [h]
    · rw [List.getD_eq_default _ _ (by simp; omega), List.getD_eq_default _ _ (by omega)]
      simp; omega

/-! ## The packer -/

/-- R113: the packer after the bits b: the packed bytes hold all of them but the last NACC, which are in the accumulator. -/
def Packer.Holds (k : Packer) (b : Bits) : Prop :=
  ∃ r, b = stream k.packed ++ r ∧ r.length = k.nacc ∧ k.nacc < 8 ∧ k.acc = lsb8 r

namespace Packer
variable {k : Packer} {b : Bits}

theorem holds_start : start.Holds [] := ⟨[], rfl, rfl, by decide, rfl⟩

/-- R113: one bit enters. -/
theorem Holds.push (h : k.Holds b) (c : Bool) : (k.push c).Holds (b ++ [c]) := by
  obtain ⟨r, rfl, hr, hlt, hacc⟩ := h
  have hnew : (if c then k.acc ||| (1#8 <<< k.nacc) else k.acc) = lsb8 (r ++ [c]) := by
    rw [hacc, ← hr, lsb8_concat (by omega)]
  rw [Packer.push, hnew]
  split
  case isTrue hfull =>
    have hstream : stream (k.packed ++ [lsb8 (r ++ [c])]) = stream k.packed ++ (r ++ [c]) := by
      rw [stream_append, stream_cons, stream_nil, List.append_nil, bits8_lsb8 _ (by simp; omega)]
    exact ⟨[], by simp [hstream], rfl, Nat.succ_pos 7, rfl⟩
  case isFalse hpart =>
    exact ⟨r ++ [c], List.append_assoc _ _ _, by simp [hr], by dsimp only; omega, rfl⟩

theorem Holds.foldl (h : k.Holds b) (b' : Bits) : (b'.foldl Packer.push k).Holds (b ++ b') := by
  induction b' generalizing k b with
  | nil => rwa [List.append_nil]
  | cons c rest ih =>
    have := ih (h.push c)
    rwa [List.append_assoc] at this

/-- R113: the end of packing gives the packed bytes and the padding count of R103 and R104. -/
theorem Holds.finish (h : k.Holds b) : k.finish = (packBits b, padBits b.length) := by
  obtain ⟨r, hb, hr, hlt, hacc⟩ := h
  have hlen : b.length = 8 * k.packed.length + k.nacc := by rw [hb, List.length_append, stream_length, hr]
  rw [Packer.finish]
  split
  case isTrue hpart =>
    have hpad : padBits b.length = 8 - k.nacc := by rw [padBits]; omega
    have hstream : stream (k.packed ++ [k.acc]) = paddedBits b := by
      rw [stream_append, stream_cons, stream_nil, List.append_nil, hacc, bits8_lsb8_of_le (by omega), hr, paddedBits, hpad, hb,
        List.append_assoc]
    rw [packBits_eq_of_stream hstream, hpad]
  case isFalse hempty =>
    have hpad : padBits b.length = 0 := by rw [padBits]; omega
    have hnil : r = [] := List.length_eq_zero_iff.mp (by omega)
    have hstream : stream k.packed = paddedBits b := by
      rw [paddedBits, hpad, hb, hnil, List.append_nil, List.replicate_zero, List.append_nil]
    rw [packBits_eq_of_stream hstream, hpad]

/-- R113: the end of packing loses no packed byte. -/
theorem finish_packed_length (k : Packer) : k.packed.length ≤ k.finish.1.length := by
  rw [Packer.finish]
  split <;> simp

end Packer

/-- R113: packing bit by bit gives what R103 and R104 define on the whole string. -/
theorem streamPack_eq (b : Bits) : streamPack b = (packBits b, padBits b.length) :=
  (Packer.holds_start.foldl b).finish

/-! ## The streaming encoder -/

theorem streamEncode_eq (code : CodeTable) (x : List Byte) : streamEncode code x = encodeFrame code x := by
  rw [streamEncode, streamPack_eq, frameOfPacked, packBits_length]
  rfl

/-- R113: when packing has stopped, at least N bytes are packed, so the frame is the raw one. -/
theorem streamEncodeEarly_eq (code : CodeTable) (x : List Byte) : streamEncodeEarly code x = streamEncode code x := by
  rw [streamEncodeEarly, Packer.pushUntil_eq, streamEncode, streamPack]
  by_cases h : x.length ≤ ((codeBits code x).foldl Packer.push Packer.start).packed.length
  · rw [if_pos h, frameOfPacked, if_pos (h.trans (Packer.finish_packed_length _))]
  · rw [if_neg h]

/-- Settles O32: the stop only leaves out work whose result the raw frame does not hold. -/
theorem streamingEncoderAgrees : Obligations.StreamingEncoderAgrees := fun code x =>
  ⟨streamEncode_eq code x, (streamEncodeEarly_eq code x).trans (streamEncode_eq code x)⟩

end Sys2Proof

/-! PROOFS, family 41_encode, part 3: DECODE gives back what ENCODE was given (O47). -/

namespace Sys2Proof

/-! ## The walk of code words -/

section walk
variable {node : Arena} {root : NodeIdx} {maxOut opos : Nat}

theorem childOf_of_edge {n m : NodeIdx} {c : Bool} (e : Edge node n c m) : childOf node n c = m := by
  obtain ⟨c0, c1, w, hn, rfl⟩ := e
  rw [childOf, hn]

/-- R123: a bit that leads to an internal node. -/
theorem walk_edge_internal {n m c0 c1 : NodeIdx} {c : Bool} {w : Weight} (e : Edge node n c m)
    (hm : node[m] = .internal c0 c1 w) (b : Bits) :
    walk node root maxOut n opos (c :: b) = walk node root maxOut m opos b := by
  rw [walk]
  simp only [childOf_of_edge e, hm]

/-- R124: a bit that leads to a leaf, with room in OBUF for its symbol. -/
theorem walk_edge_leaf {n m : NodeIdx} {c : Bool} {s : Byte} {w : Weight} (e : Edge node n c m) (hm : node[m] = .leaf s w)
    (hroom : opos < maxOut) (b : Bits) :
    walk node root maxOut n opos (c :: b) = (walk node root maxOut root (opos + 1) b).map (s :: ·) := by
  rw [walk]
  simp only [childOf_of_edge e, hm, if_neg (Nat.not_le.mpr hroom)]
  cases walk node root maxOut root (opos + 1) b <;> rfl

/-- R123, R124: a whole path to a leaf emits the leaf's symbol; the walk goes on at the root. -/
theorem walk_path {n k : NodeIdx} {b : Bits} {s : Byte} {w : Weight} (hb : descend node n b = some k) (hne : b ≠ [])
    (hk : node[k] = .leaf s w) (hroom : opos < maxOut) (r : Bits) :
    walk node root maxOut n opos (b ++ r) = (walk node root maxOut root (opos + 1) r).map (s :: ·) := by
  induction b generalizing n with
  | nil => exact absurd rfl hne
  | cons c rest ih =>
    obtain ⟨m, e, hm⟩ := descend_cons.mp hb
    cases rest with
    | nil =>
      cases hm
      exact walk_edge_leaf e hk hroom r
    | cons c' rest =>
      obtain ⟨_, ⟨c0, c1, w', hint, -⟩, -⟩ := descend_cons.mp hm
      exact (walk_edge_internal e hint _).trans (ih hm (List.cons_ne_nil _ _))

/-- R124: the code words of x emit x, where the tables read its symbols back and OBUF has room for them. -/
theorem walk_codeBits {t : Tables} {x : List Byte} (h : ReadsBack t x) (hroom : opos + x.length ≤ maxOut) (r : Bits) :
    walk t.node t.root maxOut t.root opos (codeBits t.code x ++ r) =
      (walk t.node t.root maxOut t.root (opos + x.length) r).map (x ++ ·) := by
  induction x generalizing opos with
  | nil =>
    show walk t.node t.root maxOut t.root opos r = (walk t.node t.root maxOut t.root opos r).map id
    cases walk t.node t.root maxOut t.root opos r <;> rfl
  | cons s x ih =>
    rw [List.length_cons] at hroom ⊢
    obtain ⟨⟨hne, k, w, hpath, hleaf⟩, hx⟩ := List.forall_mem_cons.mp h
    have hrest := ih hx (opos := opos + 1) (by omega)
    rw [codeBits, List.flatMap_cons, List.append_assoc, walk_path hpath hne hleaf (by omega)]
    rw [codeBits] at hrest
    rw [hrest, Nat.add_right_comm, Nat.add_assoc opos]
    cases walk t.node t.root maxOut t.root (opos + (x.length + 1)) r <;> rfl

/-- R125: and the walk ends at the root. -/
theorem walk_codeBits_eq_ok {t : Tables} {x : List Byte} (h : ReadsBack t x) (hroom : x.length ≤ maxOut) :
    walk t.node t.root maxOut t.root 0 (codeBits t.code x) = .ok x := by
  have hwalk := walk_codeBits (maxOut := maxOut) (opos := 0) h (by omega) []
  rw [List.append_nil, walk, if_pos rfl] at hwalk
  rw [hwalk]
  exact congrArg Except.ok (List.append_nil x)

end walk

/-- R28 (e), R91: the tables of the tree read every symbol back. -/
theorem Tables.TreeOk.readsBack {p : Params} {t : Tables} (h : t.TreeOk p) (x : List Byte) : ReadsBack t x := by
  intro s _
  obtain ⟨hlen, -⟩ := codeLengthBounds p t h (symIdx s)
  exact ⟨List.ne_nil_of_length_pos hlen, leafIdx s, _, h.root ▸ h.descend_code s, h.leaves s⟩

/-- Only the empty input has no code bits. -/
theorem codeBits_eq_nil {t : Tables} {x : List Byte} (h : ReadsBack t x) (hnil : codeBits t.code x = []) : x = [] := by
  cases x with
  | nil => rfl
  | cons s x =>
    obtain ⟨⟨hne, -⟩, -⟩ := List.forall_mem_cons.mp h
    exact absurd (List.append_eq_nil_iff.mp hnil).1 hne

/-! ## The payload of a compressed frame -/

/-- R122: without the padding bits, the packed bytes stream the code bits. -/
theorem retained_packBits (b : Bits) : retained (BitVec.ofNat 3 (padBits b.length)) (packBits b) = b := by
  have hpad : (BitVec.ofNat 3 (padBits b.length)).toNat = padBits b.length := by
    rw [BitVec.toNat_ofNat, Nat.mod_eq_of_lt (padBits_lt _)]
  rw [retained, stream_packBits, packBits_length, hpad, packedLen_spec, Nat.add_sub_cancel, paddedBits,
    List.take_left' rfl]

theorem packBits_eq_nil {b : Bits} (h : packBits b = []) : b = [] := by
  rw [← retained_packBits b, h, retained, stream_nil, List.take_nil]

namespace Machine
variable {s : State}

/-! ## DECODE of a given frame -/

/-- R118: the header byte and the payload are the two parts of the input. -/
theorem input_eq_cons {h : Byte} {payload : List Byte} (e : s.input = h :: payload) :
    s.inputByte 0 = h ∧ s.payload = payload ∧ 0 < s.ilen := by
  have hlen : 0 < s.ilen := by rw [← s.input_length, e]; exact Nat.succ_pos _
  have hhead := State.input_getElem? hlen
  rw [e, List.getElem?_cons_zero] at hhead
  exact ⟨(Option.some.inj hhead).symm, by rw [State.payload, e, List.drop_one, List.tail_cons], hlen⟩

/-- R116 to R118: DECODE of a frame that passes the checks. -/
theorem exec_decode_frame {h : Byte} {payload : List Byte} (hb : s.built = true) (hl : s.ilen ≤ s.cfg.maxIn)
    (e : s.input = h :: payload) : exec .decode s = .next (decodeBody (headerKind h) s) := by
  obtain ⟨hhead, -, hlen⟩ := input_eq_cons e
  rw [exec_decode_eq, checkFrame_pass hb hl hlen, hhead]

/-- R119: DECODE of a raw frame. -/
theorem exec_decode_raw {x : List Byte} (hb : s.built = true) (hl : s.ilen ≤ s.cfg.maxIn) (e : s.input = sentinel :: x) :
    exec .decode s = .next (s.succeed x) := by
  obtain ⟨-, hpayload, -⟩ := input_eq_cons e
  rw [exec_decode_frame hb hl e, headerKind_sentinel, decodeBody, hpayload]

/-- R122 to R125: DECODE of the compressed frame of x, which is not empty. -/
theorem exec_decode_packed {x : List Byte} (hread : ReadsBack s.tables x) (hb : s.built = true) (hl : s.ilen ≤ s.cfg.maxIn)
    (hx : x ≠ []) (hroom : x.length ≤ s.cfg.maxOut)
    (e : s.input = BitVec.ofNat 8 (padBits (codeBits s.code x).length) :: packBits (codeBits s.code x)) :
    exec .decode s = .next (s.succeed x) := by
  obtain ⟨-, hpayload, -⟩ := input_eq_cons e
  have hne : s.payload ≠ [] := fun hnil => hx (codeBits_eq_nil hread (packBits_eq_nil (hpayload.symm.trans hnil)))
  have hwalk : walk s.node s.root s.cfg.maxOut s.root 0 (codeBits s.code x) = .ok x := walk_codeBits_eq_ok hread hroom
  rw [exec_decode_frame hb hl e, headerKind_padBits, decodeBody, if_neg hne, hpayload, retained_packBits, hwalk, State.finishWalk]

/-- R111: DECODE of the frame that ENCODE makes of x. -/
theorem exec_decode_encodeFrame {x : List Byte} (hread : ReadsBack s.tables x) (hb : s.built = true) (hl : s.ilen ≤ s.cfg.maxIn)
    (hroom : x.length ≤ s.cfg.maxOut) (e : s.input = encodeFrame s.code x) : exec .decode s = .next (s.succeed x) := by
  obtain ⟨-, hframe⟩ | ⟨hlt, hframe⟩ := encodeFrame_cases s.code x
  · exact exec_decode_raw hb hl (e.trans hframe)
  · exact exec_decode_packed hread hb hl (List.ne_nil_of_length_pos (Nat.zero_lt_of_lt hlt)) hroom (e.trans hframe)

/-! ## The frame copied back -/

/-- R47: what IBUF holds when OBUF[0..n-1] has been copied to it. -/
theorem read_copiedIbuf (s : State) (n a : Nat) :
    Memory.read (copiedIbuf s n) a = if a < n then some ((Memory.read s.obuf a).getD 0) else Memory.read s.ibuf a := by
  induction n with
  | zero => rfl
  | succ n ih =>
    rw [copiedIbuf_succ, Memory.read_write, ih]
    obtain h | rfl | h := Nat.lt_trichotomy a n
    · rw [if_neg (by omega), if_pos h, if_pos (by omega)]
    · rw [if_pos rfl, if_pos (Nat.lt_succ_self a)]
    · rw [if_neg (by omega), if_neg (by omega), if_neg (by omega)]

/-- R73: after COPYBACK the input is the output of the command before. -/
theorem input_copiedBack_succeed (s : State) (out : List Byte) : (s.succeed out).copiedBack.input = out := by
  have hilen : (s.succeed out).copiedBack.ilen = out.length := rfl
  apply List.ext_getElem?
  intro a
  obtain ha | ha := Nat.lt_or_ge a out.length
  · rw [State.input_getElem? (by rwa [hilen]), State.inputByte, copiedBack_eq, read_copiedIbuf, State.succeed_olen, if_pos ha,
      State.succeed_obuf, Memory.read_ofBytes, List.getElem?_eq_getElem ha]
    rfl
  · rw [List.getElem?_eq_none (by rwa [State.input_length, hilen]), List.getElem?_eq_none ha]

/-- R19, R21: the output that a success leaves for the host. -/
theorem State.succeed_output (s : State) (out : List Byte) : (s.succeed out).output = out.map some := by
  apply List.ext_getElem?
  intro a
  obtain ha | ha := Nat.lt_or_ge a out.length <;> simp [State.output, ha]

/-- Settles O47: ENCODE and COPYBACK leave a built block whose tables are as before and whose input is the frame of x. -/
theorem roundTripGivesInput : Obligations.RoundTripGivesInput := by
  intro s t htree hb hl ht hfit
  rw [exec_encode_frame hb hl] at ht
  cases ht
  have hbuilt := (s.succeed_built (encodeFrame s.code s.input)).trans hb
  have hroom : s.input.length ≤ s.cfg.maxOut := by
    have hcap := s.cfg.wf.output
    rw [State.input_length]
    omega
  have hdecode := exec_decode_encodeFrame (s := (s.succeed (encodeFrame s.code s.input)).copiedBack) (htree.readsBack s.input)
    hbuilt hfit hroom (input_copiedBack_succeed s _)
  have hdone := (s.succeed (encodeFrame s.code s.input)).copiedBack.succeed_completed s.input
  rw [State.input_length] at hdone
  exact ⟨_, hdecode, hbuilt ▸ hdone, State.succeed_output _ _⟩

end Machine

end Sys2Proof

/-! PROOFS, family 42_decode, part 1: the streaming decoder and the lazy-emission walk (O45, O46), walks that fail, and what a walk
that succeeds has read. -/

namespace Sys2Proof

/-! ## The streaming decoder -/

/-- R125: what is made of the walker when the bits have ended. -/
def Walker.result (root : NodeIdx) (k : Walker) : Except WalkError (List Byte) :=
  if k.np = root then .ok k.out else .error .incompletePath

/-- R131: the streaming form is its bytes and then the result. -/
theorem streamWalk_eq (node : Arena) (root : NodeIdx) (maxOut : Nat) (h : BitVec 3) (payload : List Byte) :
    streamWalk node root maxOut h payload =
      (Walker.bytes node root maxOut h { np := root, opos := 0, out := [] } payload).bind (Walker.result root) := by
  rw [streamWalk]
  cases Walker.bytes node root maxOut h { np := root, opos := 0, out := [] } payload <;> rfl

section retained
variable (h : BitVec 3) (v : Byte)

/-- R122: of the last byte the bit positions 0 to 7 - h are retained. -/
theorem retained_last : retained h [v] = (bits8 v).take (8 - h.toNat) := by
  rw [retained, stream_cons, stream_nil, List.append_nil, List.length_singleton, Nat.mul_one]

/-- R122: of every byte before it all eight. -/
theorem retained_cons {rest : List Byte} (hrest : rest ≠ []) : retained h (v :: rest) = bits8 v ++ retained h rest := by
  have hpos := List.length_pos_of_ne_nil hrest
  have hh := h.isLt
  have hlen : 8 * (v :: rest).length - h.toNat = (bits8 v).length + (8 * rest.length - h.toNat) := by
    rw [List.length_cons, bits8_length]
    omega
  rw [retained, hlen, stream_cons, List.take_length_add_append, retained]

end retained

namespace Walker
variable {node : Arena} {root : NodeIdx} {maxOut : Nat}

theorem bits_cons (k : Walker) (c : Bool) (b : Bits) :
    bits node root maxOut k (c :: b) = (k.bit node root maxOut c).bind fun k' => bits node root maxOut k' b := by
  rw [bits]
  cases k.bit node root maxOut c <;> rfl

theorem bits_append (k : Walker) (b b' : Bits) :
    bits node root maxOut k (b ++ b') = (bits node root maxOut k b).bind fun k' => bits node root maxOut k' b' := by
  induction b generalizing k with
  | nil => rfl
  | cons c rest ih =>
    rw [List.cons_append, bits_cons, bits_cons]
    cases k.bit node root maxOut c with
    | error e => rfl
    | ok k' => exact ih k'

theorem bytes_cons (h : BitVec 3) (k : Walker) (v : Byte) (rest : List Byte) :
    bytes node root maxOut h k (v :: rest) =
      (k.bits node root maxOut ((bits8 v).take (if rest = [] then 8 - h.toNat else 8))).bind
        fun k' => bytes node root maxOut h k' rest := by
  rw [bytes]
  cases k.bits node root maxOut ((bits8 v).take (if rest = [] then 8 - h.toNat else 8)) <;> rfl

/-- R131: byte by byte, the walker consumes the retained bits. -/
theorem bytes_eq_bits (h : BitVec 3) {payload : List Byte} (hne : payload ≠ []) (k : Walker) :
    bytes node root maxOut h k payload = k.bits node root maxOut (retained h payload) := by
  induction payload generalizing k with
  | nil => exact absurd rfl hne
  | cons v rest ih =>
    rw [bytes_cons]
    by_cases hrest : rest = []
    · subst hrest
      rw [if_pos rfl, retained_last]
      cases k.bits node root maxOut ((bits8 v).take (8 - h.toNat)) <;> rfl
    · rw [if_neg hrest, List.take_of_length_le (bits8_length v).le, retained_cons h v hrest, bits_append]
      simp only [ih hrest]

/-- R131, R123 to R126: bit by bit, the walker does what the walk does, after what it has emitted already. -/
theorem result_bits (k : Walker) (b : Bits) :
    (k.bits node root maxOut b).bind (result root) = (walk node root maxOut k.np k.opos b).map (k.out ++ ·) := by
  induction b generalizing k with
  | nil =>
    show result root k = _
    rw [result, walk]
    split
    · exact congrArg Except.ok (List.append_nil k.out).symm
    · rfl
  | cons c rest ih =>
    rw [bits_cons, bit, walk]
    cases node[childOf node k.np c] with
    | internal c0 c1 w => exact ih _
    | leaf s w =>
      by_cases hfull : maxOut ≤ k.opos
      · simp only [if_pos hfull]
        rfl
      · simp only [if_neg hfull]
        refine (ih _).trans ?_
        cases walk node root maxOut root (k.opos + 1) rest with
        | error e => rfl
        | ok out => exact congrArg Except.ok (List.append_assoc k.out [s] out)

end Walker

/-- Settles O46: the walker's bytes are the retained bits, and on these it does what the walk does. -/
theorem streamingDecoderAgrees : Obligations.StreamingDecoderAgrees := by
  intro node root maxOut h payload hne
  rw [streamWalk_eq, Walker.bytes_eq_bits h hne, Walker.result_bits]
  exact congrFun Except.map_id _

/-! ## Walks in general -/

section walk
variable {node : Arena} {root : NodeIdx} {maxOut opos : Nat}

/-- R123: a bit read at an internal node follows an edge. -/
theorem edge_childOf {n c0 c1 : NodeIdx} {w : Weight} (hn : node[n] = .internal c0 c1 w) (c : Bool) :
    Edge node n c (childOf node n c) :=
  ⟨c0, c1, w, hn, by rw [childOf, hn]⟩

theorem internal_of_edge {n m : NodeIdx} {c : Bool} (e : Edge node n c m) : ∃ c0 c1 w, node[n] = .internal c0 c1 w :=
  let ⟨c0, c1, w, hn, _⟩ := e
  ⟨c0, c1, w, hn⟩

/-- R126: a bit that leads to a leaf when OBUF is full. -/
theorem walk_edge_leaf_full {n m : NodeIdx} {c : Bool} {s : Byte} {w : Weight} (e : Edge node n c m)
    (hm : node[m] = .leaf s w) (hfull : maxOut ≤ opos) (b : Bits) :
    walk node root maxOut n opos (c :: b) = .error .overflow := by
  rw [walk]
  simp only [childOf_of_edge e, hm, if_pos hfull]

/-- R123: a whole path to an internal node emits nothing. -/
theorem walk_path_internal {n k c0 c1 : NodeIdx} {b : Bits} {w : Weight} (hb : descend node n b = some k)
    (hk : node[k] = .internal c0 c1 w) (r : Bits) :
    walk node root maxOut n opos (b ++ r) = walk node root maxOut k opos r := by
  induction b using List.reverseRecOn generalizing k c0 c1 w r with
  | nil =>
    cases hb
    rfl
  | append_singleton b c ih =>
    obtain ⟨m, hm, e⟩ := descend_concat.mp hb
    obtain ⟨_, _, _, hint⟩ := internal_of_edge e
    rw [List.append_assoc, ih hm hint]
    exact walk_edge_internal e hk r

/-- R126: a whole path to a leaf when OBUF is full. -/
theorem walk_path_full {n k : NodeIdx} {b : Bits} {s : Byte} {w : Weight} (hb : descend node n b = some k) (hne : b ≠ [])
    (hk : node[k] = .leaf s w) (hfull : maxOut ≤ opos) (r : Bits) :
    walk node root maxOut n opos (b ++ r) = .error .overflow := by
  obtain ⟨b, c, rfl⟩ := (List.eq_nil_or_concat' b).resolve_left hne
  obtain ⟨m, hm, e⟩ := descend_concat.mp hb
  obtain ⟨_, _, _, hint⟩ := internal_of_edge e
  rw [List.append_assoc, walk_path_internal hm hint]
  exact walk_edge_leaf_full e hk hfull r

/-- R125: bits that end inside a code word, after the code words of x. -/
theorem walk_codeBits_incomplete {t : Tables} {x : List Byte} {r : Bits} {n : NodeIdx} (h : ReadsBack t x)
    (hroom : x.length ≤ maxOut) (hr : descend t.node t.root r = some n) (hn : (t.node[n]).isLeaf = false) (hne : n ≠ t.root) :
    walk t.node t.root maxOut t.root 0 (codeBits t.code x ++ r) = .error .incompletePath := by
  have hrest : walk t.node t.root maxOut t.root (0 + x.length) r = .error .incompletePath := by
    cases hint : t.node[n] with
    | leaf s w => rw [hint] at hn; cases hn
    | internal c0 c1 w =>
      rw [← List.append_nil r, walk_path_internal hr hint, walk, if_neg hne]
  rw [walk_codeBits h (by omega), hrest]
  rfl

/-- R126: the last of MAX_OUT + 1 code words has no room. -/
theorem walk_codeBits_overflow {t : Tables} {x : List Byte} (h : ReadsBack t x) (hlen : x.length = maxOut + 1) (r : Bits) :
    walk t.node t.root maxOut t.root 0 (codeBits t.code x ++ r) = .error .overflow := by
  obtain ⟨y, s, rfl⟩ := (List.eq_nil_or_concat' x).resolve_left (List.ne_nil_of_length_eq_add_one hlen)
  obtain ⟨hy, hs⟩ := List.forall_mem_append.mp h
  obtain ⟨hne, k, w, hpath, hleaf⟩ := hs s (List.mem_singleton_self s)
  rw [List.length_append, List.length_singleton] at hlen
  have hbits : codeBits t.code (y ++ [s]) ++ r = codeBits t.code y ++ (t.code[symIdx s] ++ r) := by
    simp [codeBits]
  rw [hbits, walk_codeBits hy (by omega), walk_path_full hpath hne hleaf (by omega)]
  rfl

end walk

/-! ## The lazy-emission walk -/

section lazyWalk
variable {node : Arena} {root : NodeIdx}

theorem lazyWalk_internal {n c0 c1 : NodeIdx} {w : Weight} (hn : node[n] = .internal c0 c1 w) (c : Bool) (b : Bits) :
    lazyWalk node root n (c :: b) = lazyWalk node root (childOf node n c) b := by
  rw [lazyWalk]
  simp only [hn]

/-- R133: a leaf noticed when a next bit arrives: its symbol, and the walk goes on at the root. -/
theorem lazyWalk_leaf {n r0 r1 : NodeIdx} {s : Byte} {w w' : Weight} {b : Bits} (hroot : node[root] = .internal r0 r1 w')
    (hn : node[n] = .leaf s w) (hb : b ≠ []) :
    lazyWalk node root n b = (lazyWalk node root root b).map (s :: ·) := by
  cases b with
  | nil => exact absurd rfl hb
  | cons c rest =>
    rw [lazyWalk_internal hroot, lazyWalk]
    simp only [hn]
    cases lazyWalk node root (childOf node root c) rest <;> rfl

end lazyWalk

namespace ArenaNodes
variable {p : Params} {node : Arena}

theorem root_internal (h : ArenaNodes p node) : ∃ c0 c1 w, node[rootIdx] = .internal c0 c1 w := by
  obtain ⟨s, hs, -⟩ | ⟨c0, c1, w, -, -, e⟩ := h.leaf_or_merged rootIdx
  · exact absurd hs.symm (leafIdx_ne_rootIdx s)
  · exact ⟨c0, c1, w, e⟩

/-- R133: from an internal node both walks give the same; on the empty string only where this is not the root, since there the walk of
R125 succeeds. A string no longer than the room that is left cannot overflow it. -/
theorem lazyWalk_eq_walk (h : ArenaNodes p node) {n c0 c1 : NodeIdx} {w : Weight} {maxOut opos : Nat} {b : Bits}
    (hn : node[n] = .internal c0 c1 w) (hstart : n ≠ rootIdx ∨ b ≠ []) (hroom : opos + b.length ≤ maxOut) :
    lazyWalk node rootIdx n b = walk node rootIdx maxOut n opos b := by
  induction b generalizing n c0 c1 w opos with
  | nil =>
    rw [walk, if_neg (hstart.resolve_right (not_not.mpr rfl)), lazyWalk]
    simp only [hn]
  | cons c rest ih =>
    rw [List.length_cons] at hroom
    have e := edge_childOf hn c
    rw [lazyWalk_internal hn]
    cases hm : node[childOf node n c] with
    | internal d0 d1 v =>
      have hne : childOf node n c ≠ rootIdx := fun heq => h.not_edge_root (heq ▸ e)
      rw [walk_edge_internal e hm]
      exact ih hm (.inl hne) (by omega)
    | leaf s v =>
      rw [walk_edge_leaf e hm (by omega)]
      by_cases hrest : rest = []
      · rw [hrest, walk, if_pos rfl, lazyWalk]
        simp only [hm]
        rfl
      · obtain ⟨r0, r1, u, hroot⟩ := h.root_internal
        rw [lazyWalk_leaf hroot hm hrest, ih hroot (opos := opos + 1) (.inr hrest) (by omega)]

end ArenaNodes

/-- Settles O45: both walks start at the root, which is internal. -/
theorem lazyWalkAgrees : Obligations.LazyWalkAgrees := by
  intro p t maxOut b h hlen
  obtain ⟨c0, c1, w, hroot⟩ := h.arenaTree.root_internal
  refine ⟨fun hb => h.arenaTree.lazyWalk_eq_walk hroot (.inr hb) (by omega), ?_⟩
  rw [lazyWalk]
  simp only [hroot]

/-! ## What a walk that succeeds has read -/

namespace Tables.TreeOk
variable {p : Params} {t : Tables}

/-- R124, R125: where a walk from an internal node succeeds, the path to that node and the bits together are the code words of what
it emits. -/
theorem codeBits_of_walk (h : t.TreeOk p) {n c0 c1 : NodeIdx} {w : Weight} {path b : Bits} {maxOut opos : Nat} {x : List Byte}
    (hpath : descend t.node rootIdx path = some n) (hn : t.node[n] = .internal c0 c1 w)
    (hwalk : walk t.node rootIdx maxOut n opos b = .ok x) : path ++ b = codeBits t.code x := by
  induction b generalizing n c0 c1 w path opos x with
  | nil =>
    rw [walk] at hwalk
    split at hwalk
    case isTrue hroot =>
      cases hwalk
      subst hroot
      rw [h.arenaTree.path_unique hpath (descend_nil _)]
      rfl
    case isFalse => cases hwalk
  | cons c rest ih =>
    have e := edge_childOf hn c
    have hnext : descend t.node rootIdx (path ++ [c]) = some (childOf t.node n c) := descend_concat.mpr ⟨n, hpath, e⟩
    rw [List.append_cons]
    cases hm : t.node[childOf t.node n c] with
    | internal d0 d1 v =>
      rw [walk_edge_internal e hm] at hwalk
      exact ih hnext hm hwalk
    | leaf s v =>
      obtain hroom | hfull := Nat.lt_or_ge opos maxOut
      · rw [walk_edge_leaf e hm hroom] at hwalk
        obtain ⟨r0, r1, u, hroot⟩ := h.arenaTree.root_internal
        have hword : path ++ [c] = t.code[symIdx s] :=
          (h.codes s _).mp (h.arenaTree.eq_leafIdx_of_leaf hm ▸ hnext)
        cases hrest : walk t.node rootIdx maxOut rootIdx (opos + 1) rest with
        | error _ => rw [hrest] at hwalk; cases hwalk
        | ok y =>
          rw [hrest] at hwalk
          cases hwalk
          have hy : rest = codeBits t.code y := ih (descend_nil _) hroot hrest
          rw [hword, hy]
          rfl
      · rw [walk_edge_leaf_full e hm hfull] at hwalk
        cases hwalk

/-- R94: n symbols have n to 255 n code bits. -/
theorem codeBits_length (h : t.TreeOk p) (x : List Byte) :
    x.length ≤ (codeBits t.code x).length ∧ (codeBits t.code x).length ≤ 255 * x.length := by
  induction x with
  | nil => exact ⟨Nat.le_refl _, Nat.le_refl _⟩
  | cons s x ih =>
    obtain ⟨hlo, hhi⟩ := codeLengthBounds p t h (symIdx s)
    have hlen : (codeBits t.code (s :: x)).length = (t.code[symIdx s]).length + (codeBits t.code x).length :=
      List.length_append
    rw [hlen, List.length_cons]
    omega

end Tables.TreeOk

end Sys2Proof

/-! PROOFS, family 42_decode, part 2: DECODE and the header rows, by the kind of the header (O34, O36, O37, O39 to O44). -/

namespace Sys2Proof.Machine

section frame
variable {s : State}

/-! ## Completions -/

theorem State.raiseWriting_completed (s : State) (e : ErrCode) (c : SubCode) :
    Completed (s.raiseWriting e c) s.built e c 0 :=
  ⟨s.raiseWriting_status e c, s.raiseWriting_olen e c, s.raiseWriting_phase e c⟩

/-- R18, R29: a command that is not BUILD leaves the input and the tables. -/
theorem exec_keeps {i : Instr} {t : State} (hi : i ≠ .build) (h : exec i s = .next t) : SameInput s t ∧ SameTables s t :=
  ⟨(exec_ending h).sameInput, (exec_ending h).sameTables hi⟩

/-- R156: an error found before the command writes. -/
theorem exec_raise_completes {i : Instr} {e : ErrCode} {c : SubCode} (hi : i ≠ .build) (hb : s.built = true)
    (h : exec i s = .next (s.raise e c)) :
    ∃ t, exec i s = .next t ∧ Completed t true e c 0 ∧ SameInput s t ∧ SameTables s t ∧ SameObuf s t :=
  let ⟨hin, htab⟩ := exec_keeps hi h
  ⟨_, h, hb ▸ s.raise_completed e c, hin, htab, s.raise_sameObuf e c⟩

/-- R125, R126: of the ways in which a walk can end, the success alone gives ERR = OK. -/
theorem State.finishWalk_of_err_eq_zero {r : Except WalkError (List Byte)} (h : (s.finishWalk r).err = 0) :
    ∃ x, r = .ok x := by
  match r with
  | .ok x => exact ⟨x, rfl⟩
  | .error .overflow =>
    rw [State.finishWalk, State.raiseWriting_err] at h
    cases h
  | .error .incompletePath =>
    rw [State.finishWalk, State.raiseWriting_err] at h
    cases h

/-! ## Raw frames -/

/-- R118: a frame is its header byte and its payload. -/
theorem State.input_eq (h : 0 < s.ilen) : s.input = s.inputByte 0 :: s.payload := by
  match e : s.input with
  | [] => rw [← s.input_length, e] at h; cases h
  | header :: payload =>
    obtain ⟨hhead, hpayload, -⟩ := input_eq_cons e
    rw [hhead, hpayload]

/-- R118: byte i of the payload is the byte that the engine reads at IBUF[1 + i]. -/
theorem State.payload_getElem? {i : Nat} (h : i < s.ilen - 1) : s.payload[i]? = some (s.inputByte (1 + i)) := by
  rw [State.payload, List.getElem?_drop, State.input_getElem? (by omega)]

/-- Settles O34: both succeed with the payload. -/
theorem rawFrameDecodes : Obligations.RawFrameDecodes := by
  intro s hb h0 hl hhead
  have hdecode : exec .decode s = .next (s.succeed s.payload) :=
    exec_decode_raw hb hl ((State.input_eq h0).trans (congrArg (· :: s.payload) hhead))
  have hrow : exec .hdrFR s = .next (s.succeed s.payload) := congrArg Host.Outcome.next (checkFrame_pass hb hl h0)
  obtain ⟨hin, htab⟩ := exec_keeps (by decide) hdecode
  refine ⟨_, hdecode, hrow, s.payload_length ▸ hb ▸ s.succeed_completed s.payload, hin, htab, fun i hi => ?_⟩
  rw [State.succeed_obuf, Memory.read_ofBytes, State.payload_getElem? hi]

/-! ## Reserved headers -/

/-- R120: the rows of reserved headers share one meaning, whatever byte they carry. -/
theorem exec_reservedRows (b : Byte) (s : State) :
    ∀ i ∈ reservedRows b, i ≠ .build ∧ exec i s = .next (checkFrame s (decodeBody .reserved)) := by
  simp only [reservedRows, List.forall_mem_cons]
  refine ⟨?_, ?_, ?_, ?_, ?_, ?_, ?_, ?_, ?_, ?_, ?_, by nofun⟩ <;> exact ⟨by nofun, rfl⟩

/-- R63, R120: the rows of the bytes 0x08 to 0xFE are the reserved ones, since the other two rows carry lower bytes or 0xFF. -/
theorem decodeByte_reserved {b : Byte} (hlo : 8 ≤ b) (hhi : b ≤ 0xFE) :
    ∃ i ∈ reservedRows b, decodeByte .frameHeader b = some i := by
  obtain ⟨i, hi, hsp, -, he⟩ := decodeByte_total .frameHeader b
  refine ⟨i, ?_, hi⟩
  cases i with
  | hdrFC h =>
    rw [encodeByte] at he
    bv_omega
  | hdrFR =>
    rw [encodeByte] at he
    bv_omega
  | hdrReserved08_0F | hdrReserved10_1F | hdrReserved20_3F | hdrReserved40_7F | hdrReserved80_BF | hdrReservedC0_DF
  | hdrReservedE0_EF | hdrReservedF0_F7 | hdrReservedF8_FB | hdrReservedFC_FD =>
    obtain rfl := he
    simp [reservedRows, encodeByte]
  | hdrReservedFE_FE => simp [reservedRows]
  | nop | build | encode | decode | illegal04_07 | illegal08_0F | illegal10_1F | illegal20_3F | illegal40_7F
  | illegal80_FF => cases hsp

/-- Settles O36: the byte's row is a reserved one, and each of these raises the error. -/
theorem reservedHeaderCompletes : Obligations.ReservedHeaderCompletes := by
  intro b s hb h0 hl
  refine ⟨decodeByte_reserved, fun i hi => ?_⟩
  obtain ⟨hne, h⟩ := exec_reservedRows b s i hi
  rw [checkFrame_pass hb hl h0] at h
  exact exec_raise_completes hne hb h

/-! ## Compressed frames -/

/-- R121: a compressed header without payload. -/
theorem decodeBody_noPayload (h : BitVec 3) (hlen : s.ilen ≤ 1) :
    decodeBody (.compressed h) s = s.raise .codecError .noPayload := by
  rw [decodeBody, if_pos (s.payload_eq_nil.mpr hlen)]

/-- R122 to R126: a compressed header with a payload asks for the walk. -/
theorem decodeBody_walk (h : BitVec 3) (hlen : 1 < s.ilen) :
    decodeBody (.compressed h) s =
      s.finishWalk (walk s.node s.root s.cfg.maxOut s.root 0 (retained h s.payload)) := by
  rw [decodeBody, if_neg (s.payload_eq_nil.not.mpr (Nat.not_le.mpr hlen))]

/-- Settles O37: a capacity of at least one byte (R4) lets the frame pass the checks. -/
theorem headerWithoutPayload : Obligations.HeaderWithoutPayload := by
  intro h s hb hlen
  have hexec : exec (.hdrFC h) s = .next (checkFrame s (decodeBody (.compressed h))) := rfl
  rw [checkFrame_pass hb (hlen.le.trans s.cfg.wf.input) (by omega), decodeBody_noPayload h hlen.le] at hexec
  exact exec_raise_completes (by nofun) hb hexec

/-- R122: the retained bits of the payload in IBUF. -/
theorem retained_payload (h : BitVec 3) (s : State) :
    retained h s.payload = (stream s.payload).take (8 * (s.ilen - 1) - h.toNat) := by
  rw [retained, State.payload_length]

/-- R122: how many there are. -/
theorem retained_payload_length (h : BitVec 3) (s : State) :
    (retained h s.payload).length = 8 * (s.ilen - 1) - h.toNat := by
  rw [retained, List.length_take, stream_length, State.payload_length]
  exact Nat.min_eq_left (Nat.sub_le _ _)

/-- R122 to R126: HDR_FC of a frame that passes the checks is the walk over its retained bits and what this ends in. -/
theorem exec_hdrFC_walk {h : BitVec 3} {b : Bits} {r : Except WalkError (List Byte)} (hb : s.built = true)
    (hlen : 2 ≤ s.ilen) (hl : s.ilen ≤ s.cfg.maxIn) (hbits : (stream s.payload).take (8 * (s.ilen - 1) - h.toNat) = b)
    (hwalk : walk s.node s.root s.cfg.maxOut s.root 0 b = r) :
    exec (.hdrFC h) s = .next (s.finishWalk r) ∧ SameInput s (s.finishWalk r) ∧ SameTables s (s.finishWalk r) := by
  have hbody : decodeBody (.compressed h) s = s.finishWalk r := by
    rw [decodeBody_walk h hlen, retained_payload, hbits, hwalk]
  have hexec : exec (.hdrFC h) s = .next (s.finishWalk r) :=
    congrArg Host.Outcome.next ((checkFrame_pass hb hl (by omega)).trans hbody)
  exact ⟨hexec, exec_keeps (by nofun) hexec⟩

/-- Settles O39: the walk over the code words of x emits x and ends at the root. -/
theorem compressedFrameDecodes : Obligations.CompressedFrameDecodes := by
  intro s h x hread hb hlen hl hroom hbits
  obtain ⟨hexec, hin, htab⟩ := exec_hdrFC_walk hb hlen hl hbits (walk_codeBits_eq_ok hread hroom)
  exact ⟨_, hexec, hb ▸ s.succeed_completed x, hin, htab, s.succeed_output x⟩

/-- Settles O41: after x the walk stops at an internal node other than the root. -/
theorem incompletePathReported : Obligations.IncompletePathReported := by
  intro s h x r n hread hb hlen hl hroom hr hn hne hbits
  obtain ⟨hexec, hin, htab⟩ := exec_hdrFC_walk hb hlen hl hbits (walk_codeBits_incomplete hread hroom hr hn hne)
  exact ⟨_, hexec, hb ▸ s.raiseWriting_completed .codecError .incompletePath, hin, htab⟩

/-- Settles O42: the last code word of x leads to a leaf when OBUF is full. -/
theorem overflowReported : Obligations.OverflowReported := by
  intro s h x r hread hb hlen hl hx hbits
  obtain ⟨hexec, hin, htab⟩ := exec_hdrFC_walk hb hlen hl hbits (walk_codeBits_overflow hread hx r)
  exact ⟨_, hexec, hb ▸ s.raiseWriting_completed .overflow .none, hin, htab⟩

/-- R124, R125: HDR_FC ends without error only as the success with bytes whose code words are the retained bits. -/
theorem exec_hdrFC_sound {t : State} {h : BitVec 3} (htree : s.tables.TreeOk s.cfg.toParams) (hb : s.built = true)
    (hlen : 2 ≤ s.ilen) (hl : s.ilen ≤ s.cfg.maxIn) (ht : exec (.hdrFC h) s = .next t) (herr : t.err = 0) :
    ∃ x, t = s.succeed x ∧ retained h s.payload = codeBits s.code x := by
  obtain ⟨hexec, -⟩ := exec_hdrFC_walk hb hlen hl (retained_payload h s).symm rfl
  rw [hexec] at ht
  cases ht
  obtain ⟨x, hwalk⟩ := State.finishWalk_of_err_eq_zero herr
  refine ⟨x, by rw [hwalk, State.finishWalk], ?_⟩
  obtain ⟨c0, c1, w, hroot⟩ := htree.arenaTree.root_internal
  have hidx : s.root = rootIdx := htree.root
  rw [hidx] at hwalk
  exact htree.codeBits_of_walk (descend_nil _) hroot hwalk

/-- Settles O40: at least one bit is retained, so the code words are at least one. -/
theorem compressedFrameSound : Obligations.CompressedFrameSound := by
  intro s t h htree hb hlen hl ht herr
  obtain ⟨x, rfl, hbits⟩ := exec_hdrFC_sound htree hb hlen hl ht herr
  refine ⟨x, ?_, s.succeed_olen x, s.succeed_output x, retained_payload h s ▸ hbits⟩
  have hcount := retained_payload_length h s
  have hpad := h.isLt
  obtain ⟨-, hmax⟩ := htree.codeBits_length x
  have hsame : (codeBits s.tables.code x).length = (retained h s.payload).length := congrArg List.length hbits.symm
  omega

/-- Settles O44: the retained bits are the code words of the output, of 1 to 255 bits each. -/
theorem decodedSizeBounds : Obligations.DecodedSizeBounds := by
  intro s t h htree hb hlen hl ht herr
  obtain ⟨x, rfl, hbits⟩ := exec_hdrFC_sound htree hb hlen hl ht herr
  rw [State.succeed_olen, ← retained_payload_length h s, hbits]
  exact htree.codeBits_length x

/-! ## Padding -/

section padding
variable {m : List Host.Cell}

theorem State.finishWalk_withIbuf (r : Except WalkError (List Byte)) :
    (s.withIbuf m).finishWalk r = (s.finishWalk r).withIbuf m := by
  match r with
  | .ok _ => rfl
  | .error .overflow => rfl
  | .error .incompletePath => rfl

/-- R122: the body of a compressed frame is decoded from its retained bits. -/
theorem decodeBody_compressed_withIbuf {h : BitVec 3}
    (hbits : retained h (s.withIbuf m).payload = retained h s.payload) :
    decodeBody (.compressed h) (s.withIbuf m) = (decodeBody (.compressed h) s).withIbuf m := by
  obtain hlen | hlen := Nat.lt_or_ge 1 s.ilen
  · rw [decodeBody_walk h hlen, decodeBody_walk (s := s.withIbuf m) h hlen, hbits]
    exact State.finishWalk_withIbuf _
  · rw [decodeBody_noPayload h hlen, decodeBody_noPayload (s := s.withIbuf m) h hlen]
    rfl

end padding

/-- Settles O43: DECODE reads its header byte and, through this, the retained bits. -/
theorem paddingBitsIgnored : Obligations.PaddingBitsIgnored := by
  intro s t m h hkind hhead hbits ht
  have hsame : retained h (s.withIbuf m).payload = retained h s.payload := by
    rw [retained_payload, retained_payload]
    exact hbits
  rw [exec_decode_eq, hkind] at ht
  cases ht
  rw [exec_decode_eq, hhead, hkind]
  exact congrArg Host.Outcome.next (checkFrame_withIbuf fun _ => decodeBody_compressed_withIbuf hsame)

end frame

end Sys2Proof.Machine

/-! PROOFS, family 43_nop_and_host, part 1: a command from its start to the poll that sees it done (O6, O7, O9, O10), NOP and the
illegal commands (O16, O17). -/

namespace Sys2Proof.Machine

/-! ## A started command and its effect -/

/-- The state with another script of the host. -/
def State.withAgenda (s : State) (agenda : List Action) : State := { s with agenda := agenda }

/-- The state in which command c has been started (R135) and the host's script goes on with `agenda`. -/
def State.started (s : State) (c : Byte) (agenda : List Action) : State := (s.start c).withAgenda agenda

section started
variable (s : State) (c : Byte) (agenda : List Action)

@[simp] theorem State.started_cfg : (s.started c agenda).cfg = s.cfg := rfl
@[simp] theorem State.started_ilen : (s.started c agenda).ilen = s.ilen := rfl
@[simp] theorem State.started_phase : (s.started c agenda).phase = .running c := rfl
@[simp] theorem State.started_agenda : (s.started c agenda).agenda = agenda := rfl
@[simp] theorem State.started_payload : (s.started c agenda).payload = s.payload := rfl
@[simp] theorem State.started_busy : (s.started c agenda).busy = true := s.start_busy c
@[simp] theorem State.started_built : (s.started c agenda).built = s.built := s.start_built c

/-- A completion writes every field that the start has written, so the start does not show; BUILT, which it keeps, was kept by the
start too. -/
theorem State.started_raise (e : ErrCode) (k : SubCode) :
    (s.started c agenda).raise e k = (s.raise e k).withAgenda agenda := by
  rw [State.raise, State.started_built]; rfl

theorem State.started_raiseWriting (e : ErrCode) (k : SubCode) :
    (s.started c agenda).raiseWriting e k = (s.raiseWriting e k).withAgenda agenda := by
  rw [State.raiseWriting, State.started_raise]; rfl

theorem State.started_succeed (out : List Byte) :
    (s.started c agenda).succeed out = (s.succeed out).withAgenda agenda := by
  rw [State.succeed, State.started_built]; rfl

theorem State.started_finishWalk (r : Except WalkError (List Byte)) :
    (s.started c agenda).finishWalk r = (s.finishWalk r).withAgenda agenda := by
  match r with
  | .ok out => exact s.started_succeed c agenda out
  | .error .overflow => exact s.started_raiseWriting c agenda .overflow .none
  | .error .incompletePath => exact s.started_raiseWriting c agenda .codecError .incompletePath

variable {s c agenda}

/-- The checks of R101 read BUILT, ILEN and MAX_IN, which the start leaves. -/
theorem checkData_started {run : State → State} (h : run (s.started c agenda) = (run s).withAgenda agenda) :
    checkData (s.started c agenda) run = (checkData s run).withAgenda agenda := by
  simp only [checkData, State.started_built, State.started_cfg, State.started_ilen, State.started_raise, h]
  split
  · rfl
  · split <;> rfl

theorem checkFrame_started {run : State → State} (h : run (s.started c agenda) = (run s).withAgenda agenda) :
    checkFrame (s.started c agenda) run = (checkFrame s run).withAgenda agenda := by
  refine checkData_started ?_
  simp only [State.started_ilen, State.started_raise, h]
  split <;> rfl

theorem decodeBody_started (k : HeaderKind) :
    decodeBody k (s.started c agenda) = (decodeBody k s).withAgenda agenda := by
  cases k with
  | raw => exact s.started_succeed c agenda s.payload
  | reserved => exact s.started_raise c agenda .codecError .badHeader
  | compressed h =>
    simp only [decodeBody, State.started_payload, State.started_raise, State.started_finishWalk]
    split <;> rfl

theorem encodeBody_started : encodeBody (s.started c agenda) = (encodeBody s).withAgenda agenda :=
  s.started_succeed c agenda (encodeFrame s.code s.input)

end started

/-- R136: NOP completes as every command does that leaves BUILT and has no output, with the code OK. -/
theorem exec_nop_eq (s : State) : exec .nop s = .next (s.raise .ok .none) := rfl

/-- R135: a started command has the effect that it has on the state before the start, and leaves the host's script. -/
theorem exec_started {i : Instr} {s t : State} (c : Byte) (agenda : List Action) (h : exec i s = .next t) :
    exec i (s.started c agenda) = .next (t.withAgenda agenda) := by
  obtain rfl | rfl | rfl | rfl | hi | ⟨k, hi⟩ := exec_shape i
  · rw [exec_nop_eq] at h ⊢
    cases h
    rw [State.started_raise]
  · cases h; rfl
  · rw [exec_encode_eq] at h ⊢
    cases h
    rw [checkData_started encodeBody_started]
  · rw [exec_decode_eq] at h ⊢
    cases h
    exact congrArg _ (checkFrame_started (decodeBody_started (headerKind (s.inputByte 0))))
  · rw [hi] at h ⊢
    cases h
    rw [State.started_raise]
  · rw [hi] at h ⊢
    cases h
    rw [checkFrame_started (decodeBody_started k)]

/-- R150: no command faults and none is refused. -/
theorem exec_answers (i : Instr) (s : State) : ∃ t, exec i s = .next t := by
  obtain ⟨_, _, h⟩ | ⟨_, _, h⟩ | ⟨_, h⟩ | h | ⟨-, h⟩ := exec_cases i s <;> exact ⟨_, h⟩

/-- Settles O9: with the host's script as it was, a started command has the effect that it has before the start. -/
theorem effectIsOnStartState : Obligations.EffectIsOnStartState := by
  intro i s c
  obtain ⟨t, h⟩ := exec_answers i s
  have hagenda : t.agenda = s.agenda := (exec_ending h).sameInput.agenda
  have hsame : t.withAgenda s.agenda = t := by rw [← hagenda]; rfl
  calc exec i (s.start c)
    _ = .next (t.withAgenda s.agenda) := exec_started c s.agenda h
    _ = exec i s := by rw [hsame, h]

/-! ## The step of the engine -/

/-- R60: a command is one byte. -/
theorem decodeBytes_singleton {sp : Space} {b : Byte} {i : Instr} :
    decodeBytes sp [b] = .ok (i, []) ↔ decodeByte sp b = some i := by
  rw [decodeBytes]
  cases decodeByte sp b <;> simp

/-- A table word of eight bits is read as the command byte of that value. -/
theorem decodeTableWord_eight {w : Nat} {i : Instr} :
    decodeTableWord 8 w = some i ↔ w < 256 ∧ decodeByte .cmd (BitVec.ofNat 8 w) = some i := by
  simp [decodeTableWord]

/-- While the engine works and the host makes no move, the engine's completion is the step. -/
theorem step_engine {s : State} (hb : s.busy = true) (ha : s.agenda = [] ∨ ∃ rest, s.agenda = .wait :: rest) :
    step s = runEngine s := by
  obtain ha | ⟨rest, ha⟩ := ha <;> simp [step, hb, ha]

/-- Settles O6: the engine runs the command whose byte PHASE keeps. -/
theorem stepRunsStartedCommand : Obligations.StepRunsStartedCommand := by
  intro s c i hb hp ha hd
  rw [step_engine hb ha]
  simp only [runEngine, fetchCommand, hp, hd]

/-- R135, R72: with the host at WAIT, a started command runs in the next step. -/
theorem step_started {c : Byte} {i : Instr} (h : decodeByte .cmd c = some i) (s : State) (rest : List Action) :
    step (s.started c (.wait :: rest)) = exec i (s.started c (.wait :: rest)) :=
  stepRunsStartedCommand _ c i (s.started_busy c _) rfl (.inr ⟨rest, rfl⟩) (decodeBytes_singleton.mpr h)

/-- Settles O7: `withFetchWord` starts the command of the word, with the host at WAIT. -/
theorem stepRunsFetchWord : Obligations.StepRunsFetchWord := by
  intro s w i h
  obtain ⟨hw, hd⟩ := decodeTableWord_eight.mp h
  have hword : decodeByte .cmd (BitVec.ofNat 8 (w % 2 ^ 8)) = some i := by
    rwa [Nat.mod_eq_of_lt (show w < 2 ^ 8 from hw)]
  exact step_started hword s s.agenda

/-- R72: WAIT goes on once DONE = 1. -/
theorem step_wait_of_done {s : State} {rest : List Action} (hb : s.busy = false) (ha : s.agenda = .wait :: rest)
    (hd : s.done = true) : step s = .next { s with agenda := rest } := by
  simp [step, hb, ha, idleAction, hd]

/-- R14: every ending of a command leaves BUSY = 0 and DONE = 1. -/
theorem Ending.idle {i : Instr} {s t : State} (h : Ending i s t) : t.busy = false ∧ t.done = true := by
  cases h with
  | error => exact ⟨State.raise_busy .., State.raise_done ..⟩
  | errorWriting => exact ⟨State.raiseWriting_busy .., State.raiseWriting_done ..⟩
  | output => exact ⟨State.succeed_busy .., State.succeed_done ..⟩
  | nop => exact ⟨State.complete_busy .., State.complete_done ..⟩
  | build => exact ⟨State.completeBuild_busy .., State.completeBuild_done ..⟩

/-- Settles O10: the write to CMD starts the command, the first poll of WAIT completes it, and the second sees DONE. -/
theorem commandAndWait : Obligations.CommandAndWait := by
  intro s t c i rest hb ha hd h
  obtain ⟨hidle, hdone⟩ := (exec_ending h).idle
  have hstart : step s = .next (s.started c (.wait :: rest)) := step_move_of_idle hb ha
  have hrun : step (s.started c (.wait :: rest)) = .next (t.withAgenda (.wait :: rest)) :=
    (step_started hd s rest).trans (exec_started c _ h)
  have hpoll : step (t.withAgenda (.wait :: rest)) = .next { t with agenda := rest } := step_wait_of_done hidle rfl hdone
  calc Host.Core.run core 3 s
    _ = Host.Core.run core 2 (s.started c (.wait :: rest)) := run_succ_of_step (M := core) hstart 2
    _ = Host.Core.run core 1 (t.withAgenda (.wait :: rest)) := run_succ_of_step (M := core) hrun 1
    _ = .next { t with agenda := rest } := run_one_of_step hpoll

/-! ## NOP and the illegal commands -/

/-- What a command that completes without writing OBUF or the tables leaves, whatever BUILT is. -/
theorem exec_raise_keeps {i : Instr} {s : State} {e : ErrCode} {k : SubCode} (hi : i ≠ .build)
    (h : exec i s = .next (s.raise e k)) :
    ∃ t, exec i s = .next t ∧ Completed t s.built e k 0 ∧ SameInput s t ∧ SameTables s t ∧ SameObuf s t :=
  let ⟨hin, htab⟩ := exec_keeps hi h
  ⟨_, h, s.raise_completed e k, hin, htab, s.raise_sameObuf e k⟩

/-- Settles O16: NOP is a completion with the code OK. -/
theorem nopCompletes : Obligations.NopCompletes :=
  fun s => exec_raise_keeps (by decide) (exec_nop_eq s)

/-- R137: the illegal rows share one meaning, whatever byte they carry. -/
theorem exec_illegalRows (c : Byte) (s : State) :
    ∀ i ∈ illegalRows c, i ≠ .build ∧ exec i s = .next (s.raise .illegalCmd .none) := by
  simp only [illegalRows, List.forall_mem_cons]
  refine ⟨?_, ?_, ?_, ?_, ?_, ?_, by nofun⟩ <;> exact ⟨by nofun, rfl⟩

/-- R60, R137: the instructions of the command space whose byte is 4 or more are the illegal ones. -/
theorem mem_illegalRows {i : Instr} (hsp : i.space = .cmd) (h : 4 ≤ encodeByte i) : i ∈ illegalRows (encodeByte i) := by
  cases i with
  | nop | build | encode | decode => exact absurd h (by decide)
  | illegal04_07 | illegal08_0F | illegal10_1F | illegal20_3F | illegal40_7F | illegal80_FF => simp [encodeByte, illegalRows]
  | hdrFC | hdrFR | hdrReserved08_0F | hdrReserved10_1F | hdrReserved20_3F | hdrReserved40_7F | hdrReserved80_BF
  | hdrReservedC0_DF | hdrReservedE0_EF | hdrReservedF0_F7 | hdrReservedF8_FB | hdrReservedFC_FD | hdrReservedFE_FE => cases hsp

/-- Settles O17: a byte of 4 or more is decoded to an illegal row, and each illegal row raises ILLEGAL_CMD in every state. -/
theorem illegalCommandCompletes : Obligations.IllegalCommandCompletes := by
  intro c s
  constructor
  · intro hc
    obtain ⟨i, hi, hsp, -, rfl⟩ := decodeByte_total .cmd c
    exact ⟨i, mem_illegalRows hsp hc, hi⟩
  · intro i hi
    obtain ⟨hne, h⟩ := exec_illegalRows c s i hi
    exact exec_raise_keeps hne h

end Sys2Proof.Machine

/-! PROOFS, family 43_nop_and_host, part 2: the moves of the host (O52, O55 to O59). -/

namespace Sys2Proof.Machine

/-! ## Reset and writes -/

section reset
variable {s : State} {rest : List Action}

/-- While the engine works, the host's next move is the step too, as far as R183 allows it. -/
theorem step_move_of_busy {m : HostMove} (hb : s.busy = true) (ha : s.agenda = .act m :: rest) :
    step s = busyMove m { s with agenda := rest } := by
  simp [step, hb, ha]

/-- R144: a reset is a legal move whatever BUSY is. -/
theorem step_reset (ha : s.agenda = .act .reset :: rest) : step s = .next (s.withAgenda rest).hostReset := by
  cases hb : s.busy
  · exact step_move_of_idle hb ha
  · exact step_move_of_busy hb ha

end reset

/-- Settles O52: the laws of `State.hostReset` say what the reset leaves. -/
theorem hostResetAtAnyTime : Obligations.HostResetAtAnyTime := by
  intro s rest ha
  let u : State := s.withAgenda rest
  exact ⟨u.hostReset, step_reset ha, u.hostReset_status, u.hostReset_ilen, u.hostReset_olen, u.hostReset_phase,
    u.hostReset_cfg, u.hostReset_agenda, fun a => congrArg (Memory.read · a) u.hostReset_ibuf,
    fun a => congrArg (Memory.read · a) u.hostReset_obuf⟩

/-- Settles O55: the step writes the one byte. -/
theorem hostWritesIbuf : Obligations.HostWritesIbuf := by
  intro s a v rest hb ha hcap
  refine ⟨Memory.write s.ibuf a v, step_writeIbuf hb ha hcap, fun b => ?_⟩
  simp only [Memory.read_write, eq_comm]

/-- LENW is the smallest width whose numbers reach beyond MAX_OUT (10_state.md section 1); R4 keeps MAX_OUT from being 0. -/
theorem lenW_le_iff (c : Config) (w : Nat) : c.lenW ≤ w ↔ c.maxOut < 2 ^ w := by
  have hpos : c.maxOut ≠ 0 := Nat.ne_of_gt (Nat.lt_of_lt_of_le (Nat.succ_pos _) c.wf.output)
  rw [Params.lenW, Nat.succ_le_iff, Nat.log2_lt hpos]

/-- Settles O56: the step writes ILEN, and LENW is the width that `lenW_le_iff` says. -/
theorem hostWritesIlen : Obligations.HostWritesIlen :=
  ⟨fun _ _ _ => step_writeIlen, lenW_le_iff⟩

/-- Settles O57: the move of such a write answers the state that it was given. -/
theorem readOnlyWritesIgnored : Obligations.ReadOnlyWritesIgnored := by
  intro s l rest hb ha hl
  have hin : ({ s with agenda := rest } : State).outside l = none := hl
  rw [step_move_of_idle hb ha]
  simp only [idleMove, hin]

/-! ## Reads -/

section reads
variable {s : State} {rest : List Action}

/-- R143: a read of a location that has a value gives it to the host. -/
theorem step_read_value {l : Loc} {v : ReadValue} (hb : s.busy = false) (ha : s.agenda = .act (.read l) :: rest)
    (h : s.readLoc l = .ok v) : step s = .next { s with agenda := rest, rdata := some v } := by
  have hv : ({ s with agenda := rest } : State).readLoc l = .ok v := h
  rw [step_move_of_idle hb ha]
  simp only [idleMove, hostRead, hv]

/-- R143, R178: a read of a location that has none stops. -/
theorem step_read_fault {l : Loc} {f : Fault} (hb : s.busy = false) (ha : s.agenda = .act (.read l) :: rest)
    (h : s.readLoc l = .error f) : step s = .fault f := by
  have hf : ({ s with agenda := rest } : State).readLoc l = .error f := h
  rw [step_move_of_idle hb ha]
  simp only [idleMove, hostRead, hf]

/-- R145: STATUS can be read whatever BUSY is. -/
theorem step_readStatus (ha : s.agenda = .act (.read (.ro .status)) :: rest) :
    step s = .next { s with agenda := rest, rdata := some (.status s.status) } := by
  cases hb : s.busy
  · exact step_read_value hb ha rfl
  · exact step_move_of_busy hb ha

variable (s)

theorem readLoc_ibuf {a : Nat} (h : a < s.cfg.maxIn) : s.readLoc (.ibuf a) = readByte (Memory.read s.ibuf a) :=
  if_neg (Nat.not_le.mpr h)

/-- U2: the bytes of OBUF at and beyond OLEN are not read. -/
theorem readLoc_obuf {a : Nat} (h : a < s.cfg.maxOut) :
    s.readLoc (.ro (.obuf a)) = if s.olen ≤ a then .error .unspecifiedRead else readByte (Memory.read s.obuf a) :=
  if_neg (Nat.not_le.mpr h)

theorem readLoc_freq (i : SlotIdx) : s.readLoc (.ro (.freq i.val)) = .ok (.weight s.cfg.freq[i]) :=
  dif_pos i.isLt

/-! U3: the tables are not read while BUILT = 0. -/

theorem readLoc_root :
    s.readLoc (.ro .root) = if s.built then .ok (.root s.root) else .error .unspecifiedRead := rfl

theorem readLoc_node (n : NodeIdx) :
    s.readLoc (.ro (.node n.val)) = if s.built then .ok (.node s.node[n]) else .error .unspecifiedRead :=
  dif_pos n.isLt

theorem readLoc_code (i : SlotIdx) :
    s.readLoc (.ro (.code i.val)) = if s.built then .ok (.code s.code[i]) else .error .unspecifiedRead :=
  dif_pos i.isLt

end reads

/-- Settles O58: each of the locations has its value, a byte of OBUF because the invariant keeps OLEN within MAX_OUT. -/
theorem hostReadsValues : Obligations.HostReadsValues := by
  refine ⟨fun s rest => step_readStatus, fun s l v rest hs hb ha hl => step_read_value hb ha ?_⟩
  obtain ⟨rfl, rfl⟩ | ⟨rfl, rfl⟩ | ⟨rfl, rfl⟩ | ⟨rfl, rfl⟩ | ⟨i, rfl, rfl⟩ | ⟨a, b, hcap, hread, rfl, rfl⟩ |
    ⟨a, b, hlen, hread, rfl, rfl⟩ | ⟨hbuilt, rfl, rfl⟩ | ⟨hbuilt, n, rfl, rfl⟩ | ⟨hbuilt, i, rfl, rfl⟩ := hl
  · rfl
  · rfl
  · rfl
  · rfl
  · exact readLoc_freq s i
  · rw [readLoc_ibuf s hcap, hread, readByte]
  · rw [readLoc_obuf s (Nat.lt_of_lt_of_le hlen hs.olen), if_neg (Nat.not_le.mpr hlen), hread, readByte]
  · rw [readLoc_root, if_pos hbuilt]
  · rw [readLoc_node, if_pos hbuilt]
  · rw [readLoc_code, if_pos hbuilt]

/-- Settles O59: none of the locations has a value. -/
theorem unspecifiedReadsFault : Obligations.UnspecifiedReadsFault := by
  intro s l rest hb ha hl
  refine step_read_fault hb ha ?_
  obtain ⟨a, hcap, hread, rfl⟩ | ⟨a, hlen, hcap, rfl⟩ | ⟨hbuilt, rfl | ⟨n, hn, rfl⟩ | ⟨i, hi, rfl⟩⟩ := hl
  · rw [readLoc_ibuf s hcap, hread, readByte]
  · rw [readLoc_obuf s hcap, if_pos hlen]
  · rw [readLoc_root, if_neg (by simp [hbuilt])]
  · rw [readLoc_node s ⟨n, hn⟩, if_neg (by simp [hbuilt])]
  · rw [readLoc_code s ⟨i, hi⟩, if_neg (by simp [hbuilt])]

end Sys2Proof.Machine

/-! PROOFS, family 60_exceptions: every command completes with one code, and DECODE's errors in their order (O11, O33). -/

namespace Sys2Proof

/-- R63: the three ranges of header bytes. -/
theorem headerKind_cases (b : Byte) :
    (8 ≤ b ∧ b ≤ 0xFE ∧ headerKind b = .reserved) ∨ (b ≤ 7 ∧ ∃ h, headerKind b = .compressed h) ∨
    (b = 0xFF ∧ headerKind b = .raw) := by
  by_cases hraw : b = 0xFF
  · exact .inr (.inr ⟨hraw, by rw [headerKind, if_pos hraw]⟩)
  · by_cases hlow : 7 < b
    · exact .inl ⟨by bv_omega, by bv_omega, by rw [headerKind, if_neg hraw, if_pos hlow]⟩
    · exact .inr (.inl ⟨by bv_omega, b.extractLsb' 0 3, by rw [headerKind, if_neg hraw, if_neg hlow]⟩)

namespace Machine

/-- R14, R150: every ending of a command is a completion with one code, OLEN = 0 with an error (R156) and SUB set exactly by
CODEC_ERROR (R17). -/
theorem Ending.completed {i : Instr} {s t : State} (h : Ending i s t) :
    ∃ built err sub olen, Completed t built err sub olen ∧ (err ≠ .ok → olen = 0) ∧ (err = .codecError ↔ sub ≠ .none) := by
  have ok_fits : ErrCode.ok = .codecError ↔ SubCode.none ≠ .none := by decide
  cases h with
  | error fits => exact ⟨_, _, _, _, s.raise_completed _ _, fun _ => rfl, fits⟩
  | errorWriting fits => exact ⟨_, _, _, _, s.raiseWriting_completed _ _, fun _ => rfl, fits⟩
  | output => exact ⟨_, _, _, _, s.succeed_completed _, fun he => absurd rfl he, ok_fits⟩
  | nop => exact ⟨_, _, _, _, ⟨s.complete_status .., s.complete_olen .., s.complete_phase ..⟩, fun _ => rfl, ok_fits⟩
  | build =>
    exact ⟨_, .ok, .none, _, ⟨s.completeBuild_status _, s.completeBuild_olen _, s.completeBuild_phase _⟩, fun _ => rfl, ok_fits⟩

/-- Settles O11: every instruction answers, and each way in which it can end is such a completion. -/
theorem everyCommandCompletes : Obligations.EveryCommandCompletes := by
  intro i s
  obtain ⟨t, h⟩ := exec_answers i s
  obtain ⟨built, err, sub, olen, hdone⟩ := (exec_ending h).completed
  exact ⟨t, built, err, sub, olen, h, hdone⟩

/-- R156: an error found before the command writes completes with its code, and OBUF stays. -/
theorem State.raise_reports {s : State} {built : Bool} (hb : s.built = built) (e : ErrCode) (c : SubCode) :
    Completed (s.raise e c) built e c 0 ∧ SameObuf s (s.raise e c) :=
  ⟨hb ▸ s.raise_completed e c, s.raise_sameObuf e c⟩

/-- R125, R126: the three completions in which a walk can end. -/
theorem State.finishWalk_completed (s : State) (r : Except WalkError (List Byte)) :
    Completed (s.finishWalk r) s.built .ok .none (s.finishWalk r).olen ∨
    Completed (s.finishWalk r) s.built .overflow .none 0 ∨
    Completed (s.finishWalk r) s.built .codecError .incompletePath 0 := by
  match r with
  | .ok out => exact .inl (s.succeed_completed out)
  | .error .overflow => exact .inr (.inl (s.raiseWriting_completed ..))
  | .error .incompletePath => exact .inr (.inr (s.raiseWriting_completed ..))

/-- Settles O33: the checks before the header in their order, then the kind of the header byte, then the length of a
compressed frame. -/
theorem decodeOrderOfChecks : Obligations.DecodeOrderOfChecks := by
  intro s
  have hexec := exec_decode_eq s
  obtain ⟨hin, htab⟩ := exec_keeps (by decide) hexec
  refine ⟨_, hexec, hin, htab, ?_⟩
  obtain ⟨hb, e⟩ | ⟨hb, hl, e⟩ | ⟨hb, hl, h0, e⟩ | ⟨hb, hl, h0, e⟩ :=
    checkFrame_cases s (decodeBody (headerKind (s.inputByte 0))) <;> rw [e]
  · rw [if_pos hb]
    exact State.raise_reports hb _ _
  · rw [if_neg (by simp [hb]), if_pos hl]
    exact State.raise_reports hb _ _
  · rw [if_neg (by simp [hb]), if_neg (Nat.not_lt.mpr hl), if_pos h0]
    exact State.raise_reports hb _ _
  · rw [if_neg (by simp [hb]), if_neg (Nat.not_lt.mpr hl), if_neg h0.ne']
    obtain ⟨hlo, hhi, hk⟩ | ⟨hlow, h, hk⟩ | ⟨hraw, hk⟩ := headerKind_cases (s.inputByte 0) <;> rw [hk]
    · rw [if_pos ⟨hlo, hhi⟩]
      exact State.raise_reports hb _ _
    · rw [if_neg (by bv_omega)]
      by_cases hone : s.ilen = 1
      · rw [if_pos ⟨hlow, hone⟩, decodeBody_noPayload h hone.le]
        exact State.raise_reports hb _ _
      · rw [if_neg (hone ·.2), decodeBody_walk h (by omega)]
        exact hb ▸ s.finishWalk_completed _
    · rw [hraw, if_neg (by decide), if_neg (fun ⟨hlow, _⟩ => absurd hlow (by decide))]
      exact .inl (hb ▸ s.succeed_completed s.payload)

end Machine

end Sys2Proof

/-! PROOFS, family 70_reset_and_hazards: the state after reset (O48, O49), and which lines of the host's script the step accepts
(O53, O54). -/

namespace Sys2Proof.Machine

/-! ## The state after reset -/

section afterReset
variable (cfg : Config) (epoch : Nat)

@[simp] theorem State.afterReset_busy : (State.afterReset cfg epoch).busy = false :=
  (State.afterReset cfg epoch).hostReset_busy

@[simp] theorem State.afterReset_built : (State.afterReset cfg epoch).built = false :=
  (State.afterReset cfg epoch).hostReset_built

@[simp] theorem State.afterReset_phase : (State.afterReset cfg epoch).phase = .idle := rfl

/-- R175: the invariant holds after a reset of any configuration, whatever free values the tables have come to hold. STATUS is the
word that `State.hostReset` leaves. -/
theorem State.Inv.afterReset : (State.afterReset cfg epoch).Inv where
  status := (State.Inv.hostReset (State.afterReset cfg epoch)).status.of_status_eq rfl
  phase := by simp
  ilen := Nat.two_pow_pos _
  olen := Nat.zero_le _
  ibuf := Memory.wf_nil _
  obuf := Memory.wf_nil _
  output a ha := absurd ha (Nat.not_lt_zero a)
  tables := by simp

end afterReset

/-- Settles O48: the values that `State.afterReset` gives, in every configuration. -/
theorem resetValues : Obligations.ResetValues :=
  ⟨rfl, rfl, rfl, State.afterReset_phase .., Memory.read_nil, Memory.read_nil⟩

/-- Settles O49: the power-on reset is the reset of the chip's configuration. -/
theorem invHoldsAtReset : Obligations.InvHoldsAtReset := State.Inv.afterReset Config.chip 0

/-! ## The host's line while the engine works -/

section busy
variable {s : State}

/-- R183: every move but the two that are legal at any time is a hazard. -/
theorem busyMove_hazard {m : HostMove} (hreset : m ≠ .reset) (hstatus : m ≠ .read (.ro .status)) :
    busyMove m s = .refused .busyHazard := by
  unfold busyMove
  split
  · exact absurd rfl hstatus
  · exact absurd rfl hreset
  all_goals rfl

/-- R183: the two moves that the host has while the engine works. -/
theorem busyMove_answers_iff {m : HostMove} :
    (∃ t, busyMove m s = .next t) ↔ m = .reset ∨ m = .read (.ro .status) := by
  constructor
  · rintro ⟨t, h⟩
    obtain ⟨hm, -⟩ | ⟨hm, -⟩ := busyMove_cases h
    · exact .inr hm
    · exact .inl hm
  · rintro (rfl | rfl) <;> exact ⟨_, rfl⟩

/-- While BUSY = 1 `accepts` allows the same two moves. -/
theorem State.accepts_move_of_busy (hb : s.busy = true) {m : HostMove} :
    s.accepts (.act m) = true ↔ m = .reset ∨ m = .read (.ro .status) := by
  cases m with
  | read l =>
    cases l with
    | ro l => cases l <;> simp [State.accepts, hb]
    | ilen | ibuf | cmd => simp [State.accepts, hb]
  | writeIbuf | writeIlen | writeCmd | writeReadOnly | reset => simp [State.accepts, hb]

/-- R135, R150: in a state of the invariant BUSY = 1 means that a command is in progress, and its instruction answers. -/
theorem step_engine_answers (h : s.Inv) (hb : s.busy = true) (ha : s.agenda = [] ∨ ∃ rest, s.agenda = .wait :: rest) :
    ∃ t, step s = .next t := by
  have hrunning := h.phase.mp hb
  match hp : s.phase with
  | .idle => exact absurd hp hrunning
  | .running c =>
    obtain ⟨i, hi, -⟩ := decodeByte_total .cmd c
    obtain ⟨t, ht⟩ := exec_answers i s
    exact ⟨t, (stepRunsStartedCommand s c i hb hp ha (decodeBytes_singleton.mpr hi)).trans ht⟩

/-- R183: COPYBACK begins with a move that a working engine refuses. -/
theorem step_copyback_of_busy {rest : List Action} (hb : s.busy = true) (ha : s.agenda = .copyback :: rest) :
    step s = .refused .busyHazard := by
  simp [step, hb, ha]

end busy

/-- Settles O54: the step is the host's move while the engine works, and that move is a hazard. -/
theorem busyHazardRefused : Obligations.BusyHazardRefused :=
  fun _ _ _ hb ha hreset hstatus => (step_move_of_busy hb ha).trans (busyMove_hazard hreset hstatus)

/-! ## The host's line while the engine is idle -/

section idle
variable {s : State}

/-- R143: while BUSY = 0 a read is accepted where the location has a value; STATUS always has one. -/
theorem State.accepts_read_of_idle (hb : s.busy = false) (l : Loc) : s.accepts (.act (.read l)) = (s.readLoc l).isOk := by
  cases l with
  | ro l =>
    cases l with
    | status => rfl
    | olen | root | obuf | freq | node | code => simp [State.accepts, hb]
  | ilen | ibuf | cmd => simp [State.accepts, hb]

/-- R140 to R144: while BUSY = 0 a move is answered exactly within its range. -/
theorem idleMove_answers_iff (hb : s.busy = false) (m : HostMove) :
    (∃ t, idleMove m s = .next t) ↔ s.accepts (.act m) = true := by
  cases m with
  | writeIbuf a v => by_cases ha : a < s.cfg.maxIn <;> simp [idleMove, State.accepts, hb, ha]
  | writeIlen n => by_cases hn : n < 2 ^ s.cfg.lenW <;> simp [idleMove, State.accepts, hb, hn]
  | writeCmd c => simp [idleMove, State.accepts, hb]
  | writeReadOnly l => cases hl : s.outside l <;> simp [idleMove, State.accepts, hb, hl]
  | read l =>
    rw [State.accepts_read_of_idle hb]
    cases hl : s.readLoc l <;> simp [idleMove, hostRead, hl, Except.isOk, Except.toBool]
  | reset => simp [idleMove, State.accepts]

/-- R72: a poll of WAIT always goes on, past the line or at it. -/
theorem step_wait_answers {rest : List Action} (hb : s.busy = false) (ha : s.agenda = .wait :: rest) :
    ∃ t, step s = .next t := by
  cases hd : s.done
  · exact ⟨s, by simp [step, hb, ha, idleAction, hd]⟩
  · exact ⟨_, step_wait_of_done hb ha hd⟩

end idle

/-! ## The next line of the script -/

section script
variable {s : State} {rest : List Action}

/-- Whether a line is accepted does not depend on the lines after it. -/
theorem State.accepts_withAgenda (s : State) (rest : List Action) (a : Action) :
    (s.withAgenda rest).accepts a = s.accepts a := rfl

theorem State.safe_move_iff {m : HostMove} (ha : s.agenda = .act m :: rest) : s.safe ↔ s.accepts (.act m) = true := by
  unfold State.safe
  cases hb : s.busy
  · rw [step_move_of_idle hb ha, ← s.accepts_withAgenda rest]
    exact idleMove_answers_iff (s := s.withAgenda rest) hb m
  · rw [step_move_of_busy hb ha, State.accepts_move_of_busy hb]
    exact busyMove_answers_iff

theorem State.safe_wait (h : s.Inv) (ha : s.agenda = .wait :: rest) : s.safe := by
  cases hb : s.busy
  · exact step_wait_answers hb ha
  · exact step_engine_answers h hb (.inr ⟨rest, ha⟩)

theorem State.safe_copyback_iff (ha : s.agenda = .copyback :: rest) : s.safe ↔ s.accepts .copyback = true := by
  unfold State.safe
  cases hb : s.busy
  · simp [step_copyback hb ha, State.accepts, hb]
  · simp [step_copyback_of_busy hb ha, State.accepts, hb]

theorem step_idle_of_agenda_nil (hb : s.busy = false) (ha : s.agenda = []) : step s = .next s := by
  simp [step, hb, ha]

theorem State.safe_of_agenda_nil (h : s.Inv) (ha : s.agenda = []) : s.safe := by
  cases hb : s.busy
  · exact ⟨s, step_idle_of_agenda_nil hb ha⟩
  · exact step_engine_answers h hb (.inl ha)

end script

/-- Settles O53: by the kind of the next line, and then by BUSY. -/
theorem stepGoesOnWhenAccepted : Obligations.StepGoesOnWhenAccepted := by
  refine ⟨fun s a rest h ha => ?_, fun s => step_idle_of_agenda_nil, fun s => State.safe_of_agenda_nil⟩
  cases a with
  | act m => exact State.safe_move_iff ha
  | wait => exact iff_of_true (State.safe_wait h ha) rfl
  | copyback => exact State.safe_copyback_iff ha

/-- Beside the frozen witness with BUSY = 0: right after reset ENCODE has been started, and the host's script goes on in any way. -/
theorem witness_StepGoesOnWhenAccepted_busy (script : List Action) :
    ∃ s : State, s.Inv ∧ s.busy = true ∧ s.agenda = script :=
  ⟨State.reset.started 0x02 script, (invHoldsAtReset.start 0x02).withAgenda script, State.started_busy .., rfl⟩

end Sys2Proof.Machine

/-! PROOFS, family other: in each space a byte hits exactly one row (O3). -/

namespace Sys2Proof

/-- No byte hits two rows that are apart: it hits at most one of rows that are pairwise apart. -/
theorem length_filter_hit_le_one {rows : List Row} (h : rows.Pairwise Row.Apart) (b : Byte) :
    (rows.filter fun r => r.hit b).length ≤ 1 := by
  by_contra! two
  have apart := List.pairwise_iff_getElem.mp (h.filter fun r => r.hit b) 0 1 (by omega) two Nat.zero_lt_one
  have hits : ∀ r ∈ rows.filter fun r => r.hit b, r.hit b = true := fun _ => List.of_mem_filter
  exact Row.not_apart_of_hit (hits _ (List.getElem_mem _)) (hits _ (List.getElem_mem _)) apart

/-- Settles O3: the rows of a space are pairwise apart, so they do not overlap, and some row is hit, so there is no gap. -/
theorem everyByteHitsOneRow : Obligations.EveryByteHitsOneRow := by
  intro sp b
  obtain ⟨r, hr, hb, -⟩ := exists_row sp b
  have no_gap : 0 < ((rowsOf sp).filter fun r => r.hit b).length := List.length_pos_of_mem (List.mem_filter.mpr ⟨hr, hb⟩)
  have no_overlap := length_filter_hit_le_one (rowsOf_pairwise_apart sp) b
  exact Nat.le_antisymm no_overlap no_gap

end Sys2Proof
